-- ==== Sys2Proof/Word.lean ====
section
/-! DEFINITION. The word types of the GFR burst modem (spec/00_scope.md R9, spec/20_memory.md R60, R68). -/

namespace Sys2Proof

/-- A byte of a command word, of a frame's payload or of a port beat. -/
abbrev Byte := BitVec 8

/-- A CSR value, a command word or a word of a result record: 32 bits (R68, R92). -/
abbrev Word := BitVec 32

/-- An absolute index into the sample stream: 64 bits, wrapping (R24, R325). -/
abbrev Count := BitVec 64

/-- A bit string (R9): index 0 is the first bit received or transmitted (R64). -/
abbrev Bits := List Bool

end Sys2Proof
end

