-- ==== Sys2Proof/Config.lean ====
section
/-! DEFINITION. What is fixed for the block's lifetime: the constants of spec/00_scope.md R6, the parameters the
source leaves open (R7, with the constraints of spec/70_reset_and_hazards.md R343), and the values the spec states no
result for. The parameters are an argument of every operation; the machine takes them from `Config.params`, a constant
without a body, so nothing can be proved of it but that it meets the constraints of `Params`. -/

namespace Sys2Proof

namespace Config

/-- `RS`, symbols per second (R6). -/
def symbolRate : Nat := 250000
/-- `MIN_BURST`, samples (R6, R125). -/
def minBurst : Nat := 200
/-- `GUARD`, samples at each crop edge (R6, R154). -/
def guardBand : Nat := 3
/-- `INTERP`, the interpolation factor (R6, R184). -/
def interp : Nat := 8
/-- `NET_K` of the network-code map (R6, R213). -/
def netK : Nat := 50024
/-- `N_IDS`, the number of wireless IDs (R6, R213). -/
def nIds : Nat := 100
/-- `TYPE_SHORT`, the type byte of a short command (R6, R88). -/
def typeShort : Byte := 0xD5
/-- `TYPE_PROP`, the type byte of a property command (R6, R88). -/
def typeProp : Byte := 0xA9
/-- `TX_UP`, output samples per transmitted symbol (R6, R255). -/
def txUp : Nat := 8
/-- `FS_TX = TX_UP · RS`, output samples per second (R7, R255). -/
def fsTx : Nat := txUp * symbolRate
/-- `Q_SCALE` of the quantiser (R6, R261). -/
def qScale : Nat := 127
/-- `REC_BITS_MAX`, bits of the bit string a record stores (R7, R95). -/
def recBitsMax : Nat := 128
/-- The value of the `ID` register (R33, R282). -/
def idWord : Word := 0x47460007

end Config

/-- `QUANT_MODE` (R7, R261). -/
inductive QuantMode where
  /-- Toward zero (the default). -/
  | trunc
  /-- To the nearest, halves away from zero. -/
  | nearest
  deriving DecidableEq, Repr, Inhabited

/-- The threshold tests that spec/93_implementation_defined.md I3 lists. -/
inductive Threshold where
  /-- `|z|² > 1/1000` (R122). -/
  | detector
  /-- The re-crop test (R153). -/
  | crop
  /-- The flatness limit on the largest deviation (R155). -/
  | flatMax
  /-- The flatness limit on the standard deviation (R155). -/
  | flatStd
  /-- The lock window (R182). -/
  | lock
  /-- The depth limit on the mean (R187). -/
  | depthMean
  /-- The depth limit on the standard deviation (R187). -/
  | depthStd
  /-- The slicer's sign test (R188). -/
  | slicer
  /-- The rounding of the symbol grid index (R186). -/
  | grid
  /-- The transmitter's peak check (R260). -/
  | peak
  /-- The transmitter's quantiser (R261). -/
  | quantiser
  deriving DecidableEq, Repr, Inhabited

/-- `NUMERICS` (R7, R10; I3): the arithmetic of the datapath. -/
inductive Numerics where
  /-- Exact real arithmetic, the reference semantics and the default (R10): every test has one defined outcome. -/
  | exactReals
  /-- Any other arithmetic: an operand closer to its threshold than `err` gives the outcome `pick`, which nothing
  constrains (I3, "any value"); every other operand gives the exact outcome. -/
  | rounded (err : Threshold → ℝ) (pick : Threshold → ℝ → ℝ → Bool)
  deriving Inhabited

/-- The value decoder of a property (R224). -/
inductive ValueDecoder where
  | raw
  | integer
  | boolean
  | enumByIndex (names : List String)
  | unitSuffix (unit : String)
  | stops
  deriving DecidableEq, Repr, Inhabited

/-- An entry of `PROPERTY_TABLE` (R7, R220): its display name, its decoder if it has one, and whether the source marks
its meaning as uncertain (R226). -/
structure PropertyEntry where
  name : String
  decoder : Option ValueDecoder
  uncertain : Bool := false
  deriving DecidableEq, Repr, Inhabited

/-- The parameters of R7 with the constraints of R343. A configuration that breaks a constraint is refused in the
plainest way: it cannot be written (spec/93_implementation_defined.md I11). The values after `:=` only show that the
constraints can be met; the machine does not use them. -/
structure Params where
  /-- `FS_RX`, the receive sample rate in Hz (D4). -/
  fsRx : ℝ := ((2000000 : ℚ) : ℝ)
  fsRx_ge : 2 * (Config.symbolRate : ℝ) ≤ fsRx := by norm_num [Config.symbolRate]
  /-- `W_CAP`, the capacity of the sample window (D5). -/
  wCap : Nat := 1024
  wCap_ge : Config.minBurst + 1 ≤ wCap := by decide
  /-- `RFIFO_DEPTH`, the records the result FIFO holds (D6). -/
  rfifoDepth : Nat := 2
  rfifoDepth_ge : 1 ≤ rfifoDepth := by decide
  /-- `SHORT_CMD_TABLE`, a partial map from a byte to a name (D28). -/
  shortCmdTable : Byte → Option String := fun _ => none
  /-- `PROPERTY_TABLE`, a partial map from an id to a name and an optional decoder (D29). -/
  propertyTable : Byte → Option PropertyEntry := fun _ => none
  /-- A property of uncertain meaning decodes as `Integer` (R226, I15). -/
  property_uncertain : ∀ id e, propertyTable id = some e → e.uncertain = true → e.decoder = some .integer := by simp
  /-- An enumeration has at least one name (R224). -/
  property_enum : ∀ id e names, propertyTable id = some e → e.decoder = some (.enumByIndex names) → names ≠ [] := by simp
  /-- `GAUSS_TAPS`, 17 taps (D36; R256). -/
  gaussTaps : Fin 17 → ℝ := fun _ => ((1 / 17 : ℚ) : ℝ)
  gaussTaps_pos : ∀ t, 0 < gaussTaps t := by intro; norm_num
  gaussTaps_symm : ∀ t, gaussTaps t = gaussTaps t.rev := by simp
  gaussTaps_sum : ∑ t, gaussTaps t = 1 := by simp
  /-- `LPF_TAPS`, 15 real taps (D37; R259). -/
  lpfTaps : Fin 15 → ℝ := fun _ => ((1 / 15 : ℚ) : ℝ)
  /-- `F_DEV_TX`, the transmitter's peak deviation in Hz (D35; R257). -/
  fDevTx : ℝ := ((150000 : ℚ) : ℝ)
  fDevTx_pos : 0 < fDevTx := by norm_num
  /-- `QUANT_MODE` (D40; R261). -/
  quantMode : QuantMode := .trunc
  /-- `NUMERICS` (D3; R10). -/
  numerics : Numerics := .exactReals
  /-- `CSR_BASE`, where the platform places the CSR space in the host's address space (D43; R61, R329). -/
  csrBase : Nat := 0
  deriving Inhabited

namespace Config

/-- The parameters of this instance of the block. No body: R7, "None of them is guessed". -/
opaque params : Params

/-- The record's LENGTH word for a burst of `2^32` samples or more. R94 gives the field 32 bits and no value for such
a length, which only a `W_CAP` above `2^32` allows: a free value (log entry 6). -/
opaque longLength : Nat → Word

end Config

end Sys2Proof
end

