-- ==== Sys2Proof/Syntax.lean ====
section
/-! DEFINITION. The instructions of spec/opcode_table.json (spec/00_scope.md R3: three command words and two frame
kinds), the ways a bit string fails to be a frame, and the ways a word fails to be a command. -/

namespace Sys2Proof

/-- One constructor per row of the opcode table. -/
inductive Instr where
  /-- `NOP`, the command words `0x00xxxxxx` (R99, R103). Its operand bits are kept, and ignored by its meaning. -/
  | nop (operands : BitVec 24)
  /-- `TXS`, `0xD50000CC` (R100): send the short command `c`. -/
  | txs (c : Byte)
  /-- `TXP`, `0xA9AABBCC` (R101): send the property command with target `a`, property id `b` and value `c`. -/
  | txp (a b c : Byte)
  /-- `FRAME_SHORT` (R84, R88, R89): a received short-command frame of the sender `wid` with the byte `cmd`. -/
  | frameShort (wid cmd : Byte)
  /-- `FRAME_PROP` (R84, R88, R90): a received property-command frame of the sender `wid`. -/
  | frameProp (wid target prop value : Byte)
  deriving DecidableEq, Repr, Inhabited

/-- The per-burst failures (R97, R311). The last seven are the decoder's (codes 4 to 10). -/
inductive BurstFail where
  | powerProfileInvalid
  | clockLockFailed
  | modulationDepthInvalid
  | frameTruncated
  | frameSyncMismatch
  | wirelessIdMismatch
  | unknownWirelessId
  | unsupportedFrameType
  | trailingBitMismatch
  | trailingGarbage
  deriving DecidableEq, Repr, Inhabited, Encodable

/-- Why a word is no command (R102). -/
inductive CommandError where
  /-- Its `OP` is not `0x00`, `0xD5` or `0xA9`. -/
  | illegalOpcode
  /-- Its `OP` is `0xD5` and bits 23:8 are not zero. -/
  | txsOperandBits
  deriving DecidableEq, Repr, Inhabited

end Sys2Proof
end

