-- ==== Sys2Proof/WellFormed.lean ====
section
/-! DEFINITION. Which terms of `Instr` are instructions: the sender of a frame is a wireless ID 0..99
(spec/44_frame_decoder.md R213, R214). Every operand of a command word is legal (R99 to R101). -/

namespace Sys2Proof

/-- The wireless-ID space is 0..99 (R213). -/
def validWid (wid : Byte) : Bool := decide (wid.toNat < Config.nIds)

/-- One check per operand that the encoding restricts. -/
def Instr.wellFormed : Instr → Bool
  | .nop _ => true
  | .txs _ => true
  | .txp _ _ _ => true
  | .frameShort wid _ => validWid wid
  | .frameProp wid _ _ _ => validWid wid

end Sys2Proof
end

