-- ==== Sys2Proof/Decode.lean ====
section
/-! DEFINITION. The decoders of the two instruction formats (spec/30_encoding.md R84 to R91 and R98 to R104,
spec/44_frame_decoder.md R210 to R223) and their encoders (spec/45_frame_encoder.md R251 to R254). Both decoders are
total and refuse by name. -/

namespace Sys2Proof

/-! ### Bit strings (R9, R64) -/

/-- `bits_N(v)`: most significant bit first. -/
def bitsOf {n : Nat} (v : BitVec n) : Bits := (List.range n).map fun i => v.getMsbD i

/-- `val(b)`: the first bit is the most significant. -/
def val (b : Bits) : Nat := b.foldl (fun a x => 2 * a + x.toNat) 0

/-- A list of bytes as bits, each byte most significant bit first (R253). -/
def bytesToBits (bs : List Byte) : Bits := bs.flatMap bitsOf

/-- The preamble: bit `i` is 1 when `i` is even (R86). -/
def preamble : Bits := (List.range 32).map fun i => i % 2 == 0

/-! ### The network-code map (R213, R214) -/

/-- `code(w) = 50024 div (w + 1)`. -/
def networkCode (w : Nat) : Nat := Config.netK / (w + 1)

/-- The wireless ID with network code `a`, if any: the inversion is exact (R214). -/
def invertCode (a : Nat) : Option Nat := (List.range Config.nIds).find? fun w => networkCode w == a

/-- The network code as the two bytes sent, high byte first (R65, R252). -/
def codeBytes (w : Nat) : List Byte := [BitVec.ofNat 8 (networkCode w / 256), BitVec.ofNat 8 (networkCode w % 256)]

/-! ### Frames -/

/-- `take(n)` of R210: the field and the bits after it. -/
def takeField (n : Nat) (b : Bits) : Except BurstFail (Bits × Bits) :=
  if b.length < n then .error .frameTruncated else .ok (b.take n, b.drop n)

/-- The preamble, the two wireless-ID fields and the ID inversion (R211, R212, R214). -/
def takeHeader (b : Bits) : Except BurstFail (Nat × Bits) :=
  (takeField 32 b).bind fun (pre, b) =>
  if pre ≠ preamble then .error .frameSyncMismatch else
  (takeField 16 b).bind fun (a, b) =>
  (takeField 16 b).bind fun (c, b) =>
  if val a ≠ val c then .error .wirelessIdMismatch else
  match invertCode (val a) with
  | none => .error .unknownWirelessId
  | some wid => .ok (wid, b)

/-- The trailing bit and the end of the frame (R222, R223); `last` is the last payload bit. -/
def checkEnd (last : Bool) (b : Bits) : Except BurstFail Unit :=
  (takeField 1 b).bind fun (tb, b) =>
  if tb ≠ [last] then .error .trailingBitMismatch else
  if b.length > 1 then .error .trailingGarbage else .ok ()

/-- The byte a field of eight bits spells (R216, R219 to R221). -/
def byteOf (b : Bits) : Byte := BitVec.ofNat 8 (val b)

/-- The payload and the end of a short-command frame (R216, R222, R223). -/
def takeShort (wid : Nat) (b : Bits) : Except BurstFail Instr :=
  (takeField 8 b).bind fun (cmd, b) =>
  (checkEnd (cmd.getLastD false) b).bind fun _ =>
  .ok (.frameShort (BitVec.ofNat 8 wid) (byteOf cmd))

/-- The payload and the end of a property-command frame (R219 to R223). -/
def takeProp (wid : Nat) (b : Bits) : Except BurstFail Instr :=
  (takeField 8 b).bind fun (tg, b) =>
  (takeField 8 b).bind fun (pid, b) =>
  (takeField 8 b).bind fun (x, b) =>
  (checkEnd (x.getLastD false) b).bind fun _ =>
  .ok (.frameProp (BitVec.ofNat 8 wid) (byteOf tg) (byteOf pid) (byteOf x))

/-- The frame a bit string holds, or the first check it fails (R210 to R223, R234; order of R319). -/
def decodeFrame (b : Bits) : Except BurstFail Instr :=
  (takeHeader b).bind fun (wid, b) =>
  (takeField 8 b).bind fun (t, b) =>
  if byteOf t = Config.typeShort then takeShort wid b
  else if byteOf t = Config.typeProp then takeProp wid b
  else .error .unsupportedFrameType

/-! ### Command words -/

/-- Bits 31:24 of a command word (R98). -/
def opOf (w : Word) : Byte := w.extractLsb' 24 8

/-- The command a word holds (R98 to R103). -/
def decodeCommand (w : Word) : Except CommandError Instr :=
  if opOf w = 0x00 then .ok (.nop (w.extractLsb' 0 24))
  else if opOf w = Config.typeShort then
    if w.extractLsb' 8 16 ≠ 0 then .error .txsOperandBits else .ok (.txs (w.extractLsb' 0 8))
  else if opOf w = Config.typeProp then
    .ok (.txp (w.extractLsb' 16 8) (w.extractLsb' 8 8) (w.extractLsb' 0 8))
  else .error .illegalOpcode

/-- A 32-bit value as the four bytes of the CSR bus, bits 7:0 first (R62). -/
def busBytes (w : Word) : List Byte := (List.range 4).map fun i => w.extractLsb' (8 * i) 8

/-- The 32-bit value of four bytes of the CSR bus (R62). -/
def wordOfBusBytes (bs : List Byte) : Word :=
  bs.getD 3 0 ++ bs.getD 2 0 ++ bs.getD 1 0 ++ bs.getD 0 0

/-! ### Encoders -/

/-- An encoded instruction: a command word or a frame's bits. -/
inductive Encoded where
  | command (w : Word)
  | frame (b : Bits)
  deriving DecidableEq, Repr, Inhabited

/-- The payload bytes of R252: the network code twice, then the type byte and its operands. -/
def payloadBytes (wid : Nat) (body : List Byte) : List Byte := codeBytes wid ++ codeBytes wid ++ body

/-- The frame of a payload (R253, R254): the preamble, the payload bits and the last payload bit once more. -/
def frameOfPayload (bs : List Byte) : Bits :=
  preamble ++ bytesToBits bs ++ [(bytesToBits bs).getLastD false]

/-- The short-command frame of the sender `wid` (R252, R254). -/
def frameShortBits (wid : Nat) (c : Byte) : Bits := frameOfPayload (payloadBytes wid [Config.typeShort, c])

/-- The property-command frame of the sender `wid` (R252, R254). -/
def framePropBits (wid : Nat) (a b c : Byte) : Bits := frameOfPayload (payloadBytes wid [Config.typeProp, a, b, c])

/-- The words, or the frame, of an instruction (R99 to R101, R254). -/
def encode : Instr → Encoded
  | .nop operands => .command ((0x00 : Byte) ++ operands)
  | .txs c => .command (Config.typeShort ++ (0 : BitVec 16) ++ c)
  | .txp a b c => .command (Config.typeProp ++ a ++ b ++ c)
  | .frameShort wid cmd => .frame (frameShortBits wid.toNat cmd)
  | .frameProp wid tg pid x => .frame (framePropBits wid.toNat tg pid x)

/-- Why an encoded instruction is refused. -/
inductive DecodeError where
  | command (e : CommandError)
  | frame (e : BurstFail)
  deriving DecidableEq, Repr, Inhabited

/-- The instruction of a command word or of a frame's bits. -/
def decode : Encoded → Except DecodeError Instr
  | .command w => (decodeCommand w).mapError .command
  | .frame b => (decodeFrame b).mapError .frame

/-! ### The words of the opcode table -/

/-- A frame around a type byte of the opcode table: the table gives the frame rows their type byte alone, so the
preamble and the ID fields are those of wireless ID 0, every bit after the type byte is 0, and the frame ends where
its kind ends (R85). Log entry 4. -/
def frameOfTypeByte (t : Byte) : Bits :=
  preamble ++ bytesToBits (codeBytes 0 ++ codeBytes 0 ++ [t]) ++
    List.replicate (if t = Config.typeShort then 9 else 25) false

/-- The bytes of a table word as the CSR bus carries them (R62). -/
def tableWordBytes (w : Nat) : List Byte := (List.range 4).map fun i => BitVec.ofNat 8 (w / 256 ^ i)

/-- The instruction the decoder reads from a word of the opcode table: rows of 8 bits are type bytes of frames, the
other rows are command words. -/
def decodeTableWord (nbits w : Nat) : Option Instr :=
  if nbits = 8 then (decodeFrame (frameOfTypeByte (BitVec.ofNat 8 w))).toOption
  else (decodeCommand (wordOfBusBytes (tableWordBytes w))).toOption

end Sys2Proof
end

