-- ==== Sys2Proof/Machine/State.lean ====
section
/-! DEFINITION. The state of the block (spec/10_state.md R23 to R43), what waits for it and what it has answered, and
its value after reset (R46). The constants of R33 and the parameters are in Config.lean; `STATUS`'s live bits and `irq`
are functions of the state (R35, R43) and stand in Flags.lean. -/

namespace Sys2Proof.Machine

/-- A complex sample: two IEEE-754 binary32 patterns (R23, R80). -/
structure Sample where
  re : BitVec 32
  im : BitVec 32
  deriving DecidableEq, Repr, Inhabited

/-- An entry of `pending` (R27). -/
structure Burst where
  absStart : Count
  samples : List Sample
  deriving DecidableEq, Repr, Inhabited

/-- `rx_phase` (R28). -/
inductive RxPhase where
  | accept
  | process
  | halted
  deriving DecidableEq, Repr, Inhabited

/-- `tx_phase` (R31). -/
inductive TxPhase where
  | idle
  | stream
  | halted
  deriving DecidableEq, Repr, Inhabited

/-- A beat of `tx_out` and of the TX port (R32, R82): two signed bytes and the flag of a frame's last beat. -/
structure TxBeat where
  i : Byte
  q : Byte
  last : Bool
  deriving DecidableEq, Repr, Inhabited

/-- A result record: 10 to 14 words (R92 to R96). -/
abbrev Record := List Word

/-- A demodulated burst on its way through the frame decoder, inside a PROCESS step (R130): the words of its context
(R94) and the bits handed to the decoder (R189, R190). -/
structure Reception where
  absStart : Count
  length : Nat
  gap : Count
  power : Word
  bits : Bits
  prepended : Bool
  deriving DecidableEq, Repr, Inhabited

/-- An access of the host on the CSR bus: a byte offset and a size in bytes (R280, R281). -/
inductive BusOp where
  | read (addr : Byte) (size : Nat)
  | write (addr : Byte) (size : Nat) (v : Word)
  deriving DecidableEq, Repr, Inhabited

/-- The block's answer on the CSR bus: the bus error response (R294) and the value of a read (0 for a write). -/
structure BusReply where
  error : Bool
  data : Word
  deriving DecidableEq, Repr, Inhabited

/-- A beat offered on the sample port (R80): `data[31:0]` is `RE`, `data[63:32]` is `IM`. -/
structure PortBeat where
  data : BitVec 64
  last : Bool
  deriving DecidableEq, Repr, Inhabited

/-- Who moves next. R20 lets the agents step in any interleaving; the interleaving is an input. -/
inductive Turn where
  /-- The host's next bus access takes effect (R72). -/
  | bus
  /-- The sample port takes the beat offered, if it is ready (R121). -/
  | port
  /-- The end-of-stream event is taken, ignored or left waiting (R129). -/
  | eos
  /-- The RX agent steps, if its step is enabled (R130). -/
  | rx
  /-- The RX agent steps until no step of it is enabled. -/
  | drain
  /-- The sink takes a beat, if one is offered (R262). -/
  | sink
  /-- The reset input is asserted (R340). -/
  | reset
  deriving DecidableEq, Repr, Inhabited

/-- Why a step stops. No event of the spec stops the block (R310, R321), so a fault is only raised outside every run. -/
inductive Fault where
  /-- Raised by the meanings of FRAME_SHORT and FRAME_PROP when no demodulated burst is in the decoder. `step` never
  asks for that: it runs a frame only from a burst. Safe. -/
  | noFrameInDecoder
  deriving DecidableEq, Repr, Inhabited

/-- Why a step has no meaning. -/
inductive Refusal where
  /-- An instruction that has no meaning in the model (none is left). Safe. -/
  | notModelled (mnemonic : String)
  /-- Raised when the sample port would take a beat with a NaN or infinite part: spec/93_implementation_defined.md I4
  puts it outside the model ("refuse"). Safe. -/
  | nonFiniteSample
  deriving DecidableEq, Repr, Inhabited

/-- The state. The fields down to `scShadow` are the spec's; the rest are the model's own. -/
structure State where
  /-- `win`; `fill` is its length (R23). -/
  win : List Sample
  /-- `count` (R24). -/
  count : Count
  /-- `discard` (R25). -/
  discard : Bool
  /-- `prev_end` (R26). -/
  prevEnd : Count
  /-- `pending` (R27). -/
  pending : List Burst
  /-- `rx_phase` (R28). -/
  rxPhase : RxPhase
  /-- `rfifo` (R29). -/
  rfifo : List Record
  /-- `rd_idx` (R30). -/
  rdIdx : Nat
  /-- `tx_phase` (R31). -/
  txPhase : TxPhase
  /-- `tx_out` (R32). -/
  txOut : List TxBeat
  /-- `CTRL.RX_EN` (R34). -/
  rxEn : Bool
  /-- `STATUS.TX_DONE` (R35). -/
  txDone : Bool
  /-- `STATUS.CMD_ERR` (R35). -/
  cmdErr : Bool
  /-- `STATUS.OVF` (R35). -/
  ovf : Bool
  /-- `STATUS.EOS_FATAL` (R35). -/
  eosFatal : Bool
  /-- `STATUS.TX_FATAL` (R35). -/
  txFatal : Bool
  /-- `IRQ_EN` (R36). -/
  irqEn : Word
  /-- `TX_CHANNEL.CH` (R38). -/
  txChannel : BitVec 7
  /-- `sc_shadow` (R39). -/
  scShadow : BitVec 32
  /-- The burst in the frame decoder. Inside a PROCESS step only: no step leaves one behind (log entry 2). -/
  inflight : Option Reception
  /-- Who moves next, first entry first. -/
  turns : List Turn
  /-- The bus accesses the host has issued and the block has not taken, in issue order (R72). -/
  busIn : List BusOp
  /-- The beats offered on the sample port, the next one first (R121: a beat waits while the port is not ready). -/
  portIn : List PortBeat
  /-- How many end-of-stream events wait on the sample port (R81, R129). -/
  eosIn : Nat
  /-- What the block has answered on the bus, oldest first (R354). -/
  busOut : List BusReply
  /-- The beats the sink has taken, oldest first (R354, R355). -/
  sinkOut : List TxBeat
  /-- The records the host has read to their last word, oldest first (R288, R355). -/
  recordsOut : List Record
  deriving DecidableEq, Repr

/-- The state after reset, with nothing waiting outside (R46, R340). -/
def State.reset : State where
  win := []
  count := 0
  discard := false
  prevEnd := 0
  pending := []
  rxPhase := .accept
  rfifo := []
  rdIdx := 0
  txPhase := .idle
  txOut := []
  rxEn := false
  txDone := false
  cmdErr := false
  ovf := false
  eosFatal := false
  txFatal := false
  irqEn := 0
  txChannel := 0
  scShadow := 0
  inflight := none
  turns := []
  busIn := []
  portIn := []
  eosIn := 0
  busOut := []
  sinkOut := []
  recordsOut := []

/-- The one outcome type of the machine. -/
abbrev Result := Host.Outcome State Fault Refusal

end Sys2Proof.Machine
end

