-- ==== Sys2Proof/Machine/Numerics.lean ====
section
/-! DEFINITION. Arithmetic (spec/00_scope.md R9, R10): the numbers that binary32 samples denote, the real functions the
rules are written with, the threshold tests under `NUMERICS`, and how an exact real result becomes plain data.

The rules of the datapath are stated in exact real arithmetic, so they are written here over Mathlib's `ℝ` and `ℂ`.
A test on reals cannot be evaluated; `decideExact` names its outcome and `realize` names the plain datum an exact
definition gives (`realize_eq` in Laws/Numerics.lean: it is that datum). Neither constrains anything (log entry 3). -/

namespace Sys2Proof.Machine

/-! ### Binary32 (R23, R63, R80, R94) -/

/-- The exponent field is not all ones: neither a NaN nor an infinity (R80). -/
def finite32 (w : BitVec 32) : Bool := w.extractLsb' 23 8 ≠ 0xFF

/-- The significand of a binary32 pattern, hidden bit included, scaled to units of `2^-149`. -/
def magnitude32 (w : BitVec 32) : Nat :=
  let e := (w.extractLsb' 23 8).toNat
  let f := (w.extractLsb' 0 23).toNat
  if e = 0 then f else (2 ^ 23 + f) * 2 ^ (e - 1)

/-- The value of a finite binary32 pattern in units of `2^-149`: an integer. -/
def fixed32 (w : BitVec 32) : Int := if w.msb then -(magnitude32 w : Int) else magnitude32 w

/-- The real number a finite binary32 pattern denotes. -/
noncomputable def real32 (w : BitVec 32) : ℝ := (fixed32 w : ℝ) / 2 ^ 149

/-- Both parts of the sample are finite (R23, R80). -/
def Sample.isFinite (z : Sample) : Bool := finite32 z.re && finite32 z.im

/-- The complex number a sample denotes (R23). -/
noncomputable def Sample.toComplex (z : Sample) : ℂ := ⟨real32 z.re, real32 z.im⟩

/-- `|z|²` in units of `2^-298`: an integer. -/
def Sample.normSqFixed (z : Sample) : Int := fixed32 z.re * fixed32 z.re + fixed32 z.im * fixed32 z.im

/-- The nearest integer, ties to even. -/
noncomputable def roundEven (x : ℝ) : ℤ :=
  if x - ⌊x⌋ < 1 / 2 then ⌊x⌋
  else if x - ⌊x⌋ = 1 / 2 then (if Even ⌊x⌋ then ⌊x⌋ else ⌊x⌋ + 1)
  else ⌊x⌋ + 1

/-- The exponent of the unit in the last place of binary32 at `x`: -149 at 0 and below the normal range. -/
noncomputable def ulpExp32 (x : ℝ) : ℤ := if x = 0 then -149 else max (-149) (Int.log 2 |x| - 23)

/-- `x` rounded to binary32, to nearest, ties to even (R94), as IEEE-754 does: the significand in units of the last
place added to the exponent field, so that a carry moves to the next exponent; an overflow is an infinity; a negative
`x` keeps its sign. -/
noncomputable def roundB32 (x : ℝ) : BitVec 32 :=
  let e := ulpExp32 x
  let n := (roundEven (|x| * (2 : ℝ) ^ (-e))).toNat
  let mag := min 0x7F800000 ((e + 149).toNat * 2 ^ 23 + n)
  (if x < 0 then 0x80000000 else 0) ||| BitVec.ofNat 32 mag

/-! ### Real functions (R9, R10) -/

/-- `dB(z) = 10·log10(|z|²)`. -/
noncomputable def dB (z : ℂ) : ℝ := 10 * Real.logb 10 (Complex.normSq z)

/-- `mean(v)`. -/
noncomputable def mean (v : List ℝ) : ℝ := v.sum / v.length

/-- `pstd(v)`, the population standard deviation (D17). -/
noncomputable def pstd (v : List ℝ) : ℝ := Real.sqrt (mean (v.map fun x => (x - mean v) ^ 2))

/-- `median(v)`: the middle value, or the mean of the two middle values (D16). -/
noncomputable def median (v : List ℝ) : ℝ :=
  let s := v.insertionSort (· ≤ ·)
  if v.length % 2 = 1 then s.getD (v.length / 2) 0
  else (s.getD (v.length / 2 - 1) 0 + s.getD (v.length / 2) 0) / 2

/-- `x mod m` of reals: in `[0, m)` for `m > 0` (R9). -/
noncomputable def rmod (x m : ℝ) : ℝ := x - m * ⌊x / m⌋

/-- Full linear convolution (R256): `conv(x, h)[n] = Σ_t h[t]·x[n − t]` with zeros outside `x`. -/
noncomputable def conv {α : Type} [AddCommMonoid α] [Module ℝ α] (x : List α) (h : List ℝ) : List α :=
  (List.range (x.length + h.length - 1)).map fun n =>
    ∑ t ∈ Finset.range h.length, h.getD t 0 • (if t ≤ n then x.getD (n - t) 0 else 0)

end Sys2Proof.Machine

namespace Sys2Proof

/-! ### Threshold tests under `NUMERICS` (R7, I3) -/

open Classical in
/-- The test `x < y`. Under exact reals it is the comparison; otherwise an operand within rounding distance of the
threshold may give either outcome. -/
noncomputable def Numerics.lt (num : Numerics) (t : Threshold) (x y : ℝ) : Prop :=
  match num with
  | .exactReals => x < y
  | .rounded err pick => if |x - y| < err t then pick t x y = true else x < y

open Classical in
/-- `floor(x)`. Under exact reals it is the floor; otherwise, within rounding distance of an integer, where the floor
steps, it may be that integer or the one before. -/
noncomputable def Numerics.floor (num : Numerics) (t : Threshold) (x : ℝ) : ℤ :=
  match num with
  | .exactReals => ⌊x⌋
  | .rounded err pick =>
    if |x - round x| < err t then (if pick t x (round x) then round x else round x - 1) else ⌊x⌋

/-- The magnitude of a quantised component, from the scaled magnitude `y ≥ 0` (R261). Under exact reals it is the floor;
otherwise within rounding distance of a positive integer, where the floor steps, either outcome may result. 0 is no
threshold: nothing lies below it. The result stays in `0..127` in any arithmetic (R32, R83, R261). -/
noncomputable def Numerics.quantFloor (num : Numerics) (y : ℝ) : ℤ :=
  match num with
  | .exactReals => ⌊y⌋
  | .rounded _ _ => min Config.qScale (if round y < 1 then ⌊y⌋ else num.floor .quantiser y)

end Sys2Proof

namespace Sys2Proof.Machine

/-! ### From exact definitions to plain data -/

/-- The truth value of a proposition. No program computes it and the kernel does not unfold it; it is decidability of
`p` and nothing else, so every proof may use it and none can learn more from it than `p` (log entry 3). -/
def decideExact (p : Prop) : Decidable p := decideExact p
  partial_fixpoint

/-- The datum that satisfies `P`. Used with `P := (· = x)` for an exact definition `x`. -/
def realize {α : Type} [Encodable α] (P : α → Prop) (h : ∃ x, P x) : α :=
  @Encodable.choose α P _ (fun x => decideExact (P x)) h

end Sys2Proof.Machine
end

