-- ==== Sys2Proof/Machine/Operands.lean ====
section
/-! DEFINITION. Every operand form that crosses the block's boundary: the CSR address map (spec/20_memory.md R61, R67),
the byte orders of the bus and the two ports (R62, R63, R66), the beats (spec/30_encoding.md R80, R82), and the command
of a transmit step (spec/45_frame_encoder.md R250). -/

namespace Sys2Proof.Machine

/-- The registers of the CSR space (R61). -/
inductive Csr where
  | id
  | ctrl
  | status
  | irqEn
  | cmd
  | txChannel
  | sampleCountLo
  | sampleCountHi
  | result
  | resultLen
  deriving DecidableEq, Repr, Inhabited

/-- The byte offset of a register (R61). -/
def Csr.offset : Csr → Byte
  | .id => 0x00
  | .ctrl => 0x04
  | .status => 0x08
  | .irqEn => 0x0C
  | .cmd => 0x10
  | .txChannel => 0x14
  | .sampleCountLo => 0x18
  | .sampleCountHi => 0x1C
  | .result => 0x20
  | .resultLen => 0x24

/-- The registers in the order of the map (R61). -/
def Csr.all : List Csr :=
  [.id, .ctrl, .status, .irqEn, .cmd, .txChannel, .sampleCountLo, .sampleCountHi, .result, .resultLen]

/-- The register at a byte offset; none at a reserved one (R42, R61). -/
def csrAt (addr : Byte) : Option Csr := Csr.all.find? fun r => r.offset == addr

/-- A CSR access is legal when it moves 4 bytes at an offset that is a multiple of 4 (R67). -/
def legalAccess (addr : Byte) (size : Nat) : Bool := size == 4 && addr.toNat % 4 == 0

/-- The address of a register in the host's address space, `CSR_BASE` being the platform's (R61, R329). -/
def Csr.hostAddress (p : Params) (r : Csr) : Nat := p.csrBase + r.offset.toNat

/-- The sample of a beat: `RE` in bits 31:0, `IM` in bits 63:32 (R80). -/
def PortBeat.sample (b : PortBeat) : Sample := ⟨b.data.extractLsb' 0 32, b.data.extractLsb' 32 32⟩

/-- A beat's data from its eight bytes: `RE` then `IM`, each least significant byte first (R63). -/
def beatDataOfBytes (bs : List Byte) : BitVec 64 :=
  wordOfBusBytes (bs.drop 4) ++ wordOfBusBytes bs

/-- `data[15:0]` of a TX beat: `I` in bits 7:0, `Q` in bits 15:8 (R82). -/
def TxBeat.data (b : TxBeat) : BitVec 16 := b.q ++ b.i

/-- The two bytes of a TX beat, `I` then `Q` (R66). -/
def TxBeat.bytes (b : TxBeat) : List Byte := [b.i, b.q]

/-- The command of a transmit step (R250): `S(c)` or `P(a, b, c)`. -/
inductive TxCommand where
  | short (c : Byte)
  | property (a b c : Byte)
  deriving DecidableEq, Repr, Inhabited

/-- `Frame(ch, cmd)` (R251 to R254). -/
def TxCommand.frame (ch : Nat) : TxCommand → Bits
  | .short c => frameShortBits ch c
  | .property a b c => framePropBits ch a b c

end Sys2Proof.Machine
end

