-- ==== Sys2Proof/Machine/Flags.lean ====
section
/-! DEFINITION. Every flag computation: `STATUS` and `irq` (spec/10_state.md R35, R43), the record's marker flags
(spec/44_frame_decoder.md R217 to R220) and the value decoders with their `BAD_VALUE` flag (R224 to R233). -/

namespace Sys2Proof.Machine

/-! ### STATUS and the interrupt line -/

/-- Bit `n` of a word, when set. -/
def bitIf (b : Bool) (n : Nat) : Word := if b then (1 : Word) <<< n else 0

/-- `RES_AVAIL`, live (R35). -/
def State.resAvail (s : State) : Bool := !s.rfifo.isEmpty
/-- `RES_FULL`, live (R35). -/
def State.resFull (p : Params) (s : State) : Bool := s.rfifo.length == p.rfifoDepth
/-- `TX_BUSY`, live (R35). -/
def State.txBusy (s : State) : Bool := s.txPhase == .stream

/-- `StatusValue()` of R284. -/
def State.statusValue (p : Params) (s : State) : Word :=
  bitIf s.resAvail 0 ||| bitIf (s.resFull p) 1 ||| bitIf s.txBusy 2 ||| bitIf s.txDone 3 |||
    bitIf s.cmdErr 4 ||| bitIf s.ovf 5 ||| bitIf s.eosFatal 6 ||| bitIf s.txFatal 7

/-- The bits of `IRQ_EN` that exist: 0, 3, 4, 5, 6 and 7 (R36, R285). -/
def irqMask : Word := 0x000000F9

/-- `irq` (R43, R323): some enabled source is pending. -/
def State.irq (p : Params) (s : State) : Bool := s.statusValue p &&& s.irqEn &&& irqMask != 0

/-! ### Marker flags (R217 to R220) -/

/-- `PRIMARY`: bits 7:6 of the command byte are 00 (R217). -/
def isPrimary (cmd : Byte) : Bool := cmd.extractLsb' 6 2 == 0

/-- `UNK_CMD`: the byte is no key of `SHORT_CMD_TABLE` (R218). -/
def unknownCommand (p : Params) (cmd : Byte) : Bool := (p.shortCmdTable cmd).isNone

/-- The class of a target byte (R219). -/
inductive TargetClass where
  | broadcast
  | group (letter : Char)
  | unknown
  deriving DecidableEq, Repr, Inhabited

/-- The class of a target byte (R219): `0x50` is all units, `0x0A` to `0x0E` are the groups A to E. -/
def targetClass (tg : Byte) : TargetClass :=
  if tg = 0x50 then .broadcast
  else if tg = 0x0A then .group 'A'
  else if tg = 0x0B then .group 'B'
  else if tg = 0x0C then .group 'C'
  else if tg = 0x0D then .group 'D'
  else if tg = 0x0E then .group 'E'
  else .unknown

/-- `UNK_TARGET` (R219). -/
def unknownTarget (tg : Byte) : Bool := targetClass tg == .unknown

/-- `UNK_PROP`: the id is no key of `PROPERTY_TABLE` (R220). -/
def unknownProperty (p : Params) (pid : Byte) : Bool := (p.propertyTable pid).isNone

/-! ### Value decoders (R221, R224 to R233) -/

/-- The decoder of a property: none when the property is unknown or has none (R221). -/
def propertyDecoder (p : Params) (pid : Byte) : Option ValueDecoder := (p.propertyTable pid).bind (·.decoder)

/-- `DEC_KIND` (R224). -/
def decKind : Option ValueDecoder → BitVec 3
  | none => 0
  | some .raw => 1
  | some .integer => 2
  | some .boolean => 3
  | some (.enumByIndex _) => 4
  | some (.unitSuffix _) => 5
  | some .stops => 6

/-- A stops value in tenths (R231): negated, then floor division and floor modulo by ten. -/
def stopsBase (x : Byte) : Int := (-(x.toNat : Int)) / 10
/-- The fraction of a stops value, in tenths (R231). -/
def stopsFrac (x : Byte) : Int := (-(x.toNat : Int)) % 10

/-- `DECODED` of a stops value below 100 (R231, R233): `x`, `frac`, `base` as 8 bits, and OFF = 0. -/
def stopsWord (x : Byte) : Word := x ++ BitVec.ofInt 8 (stopsFrac x) ++ BitVec.ofInt 8 (stopsBase x) ++ (0 : Byte)

/-- `Decode(dec, x)`: the decoder's word, none when it rejects the value (R225 to R231). -/
def decodeValue : Option ValueDecoder → Byte → Option Word
  | none, x => some (x.zeroExtend 32)
  | some .raw, x => some (x.zeroExtend 32)
  | some .integer, x => some (x.zeroExtend 32)
  | some .boolean, x => if x = 0 then some 0 else if x = 1 then some 1 else none
  | some (.enumByIndex names), x => if x.toNat < names.length then some (x.zeroExtend 32) else none
  | some (.unitSuffix _), x => some (x.zeroExtend 32)
  | some .stops, x => if x = 0xFF then some 1 else if x.toNat ≥ 100 then none else some (stopsWord x)

/-- `BAD_VALUE`: the property's decoder rejects the value (R221). -/
def badValue (p : Params) (pid x : Byte) : Bool := (decodeValue (propertyDecoder p pid) x).isNone

/-- `DECODED`: 0 when the value is rejected (R233). -/
def decodedWord (p : Params) (pid x : Byte) : Word := (decodeValue (propertyDecoder p pid) x).getD 0

end Sys2Proof.Machine
end

