-- ==== Sys2Proof/Machine/Ops.lean ====
section
/-! DEFINITION. The named operations on the state. The block has no addressable memory (spec/20_memory.md R60): its
stores are registers, the window and queues, and these operations are all that reads or writes them beside the stream
buffer's. Raising an event (spec/60_exceptions.md R310, R314 to R317) is ONE shared operation; removing its cause
(R322), the nearest thing the block has to a return, stands beside it. -/

namespace Sys2Proof.Machine

/-! ### Events -/

/-- The events with a sticky `STATUS` bit (R35, R310). -/
inductive Event where
  /-- The sink took a frame's last beat (R262). -/
  | txDone
  /-- A command word was dropped (R317). -/
  | cmdErr
  /-- A burst overflowed the window (R316). -/
  | ovf
  /-- End of stream (R314): the receive path halts. -/
  | eosFatal
  /-- Peak overflow in the modulator (R315): the transmit path halts. -/
  | txFatal
  deriving DecidableEq, Repr, Inhabited

/-- Raise an event: set its sticky bit and, for a fatal condition, halt the path it names (R314, R315). Nothing else is
saved, masked or jumped to (R321). -/
def State.raise (e : Event) (s : State) : State :=
  match e with
  | .txDone => { s with txDone := true }
  | .cmdErr => { s with cmdErr := true }
  | .ovf => { s with ovf := true }
  | .eosFatal => { s with eosFatal := true, rxPhase := .halted }
  | .txFatal => { s with txFatal := true, txPhase := .halted }

/-- `StatusWrite(v)` (R284): a 1 in bit 3, 4 or 5 clears that event; every other bit is ignored. -/
def State.acknowledge (v : Word) (s : State) : State :=
  { s with
    txDone := s.txDone && !v.getLsbD 3
    cmdErr := s.cmdErr && !v.getLsbD 4
    ovf := s.ovf && !v.getLsbD 5 }

/-! ### Reset (R340, R341) -/

/-- Every piece of the block's state at its reset value. What waits outside the block, and what it has answered, is not
the block's: it stays (log entry 7). -/
def State.blockReset (s : State) : State :=
  { State.reset with
    turns := s.turns
    busIn := s.busIn
    portIn := s.portIn
    eosIn := s.eosIn
    busOut := s.busOut
    sinkOut := s.sinkOut
    recordsOut := s.recordsOut }

/-! ### Bus replies -/

/-- Answer the host on the bus. -/
def State.reply (r : BusReply) (s : State) : State := { s with busOut := s.busOut ++ [r] }

/-- The answer to a legal write. -/
def BusReply.ack : BusReply := ⟨false, 0⟩
/-- The bus error response; a read returns 0 with it (R294, R318). -/
def BusReply.busError : BusReply := ⟨true, 0⟩

/-! ### The result FIFO (R29, R30, R288) -/

/-- Put a record into the result FIFO; the burst leaves the decoder, and the port opens again when no burst is pending
(R130). -/
def State.deliver (r : Record) (s : State) : State :=
  { s with
    rfifo := s.rfifo ++ [r]
    inflight := none
    rxPhase := if s.rxPhase = .process ∧ s.pending = [] then .accept else s.rxPhase }

/-- `ResultLen()` (R288): the words left of the head record. -/
def State.resultLen (s : State) : Nat :=
  match s.rfifo with
  | [] => 0
  | r :: _ => r.length - s.rdIdx

/-- `ResultPop()` (R288): the next word of the head record, which leaves the FIFO with its last word and then counts as
read (R355). -/
def State.resultPop (s : State) : Word × State :=
  match s.rfifo with
  | [] => (0, s)
  | r :: rest =>
    (r.getD s.rdIdx 0,
      if r.length ≤ s.rdIdx + 1 then { s with rfifo := rest, rdIdx := 0, recordsOut := s.recordsOut ++ [r] }
      else { s with rdIdx := s.rdIdx + 1 })

/-! ### The TX output queue (R32, R262) -/

/-- TAKE BEAT (R262): the sink takes the head beat; a frame's last beat ends the stream and sets `TX_DONE`. -/
def State.takeBeat (s : State) : State :=
  match s.txOut with
  | [] => s
  | b :: rest =>
    let s := { s with txOut := rest, sinkOut := s.sinkOut ++ [b] }
    if b.last then { s with txPhase := .idle }.raise .txDone else s

end Sys2Proof.Machine
end

