-- ==== Sys2Proof/Machine/FrameEncoder.lean ====
section
/-! DEFINITION. The FENC unit: modulation, peak check, quantisation and the transmit step, and the meanings of `TXS` and
`TXP` (spec/45_frame_encoder.md R250 to R261, spec/46_control.md R289, R291, R292). -/

namespace Sys2Proof.Machine

/-- SYMBOLS (R255): bit 0 is +1, bit 1 is −1. -/
noncomputable def symbols (fr : Bits) : List ℝ := fr.map fun b => if b then -1 else 1

/-- UPSAMPLING (R255): each symbol held for 8 samples. -/
def upsample {α : Type} (a : List α) : List α := a.flatMap (List.replicate Config.txUp)

/-- GAUSSIAN PULSE SHAPING (R256). -/
noncomputable def shaped (p : Params) (fr : Bits) : List ℝ := conv (upsample (symbols fr)) (List.ofFn p.gaussTaps)

/-- PHASE INTEGRATION (R257): an inclusive running sum from phase 0. -/
noncomputable def phases (p : Params) (g : List ℝ) : List ℝ :=
  (List.range g.length).map fun n => 2 * Real.pi * (p.fDevTx / Config.fsTx) * (g.take (n + 1)).sum

/-- EXPONENTIATION (R258). -/
noncomputable def envelope (ph : List ℝ) : List ℂ := ph.map fun x : ℝ => Complex.exp (Complex.I * x)

/-- CHANNEL FILTER (R259) on the whole chain of R250: the filtered signal `c` of a frame. -/
noncomputable def filtered (p : Params) (fr : Bits) : List ℂ :=
  conv (envelope (phases p (shaped p fr))) (List.ofFn p.lpfTaps)

/-- PEAK CHECK (R260): no component beyond 1. -/
def peakOk (num : Numerics) (c : List ℂ) : Prop :=
  ∀ w ∈ c, ¬ num.lt .peak 1 |w.re| ∧ ¬ num.lt .peak 1 |w.im|

/-- The signed integer of a component (R261): `127·v` toward zero, or to the nearest with halves away from zero. -/
noncomputable def quantise (p : Params) (v : ℝ) : ℤ :=
  let x := Config.qScale * v
  let half : ℝ := match p.quantMode with | .trunc => 0 | .nearest => 1 / 2
  if 0 ≤ x then p.numerics.quantFloor (x + half) else -p.numerics.quantFloor (-x + half)

open Classical in
/-- The beats' components of a frame (R250): none when the peak check fails. -/
noncomputable def modulation (p : Params) (fr : Bits) : Option (List (ℤ × ℤ)) :=
  if peakOk p.numerics (filtered p fr) then
    some ((filtered p fr).map fun w => (quantise p w.re, quantise p w.im))
  else none

/-- The frame's components as plain data. -/
def modulate (p : Params) (fr : Bits) : Option (List (ℤ × ℤ)) :=
  realize (fun o => o = modulation p fr) ⟨_, rfl⟩

/-- The beats of a frame (R250): two's complement, `LAST` on the final one (R82). -/
def beatsOf (v : List (ℤ × ℤ)) : List TxBeat :=
  v.mapIdx fun n w => ⟨BitVec.ofInt 8 w.1, BitVec.ofInt 8 w.2, n + 1 == v.length⟩

/-- TRANSMIT (R250): queue the frame's beats, or raise the transmit fault with nothing queued. -/
def State.transmit (p : Params) (cmd : TxCommand) (s : State) : State :=
  match modulate p (cmd.frame s.txChannel.toNat) with
  | none => s.raise .txFatal
  | some v => { s with txOut := beatsOf v, txPhase := .stream }

/-- `TxCheck()` (R289): the transmitter is idle and the channel is a wireless ID. -/
def State.txReady (s : State) : Bool := s.txPhase == .idle && decide (s.txChannel.toNat < Config.nIds)

/-- A transmit command (R289): sent when `TxCheck` passes, dropped with `CMD_ERR` otherwise. -/
def State.transmitChecked (p : Params) (cmd : TxCommand) (s : State) : State :=
  if s.txReady then s.transmit p cmd else s.raise .cmdErr

/-- `TXS` (R291). -/
def execTxs (c : Byte) (s : State) : Result := .next (s.transmitChecked Config.params (.short c))

/-- `TXP` (R292). -/
def execTxp (a b c : Byte) (s : State) : Result := .next (s.transmitChecked Config.params (.property a b c))

end Sys2Proof.Machine
end

