-- ==== Sys2Proof/Machine/Control.lean ====
section
/-! DEFINITION. The CTL unit: CSR reads and writes, the command register and the meaning of `NOP`
(spec/46_control.md R280 to R294). -/

namespace Sys2Proof.Machine

/-- `NOP` (R290): no effect, in every phase, whatever its operand bits. -/
def execNop (_operands : BitVec 24) (s : State) : Result := .next s

/-- COMMAND DECODE (R289): run the command, or drop the word with `CMD_ERR`. `run` is the meaning of an instruction. -/
def command (run : Instr → State → Result) (w : Word) (s : State) : Result :=
  match decodeCommand w with
  | .ok i => run i s
  | .error _ => .next (s.raise .cmdErr)

/-- CSR READ of a register (R280, R282 to R288): the value, and the state its side effect leaves. -/
def csrRead (p : Params) (r : Csr) (s : State) : Word × State :=
  match r with
  | .id => (Config.idWord, s)
  | .ctrl => (bitIf s.rxEn 0, s)
  | .status => (s.statusValue p, s)
  | .irqEn => (s.irqEn, s)
  | .cmd => (0, s)
  | .txChannel => (s.txChannel.zeroExtend 32, s)
  | .sampleCountLo => (s.count.extractLsb' 0 32, { s with scShadow := s.count.extractLsb' 32 32 })
  | .sampleCountHi => (s.scShadow, s)
  | .result => s.resultPop
  | .resultLen => (BitVec.ofNat 32 s.resultLen, s)

/-- `CtrlWrite(v)` (R283): the reset wins over `RX_EN`. -/
def State.ctrlWrite (v : Word) (s : State) : State :=
  if v.getLsbD 1 then s.blockReset else { s with rxEn := v.getLsbD 0 }

/-- CSR WRITE of a register (R281, R283 to R286, R289). -/
def csrWrite (run : Instr → State → Result) (r : Csr) (v : Word) (s : State) : Result :=
  match r with
  | .ctrl => .next (s.ctrlWrite v)
  | .status => .next (s.acknowledge v)
  | .irqEn => .next { s with irqEn := v &&& irqMask }
  | .cmd => command run v s
  | .txChannel => .next { s with txChannel := v.extractLsb' 0 7 }
  | .id | .sampleCountLo | .sampleCountHi | .result | .resultLen => .next s

/-- A bus access (R280, R281, R293, R294): an illegal one gets the bus error and no effect, a reserved offset reads 0
and ignores writes. The answer to a write precedes its effect, which no rule can tell apart (R72). -/
def busAccess (p : Params) (run : Instr → State → Result) (op : BusOp) (s : State) : Result :=
  match op with
  | .read addr size =>
    if legalAccess addr size then
      match csrAt addr with
      | none => .next (s.reply ⟨false, 0⟩)
      | some r => .next ((csrRead p r s).2.reply ⟨false, (csrRead p r s).1⟩)
    else .next (s.reply .busError)
  | .write addr size v =>
    if legalAccess addr size then
      match csrAt addr with
      | none => .next (s.reply .ack)
      | some r => csrWrite run r v (s.reply .ack)
    else .next (s.reply .busError)

/-- The host's turn on the bus: its next access takes effect (R72). -/
def busTurn (p : Params) (run : Instr → State → Result) (s : State) : Result :=
  match s.busIn with
  | [] => .next s
  | op :: rest => busAccess p run op { s with busIn := rest }

end Sys2Proof.Machine
end

