-- ==== Sys2Proof/Machine/Discriminator.lean ====
section
/-! DEFINITION. The FD unit: the frequency discriminator (spec/42_discriminator.md R170, R171). -/

namespace Sys2Proof.Machine

/-- The frequency deviation between two samples, in Hz: `arg(b · conj(a)) · FS_RX / 2π` (R170). -/
noncomputable def instFreq (fs : ℝ) (a b : ℂ) : ℝ := Complex.arg (b * starRingEnd ℂ a) * fs / (2 * Real.pi)

/-- FM DEMODULATE (R170): one value per pair of neighbouring samples. -/
noncomputable def discriminate (fs : ℝ) (x : List ℂ) : List ℝ := x.zipWith (instFreq fs) x.tail

end Sys2Proof.Machine
end

