-- ==== Sys2Proof/Machine/PowerDetector.lean ====
section
/-! DEFINITION. The PD unit: power, level, re-crop, interior and flatness (spec/41_power_detector.md R150 to R155). -/

namespace Sys2Proof.Machine

/-- PER-SAMPLE POWER (R150). -/
noncomputable def powers (s : List ℂ) : List ℝ := s.map dB

/-- POWER LEVEL (R151). -/
noncomputable def level (s : List ℂ) : ℝ := median (powers s)

/-- NORMALISED POWER (R152). -/
noncomputable def deviations (s : List ℂ) : List ℝ := (powers s).map (· - level s)

open Classical in
/-- The indices whose normalised power is above −20 dB (R153), rising. -/
noncomputable def croppedIndices (num : Numerics) (s : List ℂ) : List Nat :=
  (List.range s.length).filter fun n => decide (num.lt .crop (-20) ((deviations s).getD n 0))

/-- RE-CROP (R153): `s0`, the first index above −20 dB. -/
noncomputable def cropStart (num : Numerics) (s : List ℂ) : Nat := (croppedIndices num s).headD 0

/-- RE-CROP (R153): `e0`, the last index above −20 dB. -/
noncomputable def cropEnd (num : Numerics) (s : List ℂ) : Nat := (croppedIndices num s).getLastD 0

/-- INTERIOR (R154): `hi − lo + 1 < 2`. -/
def interiorTooShort (s0 e0 : Nat) : Prop := (e0 : Int) - s0 - 2 * Config.guardBand + 1 < 2

/-- INTERIOR (R154): the values from `lo = s0 + GUARD` to `hi = e0 − GUARD`. -/
def interiorOf {α : Type} (s0 e0 : Nat) (v : List α) : List α :=
  (v.drop (s0 + Config.guardBand)).take (e0 + 1 - s0 - 2 * Config.guardBand)

/-- FLATNESS CHECK (R155): every interior deviation below 3 dB, their standard deviation below 0.75 dB. -/
def flat (num : Numerics) (pI : List ℝ) : Prop :=
  (∀ x ∈ pI, num.lt .flatMax |x| 3) ∧ num.lt .flatStd (pstd pI) (3 / 4)

end Sys2Proof.Machine
end

