-- ==== Sys2Proof/Machine/TimingRecovery.lean ====
section
/-! DEFINITION. The TR unit and the whole demodulator (spec/43_timing_recovery.md R180 to R190). -/

namespace Sys2Proof.Machine

open Complex in
/-- CLOCK CORRELATION (R181). -/
noncomputable def clockCorrelation (fs : ℝ) (f : List ℝ) : ℂ :=
  (1 / (f.length : ℂ)) * ∑ i ∈ Finset.range f.length,
    ((|f.getD i 0| : ℝ) : ℂ) * exp (-I * 2 * Real.pi * (Config.symbolRate : ℂ) * i / fs)

/-- SYMBOL PERIOD (R180). -/
noncomputable def symbolPeriod (fs : ℝ) : ℝ := fs / Config.symbolRate

/-- LOCK CHECK (R182): within 40 kHz ± 10 kHz, bounds excluded. -/
noncomputable def locked (num : Numerics) (c : ℂ) : Prop := num.lt .lock |‖c‖ - 40000| 10000

/-- SYMBOL OFFSET (R183). -/
noncomputable def symbolOffset (t : ℝ) (c : ℂ) : ℝ := rmod (-(Complex.arg c) * t / (2 * Real.pi)) t

open Complex in
/-- The discrete Fourier transform of R184. -/
noncomputable def dft (f : List ℝ) (k : Nat) : ℂ :=
  ∑ i ∈ Finset.range f.length, (f.getD i 0 : ℂ) * exp (-I * 2 * Real.pi * k * i / (f.length : ℂ))

/-- The zero-padded spectrum of R184, with an even length's Nyquist bin split in two halves. `L = 8·M`. -/
noncomputable def paddedSpectrum (f : List ℝ) (k : Nat) : ℂ :=
  let m := f.length
  let l := Config.interp * m
  if k = 0 then dft f 0
  else if k ≤ (m - 1) / 2 then dft f k
  else if l - k ≤ (m - 1) / 2 then dft f (m - (l - k))
  else if m % 2 = 0 ∧ (k = m / 2 ∨ k = l - m / 2) then dft f (m / 2) / 2
  else 0

open Complex in
/-- 8x INTERPOLATION (R184): `y[m]`. The sum is real; its real part is taken. -/
noncomputable def interpolated (f : List ℝ) (m : Nat) : ℝ :=
  ((1 / (f.length : ℂ)) * ∑ k ∈ Finset.range (Config.interp * f.length),
    paddedSpectrum f k * exp (I * 2 * Real.pi * k * m / ((Config.interp * f.length : Nat) : ℂ))).re

/-- `q_k = rnd(8·(n0 + k·T))` (R186); `rnd` rounds halves up. -/
noncomputable def gridIndex (num : Numerics) (n0 t : ℝ) (k : Nat) : ℤ := num.floor .grid (8 * (n0 + k * t) + 1 / 2)

open Classical in
/-- SYMBOL SAMPLING (R186): the grid indices inside `y[0..L−1]`. `q_k ≥ k` for `T ≥ 2`, so `k < L` names them all. -/
noncomputable def gridIndices (num : Numerics) (n0 t : ℝ) (l : Nat) : List Nat :=
  (((List.range l).map (gridIndex num n0 t)).filter fun q : ℤ => decide (q < (l : ℤ))).map Int.toNat

/-- SYMBOL SAMPLING (R186): the sampled values. -/
noncomputable def symbolValues (num : Numerics) (fs : ℝ) (f : List ℝ) : List ℝ :=
  (gridIndices num (symbolOffset (symbolPeriod fs) (clockCorrelation fs f)) (symbolPeriod fs)
    (Config.interp * f.length)).map (interpolated f)

/-- MODULATION-DEPTH CHECK (R187) on the sampled values. -/
noncomputable def depthValid (num : Numerics) (v : List ℝ) : Prop :=
  v ≠ [] ∧ num.lt .depthMean |mean (v.map abs) - 150000| 30000 ∧ num.lt .depthStd (pstd (v.map abs)) 75000

open Classical in
/-- BIT DECISION (R188): 1 for a negative value. -/
noncomputable def sliceBits (num : Numerics) (v : List ℝ) : Bits := v.map fun x => decide (num.lt .slicer x 0)

/-- LEADING-BIT COMPENSATION (R189): the bit string and `PREPENDED`. -/
def compensate (b : Bits) : Bits × Bool :=
  if b.take 8 = [false, true, false, true, false, true, false, true] then (true :: b, true) else (b, false)

/-- What the slicer gives for a burst: its bits, or the first check that fails. -/
inductive SlicerOutcome where
  | failed (code : BurstFail)
  | bits (b : Bits)
  deriving DecidableEq, Repr, Inhabited, Encodable

open Classical in
/-- The checks and steps of R190, from the power detector to the bit decision, in their order. -/
noncomputable def sliceBurst (p : Params) (s : List ℂ) : SlicerOutcome :=
  let s0 := cropStart p.numerics s
  let e0 := cropEnd p.numerics s
  let f := discriminate p.fsRx (interiorOf s0 e0 s)
  let v := symbolValues p.numerics p.fsRx f
  if interiorTooShort s0 e0 then .failed .powerProfileInvalid
  else if ¬ flat p.numerics (interiorOf s0 e0 (deviations s)) then .failed .powerProfileInvalid
  else if ¬ locked p.numerics (clockCorrelation p.fsRx f) then .failed .clockLockFailed
  else if ¬ depthValid p.numerics v then .failed .modulationDepthInvalid
  else .bits (sliceBits p.numerics v)

/-- The result of `Demod` (R190). `power` is `POWER_DB`, the level as binary32 (R94). -/
inductive DemodResult where
  | fail (code : BurstFail) (power : Word)
  | ok (power : Word) (bits : Bits) (prepended : Bool)
  deriving DecidableEq, Repr, Inhabited

/-- `POWER_DB` of a burst (R94, R151). -/
def powerWord (s : List Sample) : Word :=
  BitVec.ofNat 32 (realize (fun n => n = (roundB32 (level (s.map Sample.toComplex))).toNat) ⟨_, rfl⟩)

/-- The slicer's outcome for a burst of samples, as plain data. -/
def slicerOutcome (p : Params) (s : List Sample) : SlicerOutcome :=
  realize (fun o => o = sliceBurst p (s.map Sample.toComplex)) ⟨_, rfl⟩

/-- DEMOD (R190). -/
def demodulate (p : Params) (s : List Sample) : DemodResult :=
  match slicerOutcome p s with
  | .failed code => .fail code (powerWord s)
  | .bits b => .ok (powerWord s) (compensate b).1 (compensate b).2

end Sys2Proof.Machine
end

