-- ==== Sys2Proof/Machine/FrameDecoder.lean ====
section
/-! DEFINITION. The FDEC unit: result records (spec/30_encoding.md R92 to R97), the meanings of `FRAME_SHORT` and
`FRAME_PROP` (spec/44_frame_decoder.md R216 to R221, R234), and PROCESS (spec/40_stream_buffer.md R130, R131). -/

namespace Sys2Proof.Machine

/-! ### The result record -/

/-- The status code of a failure (R97, R311). -/
def statusCode : BurstFail → Byte
  | .powerProfileInvalid => 1
  | .clockLockFailed => 2
  | .modulationDepthInvalid => 3
  | .frameTruncated => 4
  | .frameSyncMismatch => 5
  | .wirelessIdMismatch => 6
  | .unknownWirelessId => 7
  | .unsupportedFrameType => 8
  | .trailingBitMismatch => 9
  | .trailingGarbage => 10

/-- The message fields of a record: words 0 to 2 but for `STATUS` and `PREPENDED` (R92, R93). -/
structure Message where
  kind : Byte
  wid : Byte
  isPrimary : Bool := false
  unkCmd : Bool := false
  unkTarget : Bool := false
  unkProp : Bool := false
  badValue : Bool := false
  b0 : Byte := 0
  b1 : Byte := 0
  b2 : Byte := 0
  decKind : BitVec 3 := 0
  decoded : Word := 0
  deriving DecidableEq, Repr, Inhabited

/-- A failure carries no message: `KIND = 0`, `WID = 0xFF`, every flag and word 0 (R92, R97). -/
def Message.absent : Message := { kind := 0, wid := 0xFF }

/-- The message of a short-command frame (R216 to R218). -/
def Message.ofShort (p : Params) (wid cmd : Byte) : Message :=
  { kind := 1, wid := wid, isPrimary := Machine.isPrimary cmd, unkCmd := unknownCommand p cmd, b0 := cmd }

/-- The message of a property-command frame (R219 to R221). -/
def Message.ofProperty (p : Params) (wid tg pid x : Byte) : Message :=
  { kind := 2, wid := wid, unkTarget := unknownTarget tg, unkProp := unknownProperty p pid,
    badValue := Machine.badValue p pid x, b0 := tg, b1 := pid, b2 := x,
    decKind := Machine.decKind (propertyDecoder p pid), decoded := decodedWord p pid x }

/-- Word 0 (R92). -/
def word0 (status : Byte) (m : Message) (prepended : Bool) : Word :=
  (0 : BitVec 2) ++ BitVec.ofBool prepended ++ BitVec.ofBool m.badValue ++ BitVec.ofBool m.unkProp ++
    BitVec.ofBool m.unkTarget ++ BitVec.ofBool m.unkCmd ++ BitVec.ofBool m.isPrimary ++ m.wid ++ m.kind ++ status

/-- Word 1 (R93). -/
def word1 (m : Message) : Word := (0 : BitVec 5) ++ m.decKind ++ m.b2 ++ m.b1 ++ m.b0

/-- `LENGTH` (R94). The field has 32 bits; for a longer burst its value is free (log entry 6). -/
def lengthWord (n : Nat) : Word := if n < 2 ^ 32 then BitVec.ofNat 32 n else Config.longLength n

/-- `NBITS` (R95). -/
def nbits (b : Bits) : Nat := min b.length 0xFFFF

/-- `NWORDS` (R95): `ceil(min(NBITS, 128) / 32)`. -/
def nwords (b : Bits) : Nat := (min (nbits b) Config.recBitsMax + 31) / 32

/-- Word 9 (R95). -/
def word9 (b : Bits) : Word := BitVec.ofNat 16 (nwords b) ++ BitVec.ofNat 16 (nbits b)

/-- Bit word `k` (R95): bit `i` of the bit string is bit `31 − (i mod 32)` of word `i div 32`; unused bits are 0. -/
def bitWord (b : Bits) (k : Nat) : Word :=
  BitVec.ofBoolListBE ((List.range 32).map fun i => (b.take Config.recBitsMax).getD (32 * k + i) false)

/-- A result record (R92 to R96). -/
def recordOf (status : Byte) (m : Message) (r : Reception) : Record :=
  [word0 status m r.prepended, word1 m, m.decoded,
    r.absStart.extractLsb' 0 32, r.absStart.extractLsb' 32 32, lengthWord r.length,
    r.gap.extractLsb' 0 32, r.gap.extractLsb' 32 32, r.power, word9 r.bits] ++
    (List.range (nwords r.bits)).map (bitWord r.bits)

/-- The record of a failed burst (R97). -/
def failureRecord (code : BurstFail) (r : Reception) : Record := recordOf (statusCode code) .absent r

/-- The record of a decoded frame (R234). -/
def messageRecord (m : Message) (r : Reception) : Record := recordOf 0 m r

/-! ### The meanings of the frame instructions -/

/-- Deliver the record of the frame in the decoder, with the message its fields give (R130, R234). -/
def deliverMessage (m : Message) (s : State) : Result :=
  match s.inflight with
  | none => .fault .noFrameInDecoder
  | some r => .next (s.deliver (messageRecord m r))

/-- `FRAME_SHORT` (R216 to R218). -/
def execFrameShort (wid cmd : Byte) (s : State) : Result := deliverMessage (.ofShort Config.params wid cmd) s

/-- `FRAME_PROP` (R219 to R221). -/
def execFrameProp (wid target prop value : Byte) (s : State) : Result :=
  deliverMessage (.ofProperty Config.params wid target prop value) s

/-! ### PROCESS -/

/-- PARSE of the burst in the decoder (R234): run the frame its bits hold, or deliver the record of the first check
that fails. `run` is the meaning of an instruction. -/
def parseFrame (run : Instr → State → Result) (r : Reception) (s : State) : Result :=
  match decodeFrame r.bits with
  | .ok i => run i s
  | .error code => .next (s.deliver (failureRecord code r))

/-- The context of a burst (R94, R131): its gap is counted from the end of the last recorded burst. -/
def receive (s : State) (b : Burst) (power : Word) (bits : Bits) (prepended : Bool) : Reception :=
  ⟨b.absStart, b.samples.length, b.absStart - s.prevEnd, power, bits, prepended⟩

/-- The state after a burst has left `pending` (R130). -/
def State.popBurst (b : Burst) (rest : List Burst) (s : State) : State :=
  { s with pending := rest, prevEnd := b.absStart + BitVec.ofNat 64 b.samples.length }

/-- The RX agent's step is enabled (R130). -/
def State.rxEnabled (p : Params) (s : State) : Bool :=
  s.rxPhase == .process && decide (s.rfifo.length < p.rfifoDepth) && !s.pending.isEmpty

/-- PROCESS (R130): one pending burst becomes one record. When the step is not enabled the agent waits. -/
def process (p : Params) (run : Instr → State → Result) (s : State) : Result :=
  match s.pending with
  | [] => .next s
  | b :: rest =>
    if s.rxEnabled p then
      match demodulate p b.samples with
      | .fail code power => .next ((s.popBurst b rest).deliver (failureRecord code (receive s b power [] false)))
      | .ok power bits prepended =>
        parseFrame run (receive s b power bits prepended)
          { s.popBurst b rest with inflight := some (receive s b power bits prepended) }
    else .next s

end Sys2Proof.Machine
end

