-- ==== Sys2Proof/Machine/StreamBuffer.lean ====
section
/-! DEFINITION. The SB unit: sample acceptance, threshold test, scan, compaction, overflow, discard mode and end of
stream (spec/40_stream_buffer.md R121 to R129). -/

namespace Sys2Proof.Machine

/-- THRESHOLD TEST (R122): `|z|² > 1/1000`, on binary32 samples an exact test on integers. -/
def above (p : Params) (z : Sample) : Bool :=
  match p.numerics with
  | .exactReals => decide (2 ^ 149 * 2 ^ 149 < 1000 * z.normSqFixed)
  | .rounded err pick =>
    @decide (Numerics.lt (.rounded err pick) .detector (1 / 1000) (Complex.normSq z.toComplex)) (decideExact _)

/-- The edges of a window (R124), from index `i` on with the burst open from `start`, if one is: the complete bursts
`[start, end)`, and the burst still open at the end. -/
def edges (p : Params) : Nat → Option Nat → List Sample → List (Nat × Nat) × Option Nat
  | _, start, [] => ([], start)
  | i, start, z :: zs =>
    if above p z then edges p (i + 1) (some (start.getD i)) zs
    else
      match start with
      | none => edges p (i + 1) none zs
      | some a => ((a, i) :: (edges p (i + 1) none zs).1, (edges p (i + 1) none zs).2)

/-- MINIMUM LENGTH (R125). -/
def longEnough (b : Nat × Nat) : Bool := decide (Config.minBurst ≤ b.2 - b.1)

/-- The queue entry of a burst `[start, end)` (R124). -/
def burstOf (s : State) (b : Nat × Nat) : Burst :=
  ⟨s.count + BitVec.ofNat 64 b.1, (s.win.drop b.1).take (b.2 - b.1)⟩

/-- The bursts a scan queues (R124, R125). -/
def foundBursts (p : Params) (s : State) : List Burst :=
  ((edges p 0 none s.win).1.filter longEnough).map (burstOf s)

/-- OVERFLOW (R127). -/
def State.overflow (p : Params) (s : State) : State :=
  { s with count := s.count + BitVec.ofNat 64 p.wCap, win := [], discard := true }.raise .ovf

/-- COMPACTION (R126): with a burst open keep the window from its rising edge on, with none open empty it. -/
def State.compact (p : Params) (start : Option Nat) (s : State) : State :=
  let keep := start.getD s.win.length
  if keep = 0 ∧ s.win.length = p.wCap then s.overflow p
  else { s with win := s.win.drop keep, count := s.count + BitVec.ofNat 64 keep }

/-- SCAN (R124). -/
def State.scan (p : Params) (s : State) : State :=
  let t := { s with pending := s.pending ++ foundBursts p s }.compact p (edges p 0 none s.win).2
  if t.pending = [] then t else { t with rxPhase := .process }

/-- SAMPLE BEAT (R121, R123, R128), for a port that is ready and a finite sample. -/
def State.beat (p : Params) (z : Sample) (last : Bool) (s : State) : State :=
  if s.discard && above p z then { s with count := s.count + 1 }
  else
    let t := { s with discard := false, win := s.win ++ [z] }
    if last || t.win.length == p.wCap then t.scan p else t

/-- The sample port takes a beat (R121). -/
def State.portReady (p : Params) (s : State) : Bool :=
  s.rxPhase == .accept && s.rxEn && (s.discard || decide (s.win.length < p.wCap))

/-- The sample port's turn: the beat offered is taken when the port is ready and waits otherwise. A non-finite beat has
no step (spec/93_implementation_defined.md I4). -/
def portTurn (p : Params) (s : State) : Result :=
  match s.portIn with
  | [] => .next s
  | b :: rest =>
    if s.portReady p then
      if b.sample.isFinite then .next ({ s with portIn := rest }.beat p b.sample b.last)
      else .refused .nonFiniteSample
    else .next s

/-- END-OF-STREAM EVENT (R129, R314): taken in ACCEPT, waiting in PROCESS, ignored in HALTED. -/
def eosTurn (s : State) : Result :=
  if s.eosIn = 0 then .next s
  else
    match s.rxPhase with
    | .accept => .next ({ s with eosIn := s.eosIn - 1 }.raise .eosFatal)
    | .process => .next s
    | .halted => .next { s with eosIn := s.eosIn - 1 }

end Sys2Proof.Machine
end

