-- ==== Sys2Proof/Machine/Sequencer.lean ====
section
/-! DEFINITION. The agents' turns (spec/10_state.md R20, spec/40_stream_buffer.md R120): what one atomic step is, with
the meaning of an instruction as an argument `run`. -/

namespace Sys2Proof.Machine

/-- One turn of an agent or of the host. A turn whose step is not enabled changes nothing. -/
def takeTurn (p : Params) (run : Instr → State → Result) (t : Turn) (s : State) : Result :=
  match t with
  | .bus => busTurn p run s
  | .port => portTurn p s
  | .eos => eosTurn s
  | .rx => process p run s
  | .drain => process p run s
  | .sink => .next s.takeBeat
  | .reset => .next s.blockReset

/-- Who moves when no turn waits (R353: every enabled step is eventually taken): the RX agent, else the next bus access,
else the beat offered, else the end-of-stream event, whose turn changes nothing when its step is not enabled. The sink
takes beats at its own wish only: a beat is available until taken. -/
def State.idleTurn (p : Params) (s : State) : Turn :=
  if s.rxEnabled p then .rx
  else if s.busIn ≠ [] then .bus
  else if s.portIn ≠ [] ∧ s.portReady p = true then .port
  else .eos

/-- Whose turn the next step takes: the first that waits, or the idle turn (log entry 1). -/
def State.nextTurn (p : Params) (s : State) : Turn := s.turns.headD (s.idleTurn p)

/-- One step. A burst in the decoder is parsed first; then the next turn is taken. `drain` stays first while the RX agent's
step is enabled. -/
def stepWith (p : Params) (run : Instr → State → Result) (s : State) : Result :=
  match s.inflight with
  | some r => parseFrame run r s
  | none =>
    match s.nextTurn p with
    | .drain => if s.rxEnabled p then process p run s else .next { s with turns := s.turns.tail }
    | t => takeTurn p run t { s with turns := s.turns.tail }

/-- A write of the word `w` to `CMD`. -/
def cmdWrite (w : Word) : BusOp := .write (Csr.offset .cmd) 4 w

/-- The burst that places a bit string in the decoder: a burst at index 0 with no samples. -/
def placedReception (b : Bits) : Reception := ⟨0, 0, 0, 0, b, false⟩

/-- The state whose next step runs the command `w`: the host's next bus access writes it to `CMD`, and it is the
host's turn. -/
def State.withCommand (s : State) (w : Word) : State :=
  { s with inflight := none, turns := .bus :: s.turns, busIn := cmdWrite w :: s.busIn }

/-- The state whose next step runs the frame `b`: its bits are in the frame decoder. -/
def State.withFrame (s : State) (b : Bits) : State :=
  { s with inflight := some (placedReception b) }

/-- A word of the opcode table placed where the next step fetches it (numbered as in `decodeTableWord`). -/
def State.withTableWord (s : State) (nbits w : Nat) : State :=
  if nbits = 8 then s.withFrame (frameOfTypeByte (BitVec.ofNat 8 w))
  else s.withCommand (wordOfBusBytes (tableWordBytes w))

end Sys2Proof.Machine
end

