-- ==== Sys2Proof/Machine/Dispatch.lean ====
section
/-! DEFINITION. The meaning of every instruction, one arm per constructor of `Instr`. -/

namespace Sys2Proof.Machine

def exec (i : Instr) (s : State) : Host.Outcome State Fault Refusal :=
  match i with
  | .nop operands => Sys2Proof.Machine.execNop operands s
  | .txs c => Sys2Proof.Machine.execTxs c s
  | .txp a b c => Sys2Proof.Machine.execTxp a b c s
  | .frameShort wid cmd => Sys2Proof.Machine.execFrameShort wid cmd s
  | .frameProp wid target prop value => Sys2Proof.Machine.execFrameProp wid target prop value s

end Sys2Proof.Machine
end

