-- ==== Sys2Proof/Machine/Step.lean ====
section
/-! DEFINITION. One step of the machine with this instance's parameters, and where the next step fetches its
instruction (log entries 2 and 4). -/

namespace Sys2Proof.Machine

/-- One atomic step of whoever moves next (R20). -/
def step (s : State) : Host.Outcome State Fault Refusal := stepWith Config.params exec s

/-- `s` with the instruction of an opcode-table word where the next step fetches it: a command word as the host's next
write to `CMD`, a frame as the bits in the frame decoder. -/
def State.withFetchWord (s : State) (nbits w : Nat) : State := s.withTableWord nbits w

end Sys2Proof.Machine
end

