-- ==== Sys2Proof/Machine/HostProgram.lean ====
section
/-! DEFINITION. Host programs (spec/30_encoding.md R105, R106): the operations of the assembler syntax, the
pseudo-instructions' expansions, and how a program becomes input of the block. -/

namespace Sys2Proof.Machine

/-- The operations of R105. -/
inductive HostOp where
  | csrw (r : Csr) (v : Word)
  | csrr (r : Csr)
  | cmd (w : Word)
  | nop
  | txs (c : Byte)
  | txp (a b c : Byte)
  | feed (data : List (BitVec 64)) (last : Bool)
  | feedRun (n : Nat) (data : BitVec 64) (last : Bool)
  | eos
  | take (n : Nat)
  deriving DecidableEq, Repr, Inhabited

/-- The beats of a `feed`: `last` sets `LAST` on the final one. -/
def feedBeats (data : List (BitVec 64)) (last : Bool) : List PortBeat :=
  data.mapIdx fun n d => ⟨d, last && n + 1 == data.length⟩

/-- A bus access of the host, after which the RX agent runs until it waits. -/
def State.queueBus (op : BusOp) (s : State) : State :=
  { s with busIn := s.busIn ++ [op], turns := s.turns ++ [.bus, .drain] }

/-- Beats of the host, each followed by the RX agent. -/
def State.queueBeats (bs : List PortBeat) (s : State) : State :=
  { s with portIn := s.portIn ++ bs, turns := s.turns ++ bs.flatMap fun _ => [.port, .drain] }

/-- The input an operation gives the block (R105). -/
def HostOp.queue : HostOp → State → State
  | .csrw r v, s => s.queueBus (.write r.offset 4 v)
  | .csrr r, s => s.queueBus (.read r.offset 4)
  | .cmd w, s => s.queueBus (cmdWrite w)
  | .nop, s => s.queueBus (cmdWrite 0x00000000)
  | .txs c, s => s.queueBus (cmdWrite (0xD5000000 ||| c.zeroExtend 32))
  | .txp a b c, s =>
    s.queueBus (cmdWrite (0xA9000000 ||| (a.zeroExtend 32 <<< 16) ||| (b.zeroExtend 32 <<< 8) ||| c.zeroExtend 32))
  | .feed data last, s => s.queueBeats (feedBeats data last)
  | .feedRun n data last, s => s.queueBeats (feedBeats (List.replicate n data) last)
  | .eos, s => { s with eosIn := s.eosIn + 1, turns := s.turns ++ [.eos] }
  | .take n, s => { s with turns := s.turns ++ List.replicate n .sink }

/-- A program's input, operation by operation. -/
def queueProgram (prog : List HostOp) (s : State) : State := prog.foldl (fun s op => op.queue s) s

/-! ### Pseudo-instructions (R106) -/

/-- `rx_on` -/
def rxOn : List HostOp := [.csrw .ctrl 1]
/-- `rx_off` -/
def rxOff : List HostOp := [.csrw .ctrl 0]
/-- `reset` -/
def softReset : List HostOp := [.csrw .ctrl 2]
/-- `ack mask` -/
def ackMask (mask : Word) : List HostOp := [.csrw .status mask]
/-- `tx_short ch, c` -/
def txShort (ch : Word) (c : Byte) : List HostOp := [.csrw .txChannel ch, .txs c]
/-- `tx_prop ch, a, b, c` -/
def txProp (ch : Word) (a b c : Byte) : List HostOp := [.csrw .txChannel ch, .txp a b c]
/-- `read_record`, for the value `n` that the read of `RESULT_LEN` gives. -/
def readRecord (n : Nat) : List HostOp := .csrr .resultLen :: List.replicate n (.csrr .result)
/-- `drain`: take the beats left in `tx_out`. -/
def drainTx (s : State) : List HostOp := [.take s.txOut.length]

end Sys2Proof.Machine
end

