-- ==== Sys2Proof/Machine/Presentation.lean ====
section
/-! DEFINITION. The text of a stops value (spec/44_frame_decoder.md R232). It is for a presentation layer: no rule of the
block depends on it (spec/93_implementation_defined.md I17). -/

namespace Sys2Proof.Machine

/-- A number of tenths with one decimal digit, a leading minus when negative. -/
def tenthsText (t : Int) : String :=
  (if t < 0 then "-" else "") ++ Nat.repr (t.natAbs / 10) ++ "." ++ Nat.repr (t.natAbs % 10)

/-- The text of a stops value: `OFF` for the sentinel, none for a rejected value (R232). -/
def stopsText (x : Byte) : Option String :=
  if x = 0xFF then some "OFF"
  else if x.toNat ≥ 100 then none
  else
    some (tenthsText (-(x.toNat : Int)) ++ " stops (1/" ++ Nat.repr (2 ^ (-(stopsBase x)).toNat) ++ " +0." ++
      Nat.repr (stopsFrac x).toNat ++ ")")

/-- The text of a value with a unit suffix (R230). -/
def unitText (x : Byte) (unit : String) : String := Nat.repr x.toNat ++ unit

end Sys2Proof.Machine
end

