-- ==== Sys2Proof/Safety.lean ====
section
/-! DEFINITION. What the claims about runs are stated with: the invariants of every state a run reaches
(spec/10_state.md R23 to R36, spec/40_stream_buffer.md R134, spec/30_encoding.md R92 to R96), which steps reset the block
(spec/70_reset_and_hazards.md R340, R341), and the end of a run (R355). -/

namespace Sys2Proof.Machine

/-- The receive path's state is consistent (R23, R25, R27, R28, R134). -/
structure RxInv (p : Params) (s : State) : Prop where
  /-- The window has room for a sample. -/
  fill_lt : s.win.length < p.wCap
  /-- Both parts of every sample held are finite. -/
  win_finite : ∀ z ∈ s.win, z.isFinite = true
  /-- `fill = 0` in discard mode. -/
  discard_empty : s.discard = true → s.win = []
  /-- Every queued burst has at least `MIN_BURST` and fewer than `W_CAP` samples. -/
  pending_length : ∀ b ∈ s.pending, Config.minBurst ≤ b.samples.length ∧ b.samples.length < p.wCap
  /-- Every sample of a queued burst is finite and above the threshold. -/
  pending_above : ∀ b ∈ s.pending, ∀ z ∈ b.samples, z.isFinite = true ∧ above p z = true
  /-- `PROCESS` holds exactly while bursts are pending. -/
  process_iff : s.rxPhase = .process ↔ s.pending ≠ []
  /-- `HALTED` holds exactly after an end of stream. -/
  halted_iff : s.rxPhase = .halted ↔ s.eosFatal = true
  /-- No burst is left in the decoder between steps (R47, R130). -/
  decoder_empty : s.inflight = none

/-- A record the block can produce (R92, R93, R96; I2): 10 to 14 words, as many as word 9 says, a status code and a kind
that exist, and the reserved bits 0. -/
structure ValidRecord (r : Record) : Prop where
  length_ge : 10 ≤ r.length
  length_le : r.length ≤ 14
  length_eq : r.length = 10 + ((r.getD 9 0).extractLsb' 16 16).toNat
  status_le : ((r.getD 0 0).extractLsb' 0 8).toNat ≤ 10
  kind_le : ((r.getD 0 0).extractLsb' 8 8).toNat ≤ 2
  reserved0 : (r.getD 0 0).extractLsb' 30 2 = 0
  reserved1 : (r.getD 1 0).extractLsb' 27 5 = 0
  decKind_ne : (r.getD 1 0).extractLsb' 24 3 ≠ 7
  /-- Word 0 of a record is never 0 (R346). -/
  word0_ne : r.getD 0 0 ≠ 0

/-- The result FIFO is consistent (R29, R30). -/
structure FifoInv (p : Params) (s : State) : Prop where
  depth_le : s.rfifo.length ≤ p.rfifoDepth
  records : ∀ r ∈ s.rfifo, ValidRecord r
  rdIdx_empty : s.rfifo = [] → s.rdIdx = 0
  rdIdx_lt : ∀ r rest, s.rfifo = r :: rest → s.rdIdx < r.length

/-- The transmit path's state is consistent (R31, R32, R82). -/
structure TxInv (s : State) : Prop where
  /-- `STREAM` holds exactly while beats wait. -/
  stream_iff : s.txPhase = .stream ↔ s.txOut ≠ []
  /-- `HALTED` holds exactly after a transmit fault. -/
  halted_iff : s.txPhase = .halted ↔ s.txFatal = true
  /-- `LAST` is set on the final beat and on no other. -/
  last_only : ∀ pre b post, s.txOut = pre ++ b :: post → (b.last = true ↔ post = [])
  /-- The value −128 stands in no beat (R32, R83). -/
  range : ∀ b ∈ s.txOut, b.i ≠ 0x80 ∧ b.q ≠ 0x80

/-- No reserved bit of `IRQ_EN` is stored (R36, I7). -/
def IrqInv (s : State) : Prop := s.irqEn &&& irqMask = s.irqEn

/-- The invariant of every state a run reaches. -/
structure Inv (p : Params) (s : State) : Prop where
  rx : RxInv p s
  fifo : FifoInv p s
  tx : TxInv s
  irq : IrqInv s

/-- `ABS_START` of a record (R94). -/
def recordStart (r : Record) : Count := r.getD 4 0 ++ r.getD 3 0

/-- Bursts and records are in stream order (R73, R134). The order is that of the sample indices as numbers: it is kept as
long as `count` does not wrap (log entry 18). -/
structure Ordered (s : State) : Prop where
  /-- Queued bursts are in increasing order, with a sample between any two. -/
  pending_lt : s.pending.Pairwise fun b c => b.absStart.toNat + b.samples.length < c.absStart.toNat
  /-- Every queued burst ends before the samples still in the window. -/
  pending_count : ∀ b ∈ s.pending, b.absStart.toNat + b.samples.length < s.count.toNat
  /-- The last recorded burst, if there is one, ends before the window and before every queued burst. -/
  prevEnd_lt : s.prevEnd = 0 ∨
    (s.prevEnd.toNat < s.count.toNat ∧ ∀ b ∈ s.pending, s.prevEnd.toNat < b.absStart.toNat)
  /-- The records wait in increasing `ABS_START` order. -/
  records_lt : s.rfifo.Pairwise fun r q => (recordStart r).toNat < (recordStart q).toNat
  /-- Every waiting record's burst starts before the last recorded burst's end. -/
  records_prevEnd : ∀ r ∈ s.rfifo, (recordStart r).toNat < s.prevEnd.toNat

/-- The bus access is a soft reset (R283, R341). -/
def BusOp.isSoftReset : BusOp → Bool
  | .read _ _ => false
  | .write addr size v => legalAccess addr size && csrAt addr == some .ctrl && v.getLsbD 1

/-- The bus access is a new command: a legal write to `CMD` (R289). -/
def BusOp.isCommand : BusOp → Bool
  | .read _ _ => false
  | .write addr size _ => legalAccess addr size && csrAt addr == some .cmd

/-- The next step resets the block (R340, R341). -/
def State.resetsNext (p : Params) (s : State) : Bool :=
  s.inflight.isNone &&
    match s.nextTurn p with
    | .reset => true
    | .bus => s.busIn.head?.elim false BusOp.isSoftReset
    | _ => false

/-- The next step is a read of `SAMPLE_COUNT_LO` that loads `sc_shadow` (R287). -/
def State.latchesNext (p : Params) (s : State) : Bool :=
  s.inflight.isNone && s.nextTurn p == .bus && s.busIn.head? == some (.read 0x18 4)

/-- The samples the SB unit takes or drops, beat after beat, with the sample port always ready (R121). -/
def State.feedAll (p : Params) (s : State) (beats : List (Sample × Bool)) : State :=
  beats.foldl (fun s b => s.beat p b.1 b.2) s

/-- `n` reads of `RESULT`: the words, and the state they leave (R288). -/
def State.popMany : Nat → State → List Word × State
  | 0, s => ([], s)
  | n + 1, s => (s.resultPop.1 :: (popMany n s.resultPop.2).1, (popMany n s.resultPop.2).2)

/-- `n` takes of the sink (R262). -/
def State.takeMany : Nat → State → State
  | 0, s => s
  | n + 1, s => takeMany n s.takeBeat

/-- END OF A RUN (R355): no burst is pending or in the decoder, no beat waits for the sink, every record has been read,
and the host has nothing pending but new beats, new commands and resets: no end of stream waits, and of the bus accesses
issued each is a command or a soft reset. -/
def State.ended (s : State) : Bool :=
  s.inflight.isNone && s.pending.isEmpty && s.txOut.isEmpty && s.rfifo.isEmpty && s.eosIn == 0 &&
    s.busIn.all fun op => op.isCommand || op.isSoftReset

/-- What a run observes (R355): the records read in order, the beats taken in order, `STATUS` and `count`. -/
def State.observation (p : Params) (s : State) : List Record × List TxBeat × Word × Count :=
  (s.recordsOut, s.sinkOut, s.statusValue p, s.count)

end Sys2Proof.Machine
end

