-- ==== Sys2Proof/Certificates/Slice0/Obligations.lean ====
section
/-! DEFINITION. The statements for the provers. Each follows the numbered rules of spec/ named in its docstring.

A statement over `p : Params` holds for every configuration of the block; `Config.params`, the one `step` and `exec`
use, is one of them. `stepWith p run` is a step with the meaning of an instruction as `run`; `step` is
`stepWith Config.params exec` by definition. Where a rule is stated for exact real arithmetic (R10), the hypothesis
`p.numerics = .exactReals` says so. -/

open Sys2Proof Sys2Proof.Machine

/-! ### Steps and instructions -/

/-- When the host's next access writes a command word to `CMD` and it is the host's turn, the step acknowledges the write
and runs the decoded command (R72, R289). The second clause is the model's choice (log entry 2): in a state that holds a
burst in the frame decoder, which no run reaches, the step runs the frame its bits are. -/
def Obligations.StepRunsTheDecodedInstruction : Prop :=
  (∀ (s : State) (ts : List Turn) (rest : List BusOp) (w : Word) (i : Instr),
    s.inflight = none → s.turns = .bus :: ts → s.busIn = .write 0x10 4 w :: rest → decodeCommand w = .ok i →
      step s = exec i { s with turns := ts, busIn := rest, busOut := s.busOut ++ [⟨false, 0⟩] }) ∧
  (∀ (s : State) (r : Reception) (i : Instr),
    s.inflight = some r → decodeFrame r.bits = .ok i → step s = exec i s)

/-- PROCESS (R130, R131): the head burst leaves `pending`, `prev_end` moves to its end, and its demodulation is either
the record of its failure or the frame instruction, or frame failure, its bits hold. -/
def Obligations.ProcessTurnsABurstIntoARecord : Prop :=
  ∀ (p : Params) (s : State) (ts : List Turn) (b : Burst) (rest : List Burst),
    s.inflight = none → s.turns = .rx :: ts → s.rxPhase = .process → s.rfifo.length < p.rfifoDepth →
    s.pending = b :: rest →
      let gap := b.absStart - s.prevEnd
      let t := { s with turns := ts, pending := rest, prevEnd := b.absStart + BitVec.ofNat 64 b.samples.length }
      let phase := if rest = [] then RxPhase.accept else RxPhase.process
      let ctx := fun power bits prepended =>
        (⟨b.absStart, b.samples.length, gap, power, bits, prepended⟩ : Reception)
      stepWith p exec s =
        match demodulate p b.samples with
        | .fail code power =>
          .next { t with rfifo := s.rfifo ++ [failureRecord code (ctx power [] false)], rxPhase := phase }
        | .ok power bits prepended =>
          match decodeFrame bits with
          | .ok i => exec i { t with inflight := some (ctx power bits prepended) }
          | .error code =>
            .next { t with rfifo := s.rfifo ++ [failureRecord code (ctx power bits prepended)], rxPhase := phase }

/-- PROCESS waits (R130, R348): with the result FIFO full, or outside the PROCESS phase, the RX agent's turn changes
nothing but the turn (log entry 1). -/
def Obligations.ProcessWaitsForTheResultFifo : Prop :=
  ∀ (p : Params) (run : Instr → State → Result) (s : State) (ts : List Turn),
    s.inflight = none → s.turns = .rx :: ts → (s.rxPhase ≠ .process ∨ p.rfifoDepth ≤ s.rfifo.length) →
      stepWith p run s = .next { s with turns := ts }

/-- `NOP`: the words `0x00xxxxxx`, whatever their operand bits; no effect, in every phase (R290). -/
def Obligations.NopChangesNothing : Prop :=
  (∀ (operands : BitVec 24) (s : State), exec (.nop operands) s = .next s) ∧
  (∀ w : Word, w.extractLsb' 24 8 = 0x00 → decodeCommand w = .ok (.nop (w.extractLsb' 0 24)))

/-- `TXS` and `TXP` complete when the transmitter is idle and the channel is a wireless ID (R250, R291, R292): the
frame's beats are queued and the stream begins, or, when a component of the frame exceeds 1, the transmit fault is
raised with nothing queued (R315). Nothing else changes. -/
def Obligations.TransmitCommandsQueueTheFrame : Prop :=
  (∀ (c : Byte) (s : State), s.txPhase = .idle → s.txChannel.toNat ≤ 99 →
    exec (.txs c) s = .next
      (match modulation Config.params (frameShortBits s.txChannel.toNat c) with
      | some v => { s with txOut := beatsOf v, txPhase := .stream }
      | none => { s with txFatal := true, txPhase := .halted })) ∧
  (∀ (a b c : Byte) (s : State), s.txPhase = .idle → s.txChannel.toNat ≤ 99 →
    exec (.txp a b c) s = .next
      (match modulation Config.params (framePropBits s.txChannel.toNat a b c) with
      | some v => { s with txOut := beatsOf v, txPhase := .stream }
      | none => { s with txFatal := true, txPhase := .halted }))

/-- A transmit command while a frame is taken, after a transmit fault, or for a channel above 99 is dropped: `CMD_ERR`
is set and nothing else changes (R289, R344). -/
def Obligations.TransmitCommandsAreDropped : Prop :=
  ∀ (s : State), (s.txPhase ≠ .idle ∨ 99 < s.txChannel.toNat) →
    (∀ c, exec (.txs c) s = .next { s with cmdErr := true }) ∧
    (∀ a b c, exec (.txp a b c) s = .next { s with cmdErr := true })

/-- An illegal command word raises `CmdErr` and has no other effect (R102). -/
def Obligations.IllegalCommandWordSetsCmdErr : Prop :=
  ∀ (s : State) (ts : List Turn) (rest : List BusOp) (w : Word),
    s.inflight = none → s.turns = .bus :: ts → s.busIn = .write 0x10 4 w :: rest →
    ((w.extractLsb' 24 8 ≠ 0x00 ∧ w.extractLsb' 24 8 ≠ 0xD5 ∧ w.extractLsb' 24 8 ≠ 0xA9) ∨
      (w.extractLsb' 24 8 = 0xD5 ∧ w.extractLsb' 8 16 ≠ 0)) →
      step s = .next
        { s with turns := ts, busIn := rest, busOut := s.busOut ++ [⟨false, 0⟩], cmdErr := true }

/-- `FRAME_SHORT` (R216, R217, R218): the frame in the decoder becomes a success record with the sender, the command
byte, `PRIMARY` from its two top bits and `UNK_CMD` from the table; nothing but the receive path's queue, latch and phase
changes. The latch is the model's own (log entry 2), and that a delivery outside PROCESS leaves the phase is its choice
(log entry 12). -/
def Obligations.ShortFrameBecomesARecord : Prop :=
  ∀ (s : State) (r : Reception) (wid cmd : Byte), s.inflight = some r →
    exec (.frameShort wid cmd) s = .next
      { s with
        inflight := none
        rxPhase := if s.rxPhase = .process ∧ s.pending = [] then .accept else s.rxPhase
        rfifo := s.rfifo ++ [recordOf 0
          { kind := 1, wid := wid, isPrimary := !cmd.getLsbD 7 && !cmd.getLsbD 6,
            unkCmd := (Config.params.shortCmdTable cmd).isNone, b0 := cmd } r] }

/-- `FRAME_PROP` (R219, R220, R221): the frame in the decoder becomes a success record with the three bytes, the unknown
markers, and the decoded or rejected value; a rejected value or an unknown id does not abort the message. The latch is the
model's own (log entry 2), and that a delivery outside PROCESS leaves the phase is its choice (log entry 12). -/
def Obligations.PropertyFrameBecomesARecord : Prop :=
  ∀ (s : State) (r : Reception) (wid tg pid x : Byte), s.inflight = some r →
    exec (.frameProp wid tg pid x) s = .next
      { s with
        inflight := none
        rxPhase := if s.rxPhase = .process ∧ s.pending = [] then .accept else s.rxPhase
        rfifo := s.rfifo ++ [recordOf 0
          { kind := 2, wid := wid, unkTarget := decide (tg ≠ 0x50 ∧ ¬(0x0A ≤ tg.toNat ∧ tg.toNat ≤ 0x0E)),
            unkProp := (Config.params.propertyTable pid).isNone,
            badValue := (decodeValue ((Config.params.propertyTable pid).bind (·.decoder)) x).isNone,
            b0 := tg, b1 := pid, b2 := x,
            decKind := decKind ((Config.params.propertyTable pid).bind (·.decoder)),
            decoded := (decodeValue ((Config.params.propertyTable pid).bind (·.decoder)) x).getD 0 } r] }

/-- The model's own stop (log entry 2): a frame instruction with no burst in the decoder faults. No rule asks for it and
no step does it. -/
def Obligations.FrameWithoutABurstFaults : Prop :=
  ∀ (s : State), s.inflight = none →
    (∀ wid cmd, exec (.frameShort wid cmd) s = .fault .noFrameInDecoder) ∧
    (∀ wid tg pid x, exec (.frameProp wid tg pid x) s = .fault .noFrameInDecoder)

/-! ### Encodings -/

/-- DECODE AND ENCODE AGREE: every well-formed instruction, with every operand, decodes from its encoding. -/
def Obligations.DecodeOfEncodeIsTheInstruction : Prop :=
  ∀ i : Instr, i.wellFormed = true → decode (encode i) = .ok i

/-- Each command word has one meaning: a word that decodes is the encoding of what it decodes to. -/
def Obligations.CommandWordsHaveOneMeaning : Prop :=
  ∀ (w : Word) (i : Instr), decodeCommand w = .ok i → encode i = .command w

/-- A frame with one more bit, whatever its value, is the same frame; with two or more it is `TrailingGarbage`
(R223). -/
def Obligations.OneExtraBitIsIgnored : Prop :=
  ∀ (i : Instr) (b : Bits), i.wellFormed = true → encode i = .frame b →
    (∀ e, decodeFrame (b ++ [e]) = .ok i) ∧
    (∀ e, 1 < e.length → decodeFrame (b ++ e) = .error .trailingGarbage)

/-- Frame lengths (R85): 81 bits for a short command and 97 for a property command; the decoder accepts exactly that
length or one bit more. -/
def Obligations.FrameLengths : Prop :=
  (∀ (wid : Nat) (c : Byte), (frameShortBits wid c).length = 81) ∧
  (∀ (wid : Nat) (a b c : Byte), (framePropBits wid a b c).length = 97) ∧
  (∀ (b : Bits) (wid cmd : Byte), decodeFrame b = .ok (.frameShort wid cmd) → b.length = 81 ∨ b.length = 82) ∧
  (∀ (b : Bits) (wid tg pid x : Byte), decodeFrame b = .ok (.frameProp wid tg pid x) → b.length = 97 ∨ b.length = 98)

/-- The decoder as one list of checks in the fixed order of R319 (steps 5 to 15): each field's presence, then its value,
the first failing check deciding. `fld a n` is the field of `n` bits at offset `a`. -/
def Obligations.FrameChecksInOrder : Prop :=
  ∀ b : Bits,
    let fld := fun a n => (b.drop a).take n
    let bit := fun i => b.getD i false
    let wid := (List.range 100).find? fun w => 50024 / (w + 1) == val (fld 32 16)
    let byte := fun a => BitVec.ofNat 8 (val (fld a 8))
    decodeFrame b =
      if b.length < 32 then .error .frameTruncated
      else if fld 0 32 ≠ preamble then .error .frameSyncMismatch
      else if b.length < 64 then .error .frameTruncated
      else if val (fld 32 16) ≠ val (fld 48 16) then .error .wirelessIdMismatch
      else if wid = none then .error .unknownWirelessId
      else if b.length < 72 then .error .frameTruncated
      else if byte 64 = 0xD5 then
        if b.length < 81 then .error .frameTruncated
        else if bit 80 ≠ bit 79 then .error .trailingBitMismatch
        else if 82 < b.length then .error .trailingGarbage
        else .ok (.frameShort (BitVec.ofNat 8 (wid.getD 0)) (byte 72))
      else if byte 64 = 0xA9 then
        if b.length < 97 then .error .frameTruncated
        else if bit 96 ≠ bit 95 then .error .trailingBitMismatch
        else if 98 < b.length then .error .trailingGarbage
        else .ok (.frameProp (BitVec.ofNat 8 (wid.getD 0)) (byte 72) (byte 80) (byte 88))
      else .error .unsupportedFrameType

/-- The network-code map (R213): `code(w) = 50024 div (w + 1)`, injective on 0..99, with values in 500..50024. -/
def Obligations.NetworkCodeIsInjective : Prop :=
  (∀ w, networkCode w = 50024 / (w + 1)) ∧
  (∀ w, w < 100 → 500 ≤ networkCode w ∧ networkCode w ≤ 50024) ∧
  (∀ w v, w < 100 → v < 100 → networkCode w = networkCode v → w = v)

/-- The ID inversion is exact (R214): it finds `w` for a code exactly when `w` is one of the 100 ids and has that
code. -/
def Obligations.IdInversionIsExact : Prop :=
  ∀ a w : Nat, invertCode a = some w ↔ w < 100 ∧ networkCode w = a

/-- A few words of the encodings of R99 to R101 and of R84, written out, decode to the instructions they stand for. -/
def Obligations.SampleWordsDecode : Prop :=
  decodeCommand 0b00000000_10101011_11001101_11101111#32 = .ok (.nop 0xABCDEF) ∧
  decodeCommand 0b11010101_00000000_00000000_10001111#32 = .ok (.txs 0x8F) ∧
  decodeCommand 0b10101001_01010000_00000001_00001010#32 = .ok (.txp 0x50 0x01 0x0A) ∧
  decodeFrame (bitsOf 0b10101010101010101010101010101010_0010000010010001_0010000010010001_11010101_10001111_1#81) =
    .ok (.frameShort 5 0x8F) ∧
  decodeFrame (bitsOf
    0b10101010101010101010101010101010_0000011111010000_0000011111010000_10101001_00001010_00000001_00001111_1#97) =
    .ok (.frameProp 24 0x0A 0x01 0x0F)

/-! ### The control interface -/

/-- CSR READ (R280), offset by offset, with the bus error for every other size or alignment (R294). The model's choices:
what a `RESULT` read at or past the end of the head record does (log entry 12), and the logs of the answers and of the
records read (log entry 14). -/
def Obligations.BusReadEffect : Prop :=
  ∀ (p : Params) (run : Instr → State → Result) (s : State) (ts : List Turn) (rest : List BusOp) (a : Byte) (n : Nat),
    s.inflight = none → s.turns = .bus :: ts → s.busIn = .read a n :: rest →
      let t := { s with turns := ts, busIn := rest }
      let answer := fun (v : Word) => ({ t with busOut := s.busOut ++ [⟨false, v⟩] } : State)
      stepWith p run s = .next (
        if n ≠ 4 ∨ a.toNat % 4 ≠ 0 then { t with busOut := s.busOut ++ [⟨true, 0⟩] }
        else if a = 0x00 then answer 0x47460007
        else if a = 0x04 then answer (if s.rxEn then 1 else 0)
        else if a = 0x08 then answer (s.statusValue p)
        else if a = 0x0C then answer s.irqEn
        else if a = 0x14 then answer (s.txChannel.zeroExtend 32)
        else if a = 0x18 then { answer (s.count.extractLsb' 0 32) with scShadow := s.count.extractLsb' 32 32 }
        else if a = 0x1C then answer s.scShadow
        else if a = 0x20 then
          match s.rfifo with
          | [] => answer 0
          | r :: rs =>
            if s.rdIdx + 1 < r.length then { answer (r.getD s.rdIdx 0) with rdIdx := s.rdIdx + 1 }
            else { answer (r.getD s.rdIdx 0) with rfifo := rs, rdIdx := 0, recordsOut := s.recordsOut ++ [r] }
        else if a = 0x24 then
          answer (match s.rfifo with | [] => 0 | r :: _ => BitVec.ofNat 32 (r.length - s.rdIdx))
        else answer 0)

/-- CSR WRITE (R281), offset by offset, with the bus error for every other size or alignment (R294). The model's choices:
what waits outside and what has left the block survives a soft reset, whose write is answered first (log entry 7). -/
def Obligations.BusWriteEffect : Prop :=
  ∀ (p : Params) (run : Instr → State → Result) (s : State) (ts : List Turn) (rest : List BusOp) (a : Byte) (n : Nat)
    (v : Word),
    s.inflight = none → s.turns = .bus :: ts → s.busIn = .write a n v :: rest →
      let t := { s with turns := ts, busIn := rest, busOut := s.busOut ++ [⟨false, 0⟩] }
      stepWith p run s =
        if n ≠ 4 ∨ a.toNat % 4 ≠ 0 then .next { t with busOut := s.busOut ++ [⟨true, 0⟩] }
        else if a = 0x04 then
          .next (if v.getLsbD 1 then
            { State.reset with
              turns := ts, busIn := rest, portIn := s.portIn, eosIn := s.eosIn, busOut := t.busOut,
              sinkOut := s.sinkOut, recordsOut := s.recordsOut }
            else { t with rxEn := v.getLsbD 0 })
        else if a = 0x08 then
          .next { t with
            txDone := s.txDone && !v.getLsbD 3, cmdErr := s.cmdErr && !v.getLsbD 4, ovf := s.ovf && !v.getLsbD 5 }
        else if a = 0x0C then .next { t with irqEn := v &&& 0x000000F9 }
        else if a = 0x10 then
          match decodeCommand v with
          | .ok i => run i t
          | .error _ => .next { t with cmdErr := true }
        else if a = 0x14 then .next { t with txChannel := v.extractLsb' 0 7 }
        else .next t

/-- `STATUS` (R284): every bit of the value read, and a write, which clears the stored bits 3, 4 and 5 that are 1 in the
value and changes nothing else. -/
def Obligations.StatusIsAssembledAndCleared : Prop :=
  ∀ (p : Params) (s : State) (v : Word),
    (∀ k : Nat, (s.statusValue p).getLsbD k =
      match k with
      | 0 => !s.rfifo.isEmpty
      | 1 => decide (s.rfifo.length = p.rfifoDepth)
      | 2 => decide (s.txPhase = .stream)
      | 3 => s.txDone
      | 4 => s.cmdErr
      | 5 => s.ovf
      | 6 => s.eosFatal
      | 7 => s.txFatal
      | _ => false) ∧
    s.acknowledge v =
      { s with
        txDone := s.txDone && !v.getLsbD 3, cmdErr := s.cmdErr && !v.getLsbD 4, ovf := s.ovf && !v.getLsbD 5 } ∧
    (s.acknowledge v).statusValue p = s.statusValue p &&& ~~~(v &&& 0x38)

/-- The interrupt line (R43): the OR over the bits 0, 3, 4, 5, 6 and 7 of `STATUS[b]` AND `IRQ_EN[b]`; 0 after reset. -/
def Obligations.IrqIsTheOrOfEnabledSources : Prop :=
  ∀ (p : Params),
    (∀ s : State, s.irq p = [0, 3, 4, 5, 6, 7].any fun b => (s.statusValue p).getLsbD b && s.irqEn.getLsbD b) ∧
    State.reset.irq p = false

/-- The reset values of R46, every piece of state. -/
def Obligations.ResetValues : Prop :=
  State.reset.win = [] ∧ State.reset.count = 0 ∧ State.reset.discard = false ∧ State.reset.prevEnd = 0 ∧
  State.reset.pending = [] ∧ State.reset.rxPhase = .accept ∧ State.reset.rfifo = [] ∧ State.reset.rdIdx = 0 ∧
  State.reset.txPhase = .idle ∧ State.reset.txOut = [] ∧
  (csrRead Config.params .id State.reset).1 = 0x47460007 ∧
  (csrRead Config.params .ctrl State.reset).1 = 0 ∧
  (csrRead Config.params .status State.reset).1 = 0 ∧
  (csrRead Config.params .irqEn State.reset).1 = 0 ∧
  (csrRead Config.params .txChannel State.reset).1 = 0 ∧
  State.reset.scShadow = 0 ∧ State.reset.irq Config.params = false

/-- A hardware reset, and a soft reset (R340, R341), put every piece of the block's state at its reset value. What waits
outside and what has left the block stays (log entry 7, the model's choice): the reset input takes its turn and nothing
else, a soft reset takes the access that asks for it and answers it. -/
def Obligations.ResetsRestoreEverything : Prop :=
  ∀ (p : Params) (run : Instr → State → Result) (s : State), s.resetsNext p = true →
    stepWith p run s = .next { State.reset with
      turns := s.turns.tail
      busIn := if s.turns.head? = some .reset then s.busIn else s.busIn.tail
      portIn := s.portIn
      eosIn := s.eosIn
      busOut := if s.turns.head? = some .reset then s.busOut else s.busOut ++ [⟨false, 0⟩]
      sinkOut := s.sinkOut
      recordsOut := s.recordsOut }

/-- Reading `LO` then `HI` (R287): the `LO` read answers the low half of `count` and latches the high half, and no step
but another `LO` read or a reset changes the latch. -/
def Obligations.CountHighHalfIsLatched : Prop :=
  (∀ (p : Params) (s : State),
    (csrRead p .sampleCountHi (csrRead p .sampleCountLo s).2).1 ++ (csrRead p .sampleCountLo s).1 = s.count) ∧
  (∀ (p : Params) (s t : State), s.latchesNext p = false → s.resetsNext p = false → stepWith p exec s = .next t →
    t.scShadow = s.scShadow)

/-- Reading a record (R288): as many `RESULT` reads as the head record has words give the record, word for word, and pop
it; it is then the next of the records read (R355; the log is the model's, log entry 14), and nothing else changes. -/
def Obligations.RecordIsReadWordByWord : Prop :=
  ∀ (s : State) (r : Record) (rest : List Record), s.rfifo = r :: rest → s.rdIdx = 0 → r ≠ [] →
    State.popMany r.length s = (r, { s with rfifo := rest, recordsOut := s.recordsOut ++ [r] })

/-- Each CSR access with a side effect, and no other (R69, R70): a legal read at an offset other than `0x18` and `0x20`
changes nothing but the answer. -/
def Obligations.OtherReadsHaveNoSideEffect : Prop :=
  ∀ (p : Params) (r : Csr) (s : State), r ≠ .sampleCountLo → r ≠ .result → (csrRead p r s).2 = s

/-! ### The stream buffer -/

/-- The threshold test (R122) under exact arithmetic: the magnitude exceeds `10^(−30/20)`, that is
`(Re z)² + (Im z)² > 1/1000`, for every sample. -/
def Obligations.AboveIsTheExactThreshold : Prop :=
  ∀ (p : Params) (z : Sample), p.numerics = .exactReals →
    (above p z = true ↔ (10 : ℝ) ^ (-(30 / 20) : ℝ) < ‖z.toComplex‖) ∧
    (above p z = true ↔ (1 / 1000 : ℝ) < z.toComplex.re ^ 2 + z.toComplex.im ^ 2)

/-- The edges of a scan (R124): the complete bursts are exactly the ranges of above samples between a rising edge and the
next falling edge, in rising order, a below sample standing before the window; the open burst is exactly the range of
above samples that reaches the window's end. -/
def Obligations.ScanFindsExactlyTheBursts : Prop :=
  ∀ (p : Params) (w : List Sample),
    let A := fun k => (w[k]?).any (above p)
    (∀ a e, (a, e) ∈ (edges p 0 none w).1 ↔
      a < e ∧ e < w.length ∧ (∀ k, a ≤ k → k < e → A k = true) ∧ A e = false ∧ (a = 0 ∨ A (a - 1) = false)) ∧
    (edges p 0 none w).1.Pairwise (fun x y => x.2 < y.1) ∧
    (∀ a, (edges p 0 none w).2 = some a ↔
      a < w.length ∧ (∀ k, a ≤ k → k < w.length → A k = true) ∧ (a = 0 ∨ A (a - 1) = false))

/-- SAMPLE BEAT (R121, R123, R128) on a port that is ready: in discard mode an above sample is dropped and counted;
otherwise the sample is kept, discard mode ends, and a scan runs at a chunk end. A port that is not ready takes nothing. -/
def Obligations.SampleBeatEffect : Prop :=
  ∀ (p : Params) (run : Instr → State → Result) (s : State) (ts : List Turn) (b : PortBeat) (rest : List PortBeat),
    s.inflight = none → s.turns = .port :: ts → s.portIn = b :: rest → b.sample.isFinite = true →
      stepWith p run s = .next (
        if s.rxPhase = .accept ∧ s.rxEn = true ∧ (s.discard = true ∨ s.win.length < p.wCap) then
          if s.discard = true ∧ above p b.sample = true then
            { s with turns := ts, portIn := rest, count := s.count + 1 }
          else
            let t := { s with turns := ts, portIn := rest, discard := false, win := s.win ++ [b.sample] }
            if b.last = true ∨ s.win.length + 1 = p.wCap then t.scan p else t
        else { s with turns := ts })

/-- A beat with a NaN or infinite part has no step (I4 of spec/93_implementation_defined.md): the model refuses it when the
port would take it (log entry 9). -/
def Obligations.NonFiniteBeatIsRefused : Prop :=
  ∀ (p : Params) (run : Instr → State → Result) (s : State) (ts : List Turn) (b : PortBeat) (rest : List PortBeat),
    s.inflight = none → s.turns = .port :: ts → s.portIn = b :: rest → b.sample.isFinite = false →
    s.portReady p = true → stepWith p run s = .refused .nonFiniteSample

/-- OVERFLOW (R127): when every sample of a full window is above the threshold, the scan sets `OVF`, counts the window,
empties it and enters discard mode; no burst is queued. -/
def Obligations.FullWindowOfOneBurstOverflows : Prop :=
  ∀ (p : Params) (s : State), s.win.length = p.wCap → (∀ z ∈ s.win, above p z = true) → s.pending = [] →
    s.scan p = { s with ovf := true, count := s.count + BitVec.ofNat 64 p.wCap, win := [], discard := true }

/-- A scan without overflow, its whole next state (R124, R125, R126): it keeps exactly the burst open at the window's end,
so that with none open the window empties; it counts the samples before that burst, queues the complete bursts of at least
200 samples in their order, and asks for PROCESS when a burst is queued. Nothing else changes: not `prev_end`, not the
flags, not the result FIFO. -/
def Obligations.CompactionKeepsTheOpenBurst : Prop :=
  ∀ (p : Params) (s : State) (keep : Nat),
    keep = ((edges p 0 none s.win).2).getD s.win.length → ¬(keep = 0 ∧ s.win.length = p.wCap) →
      let queued := s.pending ++ (((edges p 0 none s.win).1.filter fun b => decide (200 ≤ b.2 - b.1)).map
        fun b => (⟨s.count + BitVec.ofNat 64 b.1, (s.win.drop b.1).take (b.2 - b.1)⟩ : Burst))
      s.scan p = { s with
        win := s.win.drop keep, count := s.count + BitVec.ofNat 64 keep, pending := queued,
        rxPhase := if queued = [] then s.rxPhase else .process }

/-- Conservation (R135): no step but a reset changes `count + fill` plus the beats still waiting outside, modulo
`2^64`. -/
def Obligations.SampleCountIsConserved : Prop :=
  ∀ (p : Params) (s t : State), s.resetsNext p = false → stepWith p exec s = .next t →
    t.count + BitVec.ofNat 64 t.win.length + BitVec.ofNat 64 t.portIn.length =
      s.count + BitVec.ofNat 64 s.win.length + BitVec.ofNat 64 s.portIn.length

/-- Chunking does not change what is found (R132): the same samples, cut into chunks in two ways with the last sample
ending a chunk, from reset and with no overflow, queue the same bursts and leave the same `count` and window. -/
def Obligations.ChunkingDoesNotChangeTheBursts : Prop :=
  ∀ (p : Params) (zs : List Sample) (ls ms : List Bool),
    ls.length = zs.length → ms.length = zs.length → ls.getLast? = some true → ms.getLast? = some true →
    (State.reset.feedAll p (zs.zip ls)).ovf = false → (State.reset.feedAll p (zs.zip ms)).ovf = false →
      (State.reset.feedAll p (zs.zip ls)).pending = (State.reset.feedAll p (zs.zip ms)).pending ∧
      (State.reset.feedAll p (zs.zip ls)).count = (State.reset.feedAll p (zs.zip ms)).count ∧
      (State.reset.feedAll p (zs.zip ls)).win = (State.reset.feedAll p (zs.zip ms)).win

/-- END OF STREAM (R129, R314): taken in ACCEPT, it sets `EOS_FATAL` and halts the receiver and changes nothing else; it
waits in PROCESS and is ignored in HALTED. -/
def Obligations.EndOfStreamEffect : Prop :=
  ∀ (p : Params) (run : Instr → State → Result) (s : State) (ts : List Turn),
    s.inflight = none → s.turns = .eos :: ts → 0 < s.eosIn →
      stepWith p run s = .next (
        match s.rxPhase with
        | .accept => { s with turns := ts, eosIn := s.eosIn - 1, eosFatal := true, rxPhase := .halted }
        | .process => { s with turns := ts }
        | .halted => { s with turns := ts, eosIn := s.eosIn - 1 })

/-- After an end of stream the receive path is stopped until a reset (R314, R352): no other step leaves HALTED, takes a
beat, or changes the window, `count`, `discard`, `pending`, `prev_end` or `EOS_FATAL`; the result FIFO only loses records
at its head. -/
def Obligations.HaltedReceiverStaysHalted : Prop :=
  ∀ (p : Params) (s t : State), s.rxPhase = .halted → s.inflight = none → s.resetsNext p = false →
    stepWith p exec s = .next t →
      t.rxPhase = .halted ∧ t.win = s.win ∧ t.count = s.count ∧ t.pending = s.pending ∧ t.prevEnd = s.prevEnd ∧
      t.discard = s.discard ∧ t.eosFatal = s.eosFatal ∧ t.portIn = s.portIn ∧ t.rfifo <:+ s.rfifo

/-- After a transmit fault the transmit path is stopped until a reset (R315): no other step leaves HALTED or queues a
beat. -/
def Obligations.HaltedTransmitterStaysHalted : Prop :=
  ∀ (p : Params) (s t : State), s.txPhase = .halted → s.txOut = [] → s.resetsNext p = false →
    stepWith p exec s = .next t → t.txPhase = .halted ∧ t.txOut = [] ∧ t.txFatal = s.txFatal

/-- The paths are separate (R74): a transmit command changes no receive field, and a receive step changes no transmit
field. -/
def Obligations.PathsShareNoDatapathState : Prop :=
  (∀ (i : Instr) (s t : State), (∃ c, i = .txs c) ∨ (∃ a b c, i = .txp a b c) → exec i s = .next t →
    t.win = s.win ∧ t.count = s.count ∧ t.discard = s.discard ∧ t.prevEnd = s.prevEnd ∧ t.pending = s.pending ∧
    t.rxPhase = s.rxPhase ∧ t.rfifo = s.rfifo ∧ t.rdIdx = s.rdIdx ∧ t.rxEn = s.rxEn ∧ t.ovf = s.ovf ∧
    t.eosFatal = s.eosFatal) ∧
  (∀ (p : Params) (s t : State) (ts : List Turn) (u : Turn), s.turns = u :: ts →
    u = .port ∨ u = .eos ∨ u = .rx ∨ u = .drain → stepWith p exec s = .next t →
    t.txOut = s.txOut ∧ t.txPhase = s.txPhase ∧ t.txDone = s.txDone ∧ t.cmdErr = s.cmdErr ∧ t.txFatal = s.txFatal ∧
    t.txChannel = s.txChannel ∧ t.sinkOut = s.sinkOut)

/-! ### Invariants -/

/-- Every step keeps the invariant of Safety.lean, from every state that has it, and with it the order of the queued bursts
and of the records (R73, R134), as long as `count` does not wrap (log entry 18). In that order the first recorded burst's
gap is its `abs_start`, every later one's is at least 1, and a recorded burst leaves a `prev_end` that is not 0. -/
def Obligations.EveryStepKeepsTheInvariant : Prop :=
  (∀ (p : Params) (s t : State), Inv p s → stepWith p exec s = .next t →
    Inv p t ∧ (Ordered s → s.count.toNat + p.wCap < 2 ^ 64 → Ordered t)) ∧
  (∀ (p : Params) (s : State) (b : Burst) (rest : List Burst), Inv p s → Ordered s → s.pending = b :: rest →
    ((s.prevEnd = 0 ∧ b.absStart - s.prevEnd = b.absStart) ∨ 1 ≤ (b.absStart - s.prevEnd).toNat) ∧
    b.absStart + BitVec.ofNat 64 b.samples.length ≠ 0)

/-- The invariant, with the order of bursts and records, holds at reset. -/
def Obligations.ResetHasTheInvariant : Prop :=
  ∀ p : Params, Inv p State.reset ∧ Ordered State.reset

/-- Fairness (R353), with no turn waiting, where the model's own order of the agents applies (log entry 1). In PROCESS, with
room for all their records, as many steps as there are pending bursts empty `pending` and open the port (R130), and the
records they deliver carry the `ABS_START` of the pending bursts, one each, in their order (R73). And a step that changes
nothing shows that no step is enabled: not PROCESS, not a bus access, not a beat, not an end of stream. -/
def Obligations.PendingBurstsAreProcessed : Prop :=
  (∀ s : State, s.inflight = none → s.turns = [] → s.rxPhase = .process → s.pending ≠ [] →
    s.rfifo.length + s.pending.length ≤ Config.params.rfifoDepth →
      ∃ t recs, Host.Core.run Sys2Proof.core s.pending.length s = .next t ∧ t.pending = [] ∧ t.rxPhase = .accept ∧
        t.rfifo = s.rfifo ++ recs ∧
        recs.map (fun r => r.getD 4 0 ++ r.getD 3 0) = s.pending.map (·.absStart)) ∧
  (∀ (p : Params) (s : State), s.inflight = none → s.turns = [] → stepWith p exec s = .next s →
    ¬(s.rxPhase = .process ∧ s.rfifo.length < p.rfifoDepth ∧ s.pending ≠ []) ∧ s.busIn = [] ∧
    (s.portIn = [] ∨ s.rxPhase ≠ .accept ∨ s.rxEn = false ∨ (s.discard = false ∧ p.wCap ≤ s.win.length)) ∧
    (s.eosIn = 0 ∨ s.rxPhase = .process))

/-! ### The result record -/

/-- The fields of a record (R92 to R96), for every status, message and burst shorter than `2^32` samples; and the record of
a failed burst (R97): the failure's status code, `KIND = 0`, `WID = 0xFF`, no flag but `PREPENDED`, words 1 and 2 zero, and
words 3 on as in any record. -/
def Obligations.RecordFields : Prop :=
  (∀ (code : BurstFail) (r : Reception),
    let c : Nat := match code with
      | .powerProfileInvalid => 1
      | .clockLockFailed => 2
      | .modulationDepthInvalid => 3
      | .frameTruncated => 4
      | .frameSyncMismatch => 5
      | .wirelessIdMismatch => 6
      | .unknownWirelessId => 7
      | .unsupportedFrameType => 8
      | .trailingBitMismatch => 9
      | .trailingGarbage => 10
    (failureRecord code r).take 3 = [BitVec.ofNat 32 (c + 0x00FF0000 + if r.prepended then 2 ^ 29 else 0), 0, 0] ∧
    ∀ status m, (failureRecord code r).drop 3 = (recordOf status m r).drop 3) ∧
  ∀ (status : Byte) (m : Message) (r : Reception),
    let rec0 := recordOf status m r
    let w := fun k => rec0.getD k 0
    let nb := min r.bits.length 0xFFFF
    let nw := (min nb 128 + 31) / 32
    (w 0).extractLsb' 0 8 = status ∧ (w 0).extractLsb' 8 8 = m.kind ∧ (w 0).extractLsb' 16 8 = m.wid ∧
    (w 0).getLsbD 24 = m.isPrimary ∧ (w 0).getLsbD 25 = m.unkCmd ∧ (w 0).getLsbD 26 = m.unkTarget ∧
    (w 0).getLsbD 27 = m.unkProp ∧ (w 0).getLsbD 28 = m.badValue ∧ (w 0).getLsbD 29 = r.prepended ∧
    (w 0).extractLsb' 30 2 = 0 ∧
    (w 1).extractLsb' 0 8 = m.b0 ∧ (w 1).extractLsb' 8 8 = m.b1 ∧ (w 1).extractLsb' 16 8 = m.b2 ∧
    (w 1).extractLsb' 24 3 = m.decKind ∧ (w 1).extractLsb' 27 5 = 0 ∧ w 2 = m.decoded ∧
    w 4 ++ w 3 = r.absStart ∧ (r.length < 2 ^ 32 → (w 5).toNat = r.length) ∧ w 7 ++ w 6 = r.gap ∧ w 8 = r.power ∧
    ((w 9).extractLsb' 0 16).toNat = nb ∧ ((w 9).extractLsb' 16 16).toNat = nw ∧
    rec0.length = 10 + nw ∧
    (∀ i, i < 128 → (w (10 + i / 32)).getLsbD (31 - i % 32) = r.bits.getD i false)

/-! ### Value decoders -/

/-- The value decoders (R225, R227 to R231) on every byte: the decoded word, or none where the value is rejected; and their
`DEC_KIND` codes (R224). -/
def Obligations.ValueDecoders : Prop :=
  ∀ (x : Byte) (names : List String) (unit : String),
    decKind none = 0 ∧ decKind (some .raw) = 1 ∧ decKind (some .integer) = 2 ∧ decKind (some .boolean) = 3 ∧
    decKind (some (.enumByIndex names)) = 4 ∧ decKind (some (.unitSuffix unit)) = 5 ∧ decKind (some .stops) = 6 ∧
    decodeValue none x = some (x.zeroExtend 32) ∧
    decodeValue (some .raw) x = some (x.zeroExtend 32) ∧
    decodeValue (some .integer) x = some (x.zeroExtend 32) ∧
    decodeValue (some (.unitSuffix unit)) x = some (x.zeroExtend 32) ∧
    decodeValue (some .boolean) x = (if x.toNat < 2 then some (x.zeroExtend 32) else none) ∧
    decodeValue (some (.enumByIndex names)) x = (if x.toNat < names.length then some (x.zeroExtend 32) else none) ∧
    decodeValue (some .stops) x =
      (if x.toNat = 255 then some 1
      else if 100 ≤ x.toNat then none
      else some (BitVec.ofInt 32
        (x.toNat * 2 ^ 24 + ((-(x.toNat : Int)) % 10) * 2 ^ 16 + ((-(x.toNat : Int)) / 10 % 256) * 2 ^ 8)))

/-! ### The demodulator -/

/-- The discriminator's range (R170): every value is in `(−FS/2, +FS/2]`, there is one fewer than samples, and a product
on the negative real axis gives `+FS/2`. -/
def Obligations.DiscriminatorRange : Prop :=
  ∀ (fs : ℝ) (x : List ℂ), 0 < fs →
    (discriminate fs x).length = x.length - 1 ∧
    (∀ f ∈ discriminate fs x, -(fs / 2) < f ∧ f ≤ fs / 2) ∧
    (∀ a b : ℂ, (∃ r : ℝ, r < 0 ∧ b * starRingEnd ℂ a = r) → instFreq fs a b = fs / 2)

/-- Amplitude, constant phase and a constant frequency offset (R172): scaling every sample by one non-zero complex
constant changes no value; an offset `Δ` of the whole burst adds `Δ` to every value, modulo the wrap. -/
def Obligations.DiscriminatorIgnoresAmplitude : Prop :=
  (∀ (fs : ℝ) (c : ℂ) (x : List ℂ), c ≠ 0 → discriminate fs (x.map (c * ·)) = discriminate fs x) ∧
  (∀ (fs Δ : ℝ) (x : List ℂ), 0 < fs → (∀ z ∈ x, z ≠ 0) →
    ∀ i, i + 1 < x.length → ∃ k : ℤ,
      (discriminate fs (x.mapIdx fun n z => z * Complex.exp (Complex.I * (2 * Real.pi * Δ * n / fs : ℝ)))).getD i 0 =
        (discriminate fs x).getD i 0 + Δ + k * fs)

/-- Power and scale (R157): scaling every sample of a burst by one non-zero constant adds its power to the level and
leaves the deviations, and so the crop, the interior and the flatness check, unchanged. -/
def Obligations.PowerProfileIgnoresScale : Prop :=
  ∀ (num : Numerics) (c : ℂ) (s : List ℂ), c ≠ 0 → s ≠ [] → (∀ z ∈ s, z ≠ 0) →
    level (s.map (c * ·)) = level s + dB c ∧ deviations (s.map (c * ·)) = deviations s ∧
    cropStart num (s.map (c * ·)) = cropStart num s ∧ cropEnd num (s.map (c * ·)) = cropEnd num s

/-- The interior of a burst the SB unit queues is never too short (R154 with 95_test_vectors.md PD-6): at least half the
samples are at or above the median, so the crop spans at least 100 samples. -/
def Obligations.InteriorIsNeverTooShort : Prop :=
  ∀ s : List ℂ, 200 ≤ s.length →
    cropStart .exactReals s + 99 ≤ cropEnd .exactReals s ∧
    ¬ interiorTooShort (cropStart .exactReals s) (cropEnd .exactReals s)

/-- The symbol offset lies in one symbol period (R183). -/
def Obligations.SymbolOffsetIsInOnePeriod : Prop :=
  ∀ (t : ℝ) (c : ℂ), 0 < t → 0 ≤ symbolOffset t c ∧ symbolOffset t c < t ∧
    ∃ k : ℤ, symbolOffset t c = -(Complex.arg c) * t / (2 * Real.pi) + k * t

/-- The interpolator passes through the original samples (R185): `y[8·i] = f[i]`. -/
def Obligations.InterpolatorPassesThroughTheSamples : Prop :=
  ∀ (f : List ℝ) (i : Nat), i < f.length → interpolated f (8 * i) = f.getD i 0

/-- The sampling grid (R186): the indices are `q_k = rnd(8·(n0 + k·T))` for `k = 0, 1, ...`, strictly rising, as long as
they are inside `y`. -/
def Obligations.SamplingGrid : Prop :=
  ∀ (n0 t : ℝ) (l : Nat), 0 ≤ n0 → 2 ≤ t →
    (gridIndices .exactReals n0 t l).Pairwise (· < ·) ∧
    ∃ K : Nat, (gridIndices .exactReals n0 t l).length = K ∧
      (∀ k, k < K → (gridIndices .exactReals n0 t l).getD k 0 = ⌊8 * (n0 + k * t) + 1 / 2⌋ ∧
        ⌊8 * (n0 + k * t) + 1 / 2⌋ ≤ (l : ℤ) - 1) ∧
      (l : ℤ) - 1 < ⌊8 * (n0 + K * t) + 1 / 2⌋

/-- A burst whose samples are all the same sample fails the lock check (R182: a constant tone fails), and its power
level is that sample's (R151), rounded to binary32 (R94; at zero, subnormals and overflow as log entry 11 says). -/
def Obligations.ConstantBurstFailsTheLock : Prop :=
  ∀ (p : Params) (z : Sample) (n : Nat), p.numerics = .exactReals → 200 ≤ n → z.toComplex ≠ 0 →
    demodulate p (List.replicate n z) = .fail .clockLockFailed (roundB32 (dB z.toComplex))

/-- LEADING-BIT COMPENSATION (R189). -/
def Obligations.LeadingBitCompensation : Prop :=
  ∀ b : Bits,
    (∀ c, b = [false, true, false, true, false, true, false, true] ++ c → compensate b = (true :: b, true)) ∧
    ((∀ c, b ≠ [false, true, false, true, false, true, false, true] ++ c) → compensate b = (b, false))

/-! ### The modulator -/

/-- The transmit chain, values and lengths (R255 to R261, R263). Values: bit 0 is the symbol +1 and bit 1 is −1, each held for
8 samples; the shaped signal is their convolution with the Gaussian taps, the phase the scaled inclusive sum of that, and
the filtered signal the convolution of `exp(jφ)` with the filter's taps; under exact arithmetic a frame is modulated exactly
when no component exceeds 1, to its quantised components, which the beats carry in order. Lengths: a frame of `nb` bits
gives `8·nb` held samples, `8·nb + 16` shaped ones and `8·nb + 30` filtered ones; a short command gives 678 beats and 1356
bytes, a property command 806 beats and 1612 bytes. -/
def Obligations.BeatCounts : Prop :=
  ∀ (p : Params),
    (∀ (fr : Bits) (n : Nat), n < 8 * fr.length →
      (upsample (symbols fr)).getD n 0 = if fr.getD (n / 8) false then -1 else 1) ∧
    (∀ (fr : Bits) (n : Nat), n < 8 * fr.length + 16 →
      (shaped p fr).getD n 0 = ∑ t, p.gaussTaps t * if (t : ℕ) ≤ n then (upsample (symbols fr)).getD (n - t) 0 else 0) ∧
    (∀ (g : List ℝ) (n : Nat), n < g.length →
      (phases p g).getD n 0 = 2 * Real.pi * (p.fDevTx / 2000000) * ∑ m ∈ Finset.range (n + 1), g.getD m 0) ∧
    (∀ (fr : Bits) (n : Nat), n < 8 * fr.length + 30 →
      (filtered p fr).getD n 0 = ∑ t, (p.lpfTaps t : ℂ) *
        if (t : ℕ) ≤ n ∧ n - t < 8 * fr.length + 16 then
          Complex.exp (Complex.I * ((phases p (shaped p fr)).getD (n - t) 0 : ℝ))
        else 0) ∧
    (∀ (fr : Bits) (v : List (ℤ × ℤ)), p.numerics = .exactReals →
      (modulation p fr = some v ↔
        (∀ w ∈ filtered p fr, |w.re| ≤ 1 ∧ |w.im| ≤ 1) ∧
        v = (filtered p fr).map fun w => (quantise p w.re, quantise p w.im))) ∧
    (∀ (v : List (ℤ × ℤ)) (n : Nat) (w : ℤ × ℤ), v[n]? = some w →
      (beatsOf v)[n]? = some ⟨BitVec.ofInt 8 w.1, BitVec.ofInt 8 w.2, decide (n + 1 = v.length)⟩) ∧
    (∀ fr : Bits, (upsample (symbols fr)).length = 8 * fr.length ∧ (shaped p fr).length = 8 * fr.length + 16 ∧
      (filtered p fr).length = 8 * fr.length + 30) ∧
    (∀ w c v, modulation p (frameShortBits w c) = some v →
      (beatsOf v).length = 678 ∧ ((beatsOf v).flatMap TxBeat.bytes).length = 1356) ∧
    (∀ w a b c v, modulation p (framePropBits w a b c) = some v →
      (beatsOf v).length = 806 ∧ ((beatsOf v).flatMap TxBeat.bytes).length = 1612)

/-- A sufficient condition for the peak check (R260): when the absolute values of the channel filter's taps sum to at most
1, no frame fails it. -/
def Obligations.PeakCheckPassesWhenTapsSumToOne : Prop :=
  ∀ (p : Params) (fr : Bits), p.numerics = .exactReals → ∑ t, |p.lpfTaps t| ≤ 1 →
    peakOk p.numerics (filtered p fr)

/-- Quantisation (R261): toward zero, or to the nearest with halves away from zero, of `127·v`. -/
def Obligations.QuantiserRounds : Prop :=
  ∀ (p : Params) (v : ℝ), p.numerics = .exactReals →
    (p.quantMode = .trunc → |(quantise p v : ℝ)| ≤ |127 * v| ∧ |127 * v| < |(quantise p v : ℝ)| + 1 ∧
      0 ≤ (quantise p v : ℝ) * v) ∧
    (p.quantMode = .nearest → |(quantise p v : ℝ)| ≤ |127 * v| + 1 / 2 ∧ |127 * v| < |(quantise p v : ℝ)| + 1 / 2 ∧
      0 ≤ (quantise p v : ℝ) * v)

/-- The value −128 never appears on the TX port (R83), in any arithmetic: no modulated frame holds it, its components having
a magnitude of at most 127, and no step brings it into the TX output queue or lets it through to the sink. -/
def Obligations.MinusOneHundredTwentyEightNeverAppears : Prop :=
  (∀ (p : Params) (fr : Bits) (v : List (ℤ × ℤ)), modulation p fr = some v →
    (∀ w ∈ v, |w.1| ≤ 127 ∧ |w.2| ≤ 127) ∧ (∀ b ∈ beatsOf v, b.i ≠ 0x80 ∧ b.q ≠ 0x80)) ∧
  (∀ (p : Params) (s t : State), (∀ b ∈ s.txOut ++ s.sinkOut, b.i ≠ 0x80 ∧ b.q ≠ 0x80) →
    stepWith p exec s = .next t → ∀ b ∈ t.txOut ++ t.sinkOut, b.i ≠ 0x80 ∧ b.q ≠ 0x80)

/-- TAKE BEAT (R262): the sink's turn takes the head beat, if one is offered; a frame's last beat ends the stream and sets
`TX_DONE`. (The turns are the model's way to interleave the agents, log entry 1.) -/
def Obligations.SinkTakesTheHeadBeat : Prop :=
  ∀ (p : Params) (run : Instr → State → Result) (s : State) (ts : List Turn),
    s.inflight = none → s.turns = .sink :: ts →
      stepWith p run s = .next (
        match s.txOut with
        | [] => { s with turns := ts }
        | b :: rest =>
          if b.last then
            { s with turns := ts, txOut := rest, sinkOut := s.sinkOut ++ [b], txPhase := .idle, txDone := true }
          else { s with turns := ts, txOut := rest, sinkOut := s.sinkOut ++ [b] })

/-- Taking a frame (R262): its beats leave in order, the last one ends the stream and sets `TX_DONE`, and nothing else
changes. -/
def Obligations.FrameIsTakenBeatByBeat : Prop :=
  ∀ (s : State) (v : List (ℤ × ℤ)), s.txOut = beatsOf v → v ≠ [] →
    State.takeMany v.length s =
      { s with txOut := [], sinkOut := s.sinkOut ++ beatsOf v, txPhase := .idle, txDone := true }

/-! ### The whole demodulator -/

open Classical in
/-- The demodulator as one list of steps and checks in the fixed order of R190 and R319 (1 to 4), under exact arithmetic:
power and median level (R150, R151), normalised power (R152), re-crop (R153), interior (R154), flatness (R155), the
discriminator (R170), the clock correlation (R181) and its window (R182), the values on the symbol grid, the depth check
(R187), the bits (R188, R189), and in every case the level as binary32 (R94, log entry 11). The symbol offset, the grid and
the interpolator are those of SymbolOffsetIsInOnePeriod, SamplingGrid and InterpolatorPassesThroughTheSamples. -/
def Obligations.DemodulatorChecksInOrder : Prop :=
  ∀ (p : Params) (s : List Sample), p.numerics = .exactReals →
    let avg := fun v : List ℝ => v.sum / v.length
    let std := fun v : List ℝ => √(avg (v.map fun x => (x - avg v) ^ 2))
    let z := s.map Sample.toComplex
    let P := z.map fun w => 10 * Real.logb 10 (w.re ^ 2 + w.im ^ 2)
    let sorted := P.insertionSort (· ≤ ·)
    let lvl :=
      if P.length % 2 = 1 then sorted.getD (P.length / 2) 0
      else (sorted.getD (P.length / 2 - 1) 0 + sorted.getD (P.length / 2) 0) / 2
    let dev := P.map fun x => x - lvl
    let crop := (List.range dev.length).filter fun n => decide (-20 < dev.getD n 0)
    let s0 := crop.headD 0
    let e0 := crop.getLastD 0
    let inner := (z.drop (s0 + 3)).take (e0 + 1 - s0 - 6)
    let innerDev := (dev.drop (s0 + 3)).take (e0 + 1 - s0 - 6)
    let f := inner.zipWith (fun a b => Complex.arg (b * starRingEnd ℂ a) * p.fsRx / (2 * Real.pi)) inner.tail
    let C := (1 / (f.length : ℂ)) * ∑ i ∈ Finset.range f.length,
      ((|f.getD i 0| : ℝ) : ℂ) * Complex.exp (-Complex.I * 2 * Real.pi * 250000 * i / p.fsRx)
    let period := p.fsRx / 250000
    let v := (gridIndices .exactReals (symbolOffset period C) period (8 * f.length)).map (interpolated f)
    let a := v.map fun x => |x|
    demodulate p s =
      if e0 < s0 + 7 then .fail .powerProfileInvalid (roundB32 lvl)
      else if ¬((∀ x ∈ innerDev, |x| < 3) ∧ std innerDev < 0.75) then .fail .powerProfileInvalid (roundB32 lvl)
      else if ¬(30000 < ‖C‖ ∧ ‖C‖ < 50000) then .fail .clockLockFailed (roundB32 lvl)
      else if ¬(v ≠ [] ∧ 120000 < avg a ∧ avg a < 180000 ∧ std a < 75000) then
        .fail .modulationDepthInvalid (roundB32 lvl)
      else .ok (roundB32 lvl) (compensate (v.map fun x => decide (x < 0))).1 (compensate (v.map fun x => decide (x < 0))).2
end

