-- ==== Sys2Proof/Laws/Decode.lean ====
section
/-! SUPPORT. What the two decoders can answer. -/

namespace Sys2Proof

theorem bind_eq_ok {ε α β : Type} {x : Except ε α} {f : α → Except ε β} {b : β} :
    x.bind f = .ok b ↔ ∃ a, x = .ok a ∧ f a = .ok b := by
  cases x <;> simp [Except.bind]

theorem bind_ok {ε α β : Type} (a : α) (f : α → Except ε β) : (Except.ok a).bind f = f a := rfl

theorem bind_error {ε α β : Type} (e : ε) (f : α → Except ε β) : (Except.error e).bind f = .error e := rfl

/-! ### Fields of a frame -/

theorem takeField_ok {n : Nat} {b : Bits} (h : n ≤ b.length) : takeField n b = .ok (b.take n, b.drop n) := by
  simp [takeField, Nat.not_lt.mpr h]

theorem takeField_short {n : Nat} {b : Bits} (h : b.length < n) : takeField n b = .error .frameTruncated := by
  simp [takeField, h]

theorem takeField_append (a b : Bits) : takeField a.length (a ++ b) = .ok (a, b) := by
  rw [takeField_ok (by simp)]
  simp

/-- A field is taken exactly when the bits are there (R210). -/
theorem takeField_eq_ok {n : Nat} {b x y : Bits} :
    takeField n b = .ok (x, y) ↔ n ≤ b.length ∧ x = b.take n ∧ y = b.drop n := by
  by_cases h : n ≤ b.length
  · simp [takeField_ok h, h, eq_comm]
  · simp [takeField_short (Nat.lt_of_not_le h), h]

/-- The two kinds of frame are all a bit string can hold (R215). -/
theorem decodeFrame_ok {b : Bits} {i : Instr} (h : decodeFrame b = .ok i) :
    (∃ wid cmd, i = .frameShort wid cmd) ∨ (∃ wid tg pid x, i = .frameProp wid tg pid x) := by
  simp only [decodeFrame, bind_eq_ok, Prod.exists] at h
  obtain ⟨wid, b, -, t, b', -, h⟩ := h
  split at h
  · simp only [takeShort, bind_eq_ok, Prod.exists] at h
    obtain ⟨cmd, _, -, _, -, h⟩ := h
    exact .inl ⟨_, _, (Except.ok.inj h).symm⟩
  · split at h
    · simp only [takeProp, bind_eq_ok, Prod.exists] at h
      obtain ⟨_, _, -, _, _, -, _, _, -, _, -, h⟩ := h
      exact .inr ⟨_, _, _, _, (Except.ok.inj h).symm⟩
    · cases h

/-- A command word holds a NOP or a transmit command (R103). -/
theorem decodeCommand_ok {w : Word} {i : Instr} (h : decodeCommand w = .ok i) :
    (∃ operands, i = .nop operands) ∨ (∃ c, i = .txs c) ∨ (∃ a b c, i = .txp a b c) := by
  simp only [decodeCommand] at h
  split at h
  · exact .inl ⟨_, (Except.ok.inj h).symm⟩
  · split at h
    · split at h
      · cases h
      · exact .inr (.inl ⟨_, (Except.ok.inj h).symm⟩)
    · split at h
      · exact .inr (.inr ⟨_, _, _, (Except.ok.inj h).symm⟩)
      · cases h

/-! ### Lengths -/

@[simp] theorem bitsOf_length {n : Nat} (v : BitVec n) : (bitsOf v).length = n := by simp [bitsOf]

theorem bytesToBits_length (bs : List Byte) : (bytesToBits bs).length = 8 * bs.length := by
  induction bs with
  | nil => rfl
  | cons b bs ih => simp [bytesToBits] at ih ⊢; omega

@[simp] theorem preamble_length : preamble.length = 32 := rfl

theorem frameOfPayload_length (bs : List Byte) : (frameOfPayload bs).length = 33 + 8 * bs.length := by
  simp [frameOfPayload, bytesToBits_length]; omega

end Sys2Proof
end

