-- ==== Sys2Proof/Laws/Numerics.lean ====
section
/-! SUPPORT. What `realize` and the threshold tests say: the plain datum of an exact definition is that definition, and
under exact reals a test is the comparison. -/

namespace Sys2Proof

@[simp] theorem Numerics.lt_exactReals (t : Threshold) (x y : ℝ) : Numerics.lt .exactReals t x y = (x < y) := rfl

@[simp] theorem Numerics.floor_exactReals (t : Threshold) (x : ℝ) : Numerics.floor .exactReals t x = ⌊x⌋ := rfl

@[simp] theorem Numerics.quantFloor_exactReals (y : ℝ) : Numerics.quantFloor .exactReals y = ⌊y⌋ := rfl

/-- A quantised magnitude is never negative, in any arithmetic. -/
theorem Numerics.quantFloor_nonneg (num : Numerics) {y : ℝ} (hy : 0 ≤ y) : 0 ≤ num.quantFloor y := by
  have hf : 0 ≤ ⌊y⌋ := Int.floor_nonneg.mpr hy
  cases num with
  | exactReals => exact hf
  | rounded err pick =>
    refine le_min (by decide) ?_
    split
    · exact hf
    · simp only [Numerics.floor]
      split_ifs <;> omega

/-- A magnitude at most 127, up to the half that `NEAREST` adds, quantises to at most 127; under another arithmetic than
exact reals every magnitude does (R83, R261). -/
theorem Numerics.quantFloor_le (num : Numerics) {y : ℝ} (hy : num = .exactReals → y < 128) : num.quantFloor y ≤ 127 := by
  cases num with
  | exactReals =>
    have : ⌊y⌋ < 128 := Int.floor_lt.mpr (by exact_mod_cast hy rfl)
    simp only [quantFloor_exactReals]
    omega
  | rounded err pick => exact min_le_left _ _

namespace Machine

/-- `realize` gives the datum an exact definition names. -/
theorem realize_eq {α : Type} [Encodable α] (x : α) : realize (fun y => y = x) ⟨x, rfl⟩ = x :=
  @Encodable.choose_spec α (fun y => y = x) _ (fun y => decideExact (y = x)) ⟨x, rfl⟩

theorem modulate_eq (p : Params) (fr : Bits) : modulate p fr = modulation p fr := realize_eq _

theorem slicerOutcome_eq (p : Params) (s : List Sample) :
    slicerOutcome p s = sliceBurst p (s.map Sample.toComplex) := realize_eq _

theorem powerWord_eq (s : List Sample) : powerWord s = roundB32 (level (s.map Sample.toComplex)) := by
  simp [powerWord, realize_eq]

/-- What the demodulator gives is its slicer's outcome, with the level in either case (R190). -/
theorem demodulate_eq (p : Params) (s : List Sample) :
    demodulate p s =
      match sliceBurst p (s.map Sample.toComplex) with
      | .failed code => .fail code (roundB32 (level (s.map Sample.toComplex)))
      | .bits b => .ok (roundB32 (level (s.map Sample.toComplex))) (compensate b).1 (compensate b).2 := by
  cases h : sliceBurst p (s.map Sample.toComplex) <;> simp only [demodulate, slicerOutcome_eq, powerWord_eq, h]

end Machine

end Sys2Proof
end

