-- ==== Sys2Proof/Laws/State.lean ====
section
/-! SUPPORT. One lemma per field per named update of the state, so that no later proof unfolds a record update. -/

namespace Sys2Proof.Machine

variable (s : State)

/-! ### raise .txDone -/

@[simp] theorem raise_txDone_win : (s.raise .txDone).win = s.win := rfl
@[simp] theorem raise_txDone_count : (s.raise .txDone).count = s.count := rfl
@[simp] theorem raise_txDone_discard : (s.raise .txDone).discard = s.discard := rfl
@[simp] theorem raise_txDone_prevEnd : (s.raise .txDone).prevEnd = s.prevEnd := rfl
@[simp] theorem raise_txDone_pending : (s.raise .txDone).pending = s.pending := rfl
@[simp] theorem raise_txDone_rxPhase : (s.raise .txDone).rxPhase = s.rxPhase := rfl
@[simp] theorem raise_txDone_rfifo : (s.raise .txDone).rfifo = s.rfifo := rfl
@[simp] theorem raise_txDone_rdIdx : (s.raise .txDone).rdIdx = s.rdIdx := rfl
@[simp] theorem raise_txDone_txPhase : (s.raise .txDone).txPhase = s.txPhase := rfl
@[simp] theorem raise_txDone_txOut : (s.raise .txDone).txOut = s.txOut := rfl
@[simp] theorem raise_txDone_rxEn : (s.raise .txDone).rxEn = s.rxEn := rfl
@[simp] theorem raise_txDone_txDone : (s.raise .txDone).txDone = true := rfl
@[simp] theorem raise_txDone_cmdErr : (s.raise .txDone).cmdErr = s.cmdErr := rfl
@[simp] theorem raise_txDone_ovf : (s.raise .txDone).ovf = s.ovf := rfl
@[simp] theorem raise_txDone_eosFatal : (s.raise .txDone).eosFatal = s.eosFatal := rfl
@[simp] theorem raise_txDone_txFatal : (s.raise .txDone).txFatal = s.txFatal := rfl
@[simp] theorem raise_txDone_irqEn : (s.raise .txDone).irqEn = s.irqEn := rfl
@[simp] theorem raise_txDone_txChannel : (s.raise .txDone).txChannel = s.txChannel := rfl
@[simp] theorem raise_txDone_scShadow : (s.raise .txDone).scShadow = s.scShadow := rfl
@[simp] theorem raise_txDone_inflight : (s.raise .txDone).inflight = s.inflight := rfl
@[simp] theorem raise_txDone_turns : (s.raise .txDone).turns = s.turns := rfl
@[simp] theorem raise_txDone_busIn : (s.raise .txDone).busIn = s.busIn := rfl
@[simp] theorem raise_txDone_portIn : (s.raise .txDone).portIn = s.portIn := rfl
@[simp] theorem raise_txDone_eosIn : (s.raise .txDone).eosIn = s.eosIn := rfl
@[simp] theorem raise_txDone_busOut : (s.raise .txDone).busOut = s.busOut := rfl
@[simp] theorem raise_txDone_sinkOut : (s.raise .txDone).sinkOut = s.sinkOut := rfl
@[simp] theorem raise_txDone_recordsOut : (s.raise .txDone).recordsOut = s.recordsOut := rfl

/-! ### raise .cmdErr -/

@[simp] theorem raise_cmdErr_win : (s.raise .cmdErr).win = s.win := rfl
@[simp] theorem raise_cmdErr_count : (s.raise .cmdErr).count = s.count := rfl
@[simp] theorem raise_cmdErr_discard : (s.raise .cmdErr).discard = s.discard := rfl
@[simp] theorem raise_cmdErr_prevEnd : (s.raise .cmdErr).prevEnd = s.prevEnd := rfl
@[simp] theorem raise_cmdErr_pending : (s.raise .cmdErr).pending = s.pending := rfl
@[simp] theorem raise_cmdErr_rxPhase : (s.raise .cmdErr).rxPhase = s.rxPhase := rfl
@[simp] theorem raise_cmdErr_rfifo : (s.raise .cmdErr).rfifo = s.rfifo := rfl
@[simp] theorem raise_cmdErr_rdIdx : (s.raise .cmdErr).rdIdx = s.rdIdx := rfl
@[simp] theorem raise_cmdErr_txPhase : (s.raise .cmdErr).txPhase = s.txPhase := rfl
@[simp] theorem raise_cmdErr_txOut : (s.raise .cmdErr).txOut = s.txOut := rfl
@[simp] theorem raise_cmdErr_rxEn : (s.raise .cmdErr).rxEn = s.rxEn := rfl
@[simp] theorem raise_cmdErr_txDone : (s.raise .cmdErr).txDone = s.txDone := rfl
@[simp] theorem raise_cmdErr_cmdErr : (s.raise .cmdErr).cmdErr = true := rfl
@[simp] theorem raise_cmdErr_ovf : (s.raise .cmdErr).ovf = s.ovf := rfl
@[simp] theorem raise_cmdErr_eosFatal : (s.raise .cmdErr).eosFatal = s.eosFatal := rfl
@[simp] theorem raise_cmdErr_txFatal : (s.raise .cmdErr).txFatal = s.txFatal := rfl
@[simp] theorem raise_cmdErr_irqEn : (s.raise .cmdErr).irqEn = s.irqEn := rfl
@[simp] theorem raise_cmdErr_txChannel : (s.raise .cmdErr).txChannel = s.txChannel := rfl
@[simp] theorem raise_cmdErr_scShadow : (s.raise .cmdErr).scShadow = s.scShadow := rfl
@[simp] theorem raise_cmdErr_inflight : (s.raise .cmdErr).inflight = s.inflight := rfl
@[simp] theorem raise_cmdErr_turns : (s.raise .cmdErr).turns = s.turns := rfl
@[simp] theorem raise_cmdErr_busIn : (s.raise .cmdErr).busIn = s.busIn := rfl
@[simp] theorem raise_cmdErr_portIn : (s.raise .cmdErr).portIn = s.portIn := rfl
@[simp] theorem raise_cmdErr_eosIn : (s.raise .cmdErr).eosIn = s.eosIn := rfl
@[simp] theorem raise_cmdErr_busOut : (s.raise .cmdErr).busOut = s.busOut := rfl
@[simp] theorem raise_cmdErr_sinkOut : (s.raise .cmdErr).sinkOut = s.sinkOut := rfl
@[simp] theorem raise_cmdErr_recordsOut : (s.raise .cmdErr).recordsOut = s.recordsOut := rfl

/-! ### raise .ovf -/

@[simp] theorem raise_ovf_win : (s.raise .ovf).win = s.win := rfl
@[simp] theorem raise_ovf_count : (s.raise .ovf).count = s.count := rfl
@[simp] theorem raise_ovf_discard : (s.raise .ovf).discard = s.discard := rfl
@[simp] theorem raise_ovf_prevEnd : (s.raise .ovf).prevEnd = s.prevEnd := rfl
@[simp] theorem raise_ovf_pending : (s.raise .ovf).pending = s.pending := rfl
@[simp] theorem raise_ovf_rxPhase : (s.raise .ovf).rxPhase = s.rxPhase := rfl
@[simp] theorem raise_ovf_rfifo : (s.raise .ovf).rfifo = s.rfifo := rfl
@[simp] theorem raise_ovf_rdIdx : (s.raise .ovf).rdIdx = s.rdIdx := rfl
@[simp] theorem raise_ovf_txPhase : (s.raise .ovf).txPhase = s.txPhase := rfl
@[simp] theorem raise_ovf_txOut : (s.raise .ovf).txOut = s.txOut := rfl
@[simp] theorem raise_ovf_rxEn : (s.raise .ovf).rxEn = s.rxEn := rfl
@[simp] theorem raise_ovf_txDone : (s.raise .ovf).txDone = s.txDone := rfl
@[simp] theorem raise_ovf_cmdErr : (s.raise .ovf).cmdErr = s.cmdErr := rfl
@[simp] theorem raise_ovf_ovf : (s.raise .ovf).ovf = true := rfl
@[simp] theorem raise_ovf_eosFatal : (s.raise .ovf).eosFatal = s.eosFatal := rfl
@[simp] theorem raise_ovf_txFatal : (s.raise .ovf).txFatal = s.txFatal := rfl
@[simp] theorem raise_ovf_irqEn : (s.raise .ovf).irqEn = s.irqEn := rfl
@[simp] theorem raise_ovf_txChannel : (s.raise .ovf).txChannel = s.txChannel := rfl
@[simp] theorem raise_ovf_scShadow : (s.raise .ovf).scShadow = s.scShadow := rfl
@[simp] theorem raise_ovf_inflight : (s.raise .ovf).inflight = s.inflight := rfl
@[simp] theorem raise_ovf_turns : (s.raise .ovf).turns = s.turns := rfl
@[simp] theorem raise_ovf_busIn : (s.raise .ovf).busIn = s.busIn := rfl
@[simp] theorem raise_ovf_portIn : (s.raise .ovf).portIn = s.portIn := rfl
@[simp] theorem raise_ovf_eosIn : (s.raise .ovf).eosIn = s.eosIn := rfl
@[simp] theorem raise_ovf_busOut : (s.raise .ovf).busOut = s.busOut := rfl
@[simp] theorem raise_ovf_sinkOut : (s.raise .ovf).sinkOut = s.sinkOut := rfl
@[simp] theorem raise_ovf_recordsOut : (s.raise .ovf).recordsOut = s.recordsOut := rfl

/-! ### raise .eosFatal -/

@[simp] theorem raise_eosFatal_win : (s.raise .eosFatal).win = s.win := rfl
@[simp] theorem raise_eosFatal_count : (s.raise .eosFatal).count = s.count := rfl
@[simp] theorem raise_eosFatal_discard : (s.raise .eosFatal).discard = s.discard := rfl
@[simp] theorem raise_eosFatal_prevEnd : (s.raise .eosFatal).prevEnd = s.prevEnd := rfl
@[simp] theorem raise_eosFatal_pending : (s.raise .eosFatal).pending = s.pending := rfl
@[simp] theorem raise_eosFatal_rxPhase : (s.raise .eosFatal).rxPhase = .halted := rfl
@[simp] theorem raise_eosFatal_rfifo : (s.raise .eosFatal).rfifo = s.rfifo := rfl
@[simp] theorem raise_eosFatal_rdIdx : (s.raise .eosFatal).rdIdx = s.rdIdx := rfl
@[simp] theorem raise_eosFatal_txPhase : (s.raise .eosFatal).txPhase = s.txPhase := rfl
@[simp] theorem raise_eosFatal_txOut : (s.raise .eosFatal).txOut = s.txOut := rfl
@[simp] theorem raise_eosFatal_rxEn : (s.raise .eosFatal).rxEn = s.rxEn := rfl
@[simp] theorem raise_eosFatal_txDone : (s.raise .eosFatal).txDone = s.txDone := rfl
@[simp] theorem raise_eosFatal_cmdErr : (s.raise .eosFatal).cmdErr = s.cmdErr := rfl
@[simp] theorem raise_eosFatal_ovf : (s.raise .eosFatal).ovf = s.ovf := rfl
@[simp] theorem raise_eosFatal_eosFatal : (s.raise .eosFatal).eosFatal = true := rfl
@[simp] theorem raise_eosFatal_txFatal : (s.raise .eosFatal).txFatal = s.txFatal := rfl
@[simp] theorem raise_eosFatal_irqEn : (s.raise .eosFatal).irqEn = s.irqEn := rfl
@[simp] theorem raise_eosFatal_txChannel : (s.raise .eosFatal).txChannel = s.txChannel := rfl
@[simp] theorem raise_eosFatal_scShadow : (s.raise .eosFatal).scShadow = s.scShadow := rfl
@[simp] theorem raise_eosFatal_inflight : (s.raise .eosFatal).inflight = s.inflight := rfl
@[simp] theorem raise_eosFatal_turns : (s.raise .eosFatal).turns = s.turns := rfl
@[simp] theorem raise_eosFatal_busIn : (s.raise .eosFatal).busIn = s.busIn := rfl
@[simp] theorem raise_eosFatal_portIn : (s.raise .eosFatal).portIn = s.portIn := rfl
@[simp] theorem raise_eosFatal_eosIn : (s.raise .eosFatal).eosIn = s.eosIn := rfl
@[simp] theorem raise_eosFatal_busOut : (s.raise .eosFatal).busOut = s.busOut := rfl
@[simp] theorem raise_eosFatal_sinkOut : (s.raise .eosFatal).sinkOut = s.sinkOut := rfl
@[simp] theorem raise_eosFatal_recordsOut : (s.raise .eosFatal).recordsOut = s.recordsOut := rfl

/-! ### raise .txFatal -/

@[simp] theorem raise_txFatal_win : (s.raise .txFatal).win = s.win := rfl
@[simp] theorem raise_txFatal_count : (s.raise .txFatal).count = s.count := rfl
@[simp] theorem raise_txFatal_discard : (s.raise .txFatal).discard = s.discard := rfl
@[simp] theorem raise_txFatal_prevEnd : (s.raise .txFatal).prevEnd = s.prevEnd := rfl
@[simp] theorem raise_txFatal_pending : (s.raise .txFatal).pending = s.pending := rfl
@[simp] theorem raise_txFatal_rxPhase : (s.raise .txFatal).rxPhase = s.rxPhase := rfl
@[simp] theorem raise_txFatal_rfifo : (s.raise .txFatal).rfifo = s.rfifo := rfl
@[simp] theorem raise_txFatal_rdIdx : (s.raise .txFatal).rdIdx = s.rdIdx := rfl
@[simp] theorem raise_txFatal_txPhase : (s.raise .txFatal).txPhase = .halted := rfl
@[simp] theorem raise_txFatal_txOut : (s.raise .txFatal).txOut = s.txOut := rfl
@[simp] theorem raise_txFatal_rxEn : (s.raise .txFatal).rxEn = s.rxEn := rfl
@[simp] theorem raise_txFatal_txDone : (s.raise .txFatal).txDone = s.txDone := rfl
@[simp] theorem raise_txFatal_cmdErr : (s.raise .txFatal).cmdErr = s.cmdErr := rfl
@[simp] theorem raise_txFatal_ovf : (s.raise .txFatal).ovf = s.ovf := rfl
@[simp] theorem raise_txFatal_eosFatal : (s.raise .txFatal).eosFatal = s.eosFatal := rfl
@[simp] theorem raise_txFatal_txFatal : (s.raise .txFatal).txFatal = true := rfl
@[simp] theorem raise_txFatal_irqEn : (s.raise .txFatal).irqEn = s.irqEn := rfl
@[simp] theorem raise_txFatal_txChannel : (s.raise .txFatal).txChannel = s.txChannel := rfl
@[simp] theorem raise_txFatal_scShadow : (s.raise .txFatal).scShadow = s.scShadow := rfl
@[simp] theorem raise_txFatal_inflight : (s.raise .txFatal).inflight = s.inflight := rfl
@[simp] theorem raise_txFatal_turns : (s.raise .txFatal).turns = s.turns := rfl
@[simp] theorem raise_txFatal_busIn : (s.raise .txFatal).busIn = s.busIn := rfl
@[simp] theorem raise_txFatal_portIn : (s.raise .txFatal).portIn = s.portIn := rfl
@[simp] theorem raise_txFatal_eosIn : (s.raise .txFatal).eosIn = s.eosIn := rfl
@[simp] theorem raise_txFatal_busOut : (s.raise .txFatal).busOut = s.busOut := rfl
@[simp] theorem raise_txFatal_sinkOut : (s.raise .txFatal).sinkOut = s.sinkOut := rfl
@[simp] theorem raise_txFatal_recordsOut : (s.raise .txFatal).recordsOut = s.recordsOut := rfl

/-! ### acknowledge -/

@[simp] theorem acknowledge_win (v : Word) : (s.acknowledge v).win = s.win := rfl
@[simp] theorem acknowledge_count (v : Word) : (s.acknowledge v).count = s.count := rfl
@[simp] theorem acknowledge_discard (v : Word) : (s.acknowledge v).discard = s.discard := rfl
@[simp] theorem acknowledge_prevEnd (v : Word) : (s.acknowledge v).prevEnd = s.prevEnd := rfl
@[simp] theorem acknowledge_pending (v : Word) : (s.acknowledge v).pending = s.pending := rfl
@[simp] theorem acknowledge_rxPhase (v : Word) : (s.acknowledge v).rxPhase = s.rxPhase := rfl
@[simp] theorem acknowledge_rfifo (v : Word) : (s.acknowledge v).rfifo = s.rfifo := rfl
@[simp] theorem acknowledge_rdIdx (v : Word) : (s.acknowledge v).rdIdx = s.rdIdx := rfl
@[simp] theorem acknowledge_txPhase (v : Word) : (s.acknowledge v).txPhase = s.txPhase := rfl
@[simp] theorem acknowledge_txOut (v : Word) : (s.acknowledge v).txOut = s.txOut := rfl
@[simp] theorem acknowledge_rxEn (v : Word) : (s.acknowledge v).rxEn = s.rxEn := rfl
@[simp] theorem acknowledge_txDone (v : Word) : (s.acknowledge v).txDone = (s.txDone && !v.getLsbD 3) := rfl
@[simp] theorem acknowledge_cmdErr (v : Word) : (s.acknowledge v).cmdErr = (s.cmdErr && !v.getLsbD 4) := rfl
@[simp] theorem acknowledge_ovf (v : Word) : (s.acknowledge v).ovf = (s.ovf && !v.getLsbD 5) := rfl
@[simp] theorem acknowledge_eosFatal (v : Word) : (s.acknowledge v).eosFatal = s.eosFatal := rfl
@[simp] theorem acknowledge_txFatal (v : Word) : (s.acknowledge v).txFatal = s.txFatal := rfl
@[simp] theorem acknowledge_irqEn (v : Word) : (s.acknowledge v).irqEn = s.irqEn := rfl
@[simp] theorem acknowledge_txChannel (v : Word) : (s.acknowledge v).txChannel = s.txChannel := rfl
@[simp] theorem acknowledge_scShadow (v : Word) : (s.acknowledge v).scShadow = s.scShadow := rfl
@[simp] theorem acknowledge_inflight (v : Word) : (s.acknowledge v).inflight = s.inflight := rfl
@[simp] theorem acknowledge_turns (v : Word) : (s.acknowledge v).turns = s.turns := rfl
@[simp] theorem acknowledge_busIn (v : Word) : (s.acknowledge v).busIn = s.busIn := rfl
@[simp] theorem acknowledge_portIn (v : Word) : (s.acknowledge v).portIn = s.portIn := rfl
@[simp] theorem acknowledge_eosIn (v : Word) : (s.acknowledge v).eosIn = s.eosIn := rfl
@[simp] theorem acknowledge_busOut (v : Word) : (s.acknowledge v).busOut = s.busOut := rfl
@[simp] theorem acknowledge_sinkOut (v : Word) : (s.acknowledge v).sinkOut = s.sinkOut := rfl
@[simp] theorem acknowledge_recordsOut (v : Word) : (s.acknowledge v).recordsOut = s.recordsOut := rfl

/-! ### blockReset -/

@[simp] theorem blockReset_win : (s.blockReset).win = State.reset.win := rfl
@[simp] theorem blockReset_count : (s.blockReset).count = State.reset.count := rfl
@[simp] theorem blockReset_discard : (s.blockReset).discard = State.reset.discard := rfl
@[simp] theorem blockReset_prevEnd : (s.blockReset).prevEnd = State.reset.prevEnd := rfl
@[simp] theorem blockReset_pending : (s.blockReset).pending = State.reset.pending := rfl
@[simp] theorem blockReset_rxPhase : (s.blockReset).rxPhase = State.reset.rxPhase := rfl
@[simp] theorem blockReset_rfifo : (s.blockReset).rfifo = State.reset.rfifo := rfl
@[simp] theorem blockReset_rdIdx : (s.blockReset).rdIdx = State.reset.rdIdx := rfl
@[simp] theorem blockReset_txPhase : (s.blockReset).txPhase = State.reset.txPhase := rfl
@[simp] theorem blockReset_txOut : (s.blockReset).txOut = State.reset.txOut := rfl
@[simp] theorem blockReset_rxEn : (s.blockReset).rxEn = State.reset.rxEn := rfl
@[simp] theorem blockReset_txDone : (s.blockReset).txDone = State.reset.txDone := rfl
@[simp] theorem blockReset_cmdErr : (s.blockReset).cmdErr = State.reset.cmdErr := rfl
@[simp] theorem blockReset_ovf : (s.blockReset).ovf = State.reset.ovf := rfl
@[simp] theorem blockReset_eosFatal : (s.blockReset).eosFatal = State.reset.eosFatal := rfl
@[simp] theorem blockReset_txFatal : (s.blockReset).txFatal = State.reset.txFatal := rfl
@[simp] theorem blockReset_irqEn : (s.blockReset).irqEn = State.reset.irqEn := rfl
@[simp] theorem blockReset_txChannel : (s.blockReset).txChannel = State.reset.txChannel := rfl
@[simp] theorem blockReset_scShadow : (s.blockReset).scShadow = State.reset.scShadow := rfl
@[simp] theorem blockReset_inflight : (s.blockReset).inflight = State.reset.inflight := rfl
@[simp] theorem blockReset_turns : (s.blockReset).turns = s.turns := rfl
@[simp] theorem blockReset_busIn : (s.blockReset).busIn = s.busIn := rfl
@[simp] theorem blockReset_portIn : (s.blockReset).portIn = s.portIn := rfl
@[simp] theorem blockReset_eosIn : (s.blockReset).eosIn = s.eosIn := rfl
@[simp] theorem blockReset_busOut : (s.blockReset).busOut = s.busOut := rfl
@[simp] theorem blockReset_sinkOut : (s.blockReset).sinkOut = s.sinkOut := rfl
@[simp] theorem blockReset_recordsOut : (s.blockReset).recordsOut = s.recordsOut := rfl

/-! ### reply -/

@[simp] theorem reply_win (r : BusReply) : (s.reply r).win = s.win := rfl
@[simp] theorem reply_count (r : BusReply) : (s.reply r).count = s.count := rfl
@[simp] theorem reply_discard (r : BusReply) : (s.reply r).discard = s.discard := rfl
@[simp] theorem reply_prevEnd (r : BusReply) : (s.reply r).prevEnd = s.prevEnd := rfl
@[simp] theorem reply_pending (r : BusReply) : (s.reply r).pending = s.pending := rfl
@[simp] theorem reply_rxPhase (r : BusReply) : (s.reply r).rxPhase = s.rxPhase := rfl
@[simp] theorem reply_rfifo (r : BusReply) : (s.reply r).rfifo = s.rfifo := rfl
@[simp] theorem reply_rdIdx (r : BusReply) : (s.reply r).rdIdx = s.rdIdx := rfl
@[simp] theorem reply_txPhase (r : BusReply) : (s.reply r).txPhase = s.txPhase := rfl
@[simp] theorem reply_txOut (r : BusReply) : (s.reply r).txOut = s.txOut := rfl
@[simp] theorem reply_rxEn (r : BusReply) : (s.reply r).rxEn = s.rxEn := rfl
@[simp] theorem reply_txDone (r : BusReply) : (s.reply r).txDone = s.txDone := rfl
@[simp] theorem reply_cmdErr (r : BusReply) : (s.reply r).cmdErr = s.cmdErr := rfl
@[simp] theorem reply_ovf (r : BusReply) : (s.reply r).ovf = s.ovf := rfl
@[simp] theorem reply_eosFatal (r : BusReply) : (s.reply r).eosFatal = s.eosFatal := rfl
@[simp] theorem reply_txFatal (r : BusReply) : (s.reply r).txFatal = s.txFatal := rfl
@[simp] theorem reply_irqEn (r : BusReply) : (s.reply r).irqEn = s.irqEn := rfl
@[simp] theorem reply_txChannel (r : BusReply) : (s.reply r).txChannel = s.txChannel := rfl
@[simp] theorem reply_scShadow (r : BusReply) : (s.reply r).scShadow = s.scShadow := rfl
@[simp] theorem reply_inflight (r : BusReply) : (s.reply r).inflight = s.inflight := rfl
@[simp] theorem reply_turns (r : BusReply) : (s.reply r).turns = s.turns := rfl
@[simp] theorem reply_busIn (r : BusReply) : (s.reply r).busIn = s.busIn := rfl
@[simp] theorem reply_portIn (r : BusReply) : (s.reply r).portIn = s.portIn := rfl
@[simp] theorem reply_eosIn (r : BusReply) : (s.reply r).eosIn = s.eosIn := rfl
@[simp] theorem reply_busOut (r : BusReply) : (s.reply r).busOut = s.busOut ++ [r] := rfl
@[simp] theorem reply_sinkOut (r : BusReply) : (s.reply r).sinkOut = s.sinkOut := rfl
@[simp] theorem reply_recordsOut (r : BusReply) : (s.reply r).recordsOut = s.recordsOut := rfl

/-! ### deliver -/

@[simp] theorem deliver_win (r : Record) : (s.deliver r).win = s.win := rfl
@[simp] theorem deliver_count (r : Record) : (s.deliver r).count = s.count := rfl
@[simp] theorem deliver_discard (r : Record) : (s.deliver r).discard = s.discard := rfl
@[simp] theorem deliver_prevEnd (r : Record) : (s.deliver r).prevEnd = s.prevEnd := rfl
@[simp] theorem deliver_pending (r : Record) : (s.deliver r).pending = s.pending := rfl
@[simp] theorem deliver_rxPhase (r : Record) : (s.deliver r).rxPhase = (if s.rxPhase = .process ∧ s.pending = [] then .accept else s.rxPhase) := rfl
@[simp] theorem deliver_rfifo (r : Record) : (s.deliver r).rfifo = s.rfifo ++ [r] := rfl
@[simp] theorem deliver_rdIdx (r : Record) : (s.deliver r).rdIdx = s.rdIdx := rfl
@[simp] theorem deliver_txPhase (r : Record) : (s.deliver r).txPhase = s.txPhase := rfl
@[simp] theorem deliver_txOut (r : Record) : (s.deliver r).txOut = s.txOut := rfl
@[simp] theorem deliver_rxEn (r : Record) : (s.deliver r).rxEn = s.rxEn := rfl
@[simp] theorem deliver_txDone (r : Record) : (s.deliver r).txDone = s.txDone := rfl
@[simp] theorem deliver_cmdErr (r : Record) : (s.deliver r).cmdErr = s.cmdErr := rfl
@[simp] theorem deliver_ovf (r : Record) : (s.deliver r).ovf = s.ovf := rfl
@[simp] theorem deliver_eosFatal (r : Record) : (s.deliver r).eosFatal = s.eosFatal := rfl
@[simp] theorem deliver_txFatal (r : Record) : (s.deliver r).txFatal = s.txFatal := rfl
@[simp] theorem deliver_irqEn (r : Record) : (s.deliver r).irqEn = s.irqEn := rfl
@[simp] theorem deliver_txChannel (r : Record) : (s.deliver r).txChannel = s.txChannel := rfl
@[simp] theorem deliver_scShadow (r : Record) : (s.deliver r).scShadow = s.scShadow := rfl
@[simp] theorem deliver_inflight (r : Record) : (s.deliver r).inflight = none := rfl
@[simp] theorem deliver_turns (r : Record) : (s.deliver r).turns = s.turns := rfl
@[simp] theorem deliver_busIn (r : Record) : (s.deliver r).busIn = s.busIn := rfl
@[simp] theorem deliver_portIn (r : Record) : (s.deliver r).portIn = s.portIn := rfl
@[simp] theorem deliver_eosIn (r : Record) : (s.deliver r).eosIn = s.eosIn := rfl
@[simp] theorem deliver_busOut (r : Record) : (s.deliver r).busOut = s.busOut := rfl
@[simp] theorem deliver_sinkOut (r : Record) : (s.deliver r).sinkOut = s.sinkOut := rfl
@[simp] theorem deliver_recordsOut (r : Record) : (s.deliver r).recordsOut = s.recordsOut := rfl

/-! ### popBurst -/

@[simp] theorem popBurst_win (b : Burst) (rest : List Burst) : (s.popBurst b rest).win = s.win := rfl
@[simp] theorem popBurst_count (b : Burst) (rest : List Burst) : (s.popBurst b rest).count = s.count := rfl
@[simp] theorem popBurst_discard (b : Burst) (rest : List Burst) : (s.popBurst b rest).discard = s.discard := rfl
@[simp] theorem popBurst_prevEnd (b : Burst) (rest : List Burst) : (s.popBurst b rest).prevEnd = b.absStart + BitVec.ofNat 64 b.samples.length := rfl
@[simp] theorem popBurst_pending (b : Burst) (rest : List Burst) : (s.popBurst b rest).pending = rest := rfl
@[simp] theorem popBurst_rxPhase (b : Burst) (rest : List Burst) : (s.popBurst b rest).rxPhase = s.rxPhase := rfl
@[simp] theorem popBurst_rfifo (b : Burst) (rest : List Burst) : (s.popBurst b rest).rfifo = s.rfifo := rfl
@[simp] theorem popBurst_rdIdx (b : Burst) (rest : List Burst) : (s.popBurst b rest).rdIdx = s.rdIdx := rfl
@[simp] theorem popBurst_txPhase (b : Burst) (rest : List Burst) : (s.popBurst b rest).txPhase = s.txPhase := rfl
@[simp] theorem popBurst_txOut (b : Burst) (rest : List Burst) : (s.popBurst b rest).txOut = s.txOut := rfl
@[simp] theorem popBurst_rxEn (b : Burst) (rest : List Burst) : (s.popBurst b rest).rxEn = s.rxEn := rfl
@[simp] theorem popBurst_txDone (b : Burst) (rest : List Burst) : (s.popBurst b rest).txDone = s.txDone := rfl
@[simp] theorem popBurst_cmdErr (b : Burst) (rest : List Burst) : (s.popBurst b rest).cmdErr = s.cmdErr := rfl
@[simp] theorem popBurst_ovf (b : Burst) (rest : List Burst) : (s.popBurst b rest).ovf = s.ovf := rfl
@[simp] theorem popBurst_eosFatal (b : Burst) (rest : List Burst) : (s.popBurst b rest).eosFatal = s.eosFatal := rfl
@[simp] theorem popBurst_txFatal (b : Burst) (rest : List Burst) : (s.popBurst b rest).txFatal = s.txFatal := rfl
@[simp] theorem popBurst_irqEn (b : Burst) (rest : List Burst) : (s.popBurst b rest).irqEn = s.irqEn := rfl
@[simp] theorem popBurst_txChannel (b : Burst) (rest : List Burst) : (s.popBurst b rest).txChannel = s.txChannel := rfl
@[simp] theorem popBurst_scShadow (b : Burst) (rest : List Burst) : (s.popBurst b rest).scShadow = s.scShadow := rfl
@[simp] theorem popBurst_inflight (b : Burst) (rest : List Burst) : (s.popBurst b rest).inflight = s.inflight := rfl
@[simp] theorem popBurst_turns (b : Burst) (rest : List Burst) : (s.popBurst b rest).turns = s.turns := rfl
@[simp] theorem popBurst_busIn (b : Burst) (rest : List Burst) : (s.popBurst b rest).busIn = s.busIn := rfl
@[simp] theorem popBurst_portIn (b : Burst) (rest : List Burst) : (s.popBurst b rest).portIn = s.portIn := rfl
@[simp] theorem popBurst_eosIn (b : Burst) (rest : List Burst) : (s.popBurst b rest).eosIn = s.eosIn := rfl
@[simp] theorem popBurst_busOut (b : Burst) (rest : List Burst) : (s.popBurst b rest).busOut = s.busOut := rfl
@[simp] theorem popBurst_sinkOut (b : Burst) (rest : List Burst) : (s.popBurst b rest).sinkOut = s.sinkOut := rfl
@[simp] theorem popBurst_recordsOut (b : Burst) (rest : List Burst) : (s.popBurst b rest).recordsOut = s.recordsOut := rfl

/-! ### overflow -/

@[simp] theorem overflow_win (p : Params) : (s.overflow p).win = [] := rfl
@[simp] theorem overflow_count (p : Params) : (s.overflow p).count = s.count + BitVec.ofNat 64 p.wCap := rfl
@[simp] theorem overflow_discard (p : Params) : (s.overflow p).discard = true := rfl
@[simp] theorem overflow_prevEnd (p : Params) : (s.overflow p).prevEnd = s.prevEnd := rfl
@[simp] theorem overflow_pending (p : Params) : (s.overflow p).pending = s.pending := rfl
@[simp] theorem overflow_rxPhase (p : Params) : (s.overflow p).rxPhase = s.rxPhase := rfl
@[simp] theorem overflow_rfifo (p : Params) : (s.overflow p).rfifo = s.rfifo := rfl
@[simp] theorem overflow_rdIdx (p : Params) : (s.overflow p).rdIdx = s.rdIdx := rfl
@[simp] theorem overflow_txPhase (p : Params) : (s.overflow p).txPhase = s.txPhase := rfl
@[simp] theorem overflow_txOut (p : Params) : (s.overflow p).txOut = s.txOut := rfl
@[simp] theorem overflow_rxEn (p : Params) : (s.overflow p).rxEn = s.rxEn := rfl
@[simp] theorem overflow_txDone (p : Params) : (s.overflow p).txDone = s.txDone := rfl
@[simp] theorem overflow_cmdErr (p : Params) : (s.overflow p).cmdErr = s.cmdErr := rfl
@[simp] theorem overflow_ovf (p : Params) : (s.overflow p).ovf = true := rfl
@[simp] theorem overflow_eosFatal (p : Params) : (s.overflow p).eosFatal = s.eosFatal := rfl
@[simp] theorem overflow_txFatal (p : Params) : (s.overflow p).txFatal = s.txFatal := rfl
@[simp] theorem overflow_irqEn (p : Params) : (s.overflow p).irqEn = s.irqEn := rfl
@[simp] theorem overflow_txChannel (p : Params) : (s.overflow p).txChannel = s.txChannel := rfl
@[simp] theorem overflow_scShadow (p : Params) : (s.overflow p).scShadow = s.scShadow := rfl
@[simp] theorem overflow_inflight (p : Params) : (s.overflow p).inflight = s.inflight := rfl
@[simp] theorem overflow_turns (p : Params) : (s.overflow p).turns = s.turns := rfl
@[simp] theorem overflow_busIn (p : Params) : (s.overflow p).busIn = s.busIn := rfl
@[simp] theorem overflow_portIn (p : Params) : (s.overflow p).portIn = s.portIn := rfl
@[simp] theorem overflow_eosIn (p : Params) : (s.overflow p).eosIn = s.eosIn := rfl
@[simp] theorem overflow_busOut (p : Params) : (s.overflow p).busOut = s.busOut := rfl
@[simp] theorem overflow_sinkOut (p : Params) : (s.overflow p).sinkOut = s.sinkOut := rfl
@[simp] theorem overflow_recordsOut (p : Params) : (s.overflow p).recordsOut = s.recordsOut := rfl

end Sys2Proof.Machine
end

