-- ==== Sys2Proof/Laws/Ops.lean ====
section
/-! SUPPORT. For each shared operation, what it can do. -/

namespace Sys2Proof.Machine

/-! ### The result FIFO -/

theorem resultPop_of_empty {s : State} (h : s.rfifo = []) : s.resultPop = (0, s) := by
  simp [State.resultPop, h]

theorem resultPop_of_more {s : State} {r : Record} {rest : List Record} (h : s.rfifo = r :: rest)
    (hr : s.rdIdx + 1 < r.length) : s.resultPop = (r.getD s.rdIdx 0, { s with rdIdx := s.rdIdx + 1 }) := by
  simp only [State.resultPop, h]
  rw [if_neg (by omega)]

theorem resultPop_of_last {s : State} {r : Record} {rest : List Record} (h : s.rfifo = r :: rest)
    (hr : r.length ≤ s.rdIdx + 1) : s.resultPop =
      (r.getD s.rdIdx 0, { s with rfifo := rest, rdIdx := 0, recordsOut := s.recordsOut ++ [r] }) := by
  simp only [State.resultPop, h]
  rw [if_pos hr]

/-- A `RESULT` read changes the read position, the FIFO and the log of records read, and nothing else. -/
theorem resultPop_cases (s : State) :
    s.resultPop.2 = s ∨
    (∃ r rest, s.rfifo = r :: rest ∧ s.rdIdx + 1 < r.length ∧ s.resultPop.2 = { s with rdIdx := s.rdIdx + 1 }) ∨
    (∃ r rest, s.rfifo = r :: rest ∧ r.length ≤ s.rdIdx + 1 ∧
      s.resultPop.2 = { s with rfifo := rest, rdIdx := 0, recordsOut := s.recordsOut ++ [r] }) := by
  cases h : s.rfifo with
  | nil => exact .inl (by rw [resultPop_of_empty h])
  | cons r rest =>
    by_cases hr : s.rdIdx + 1 < r.length
    · exact .inr (.inl ⟨r, rest, rfl, hr, by rw [resultPop_of_more h hr, ← h]⟩)
    · exact .inr (.inr ⟨r, rest, rfl, by omega, by rw [resultPop_of_last h (by omega)]⟩)

/-! ### The TX output queue -/

/-- The sink takes nothing, a beat in the middle of a frame, or a frame's last beat. -/
theorem takeBeat_cases (s : State) :
    (s.txOut = [] ∧ s.takeBeat = s) ∨
    (∃ b rest, s.txOut = b :: rest ∧ b.last = false ∧
      s.takeBeat = { s with txOut := rest, sinkOut := s.sinkOut ++ [b] }) ∨
    (∃ b rest, s.txOut = b :: rest ∧ b.last = true ∧
      s.takeBeat = { s with txOut := rest, sinkOut := s.sinkOut ++ [b], txPhase := .idle, txDone := true }) := by
  cases h : s.txOut with
  | nil => exact .inl ⟨rfl, by simp [State.takeBeat, h]⟩
  | cons b rest =>
    cases hb : b.last with
    | false => exact .inr (.inl ⟨b, rest, rfl, hb, by simp [State.takeBeat, h, hb]⟩)
    | true => exact .inr (.inr ⟨b, rest, rfl, hb, by simp [State.takeBeat, h, hb, State.raise]⟩)

/-! ### Transmit -/

/-- What a transmit command can do: it is dropped, it queues its frame, or it raises the transmit fault. -/
theorem transmitChecked_cases (p : Params) (cmd : TxCommand) (s : State) :
    (s.txReady = false ∧ s.transmitChecked p cmd = s.raise .cmdErr) ∨
    (s.txReady = true ∧ ∃ v, modulation p (cmd.frame s.txChannel.toNat) = some v ∧
      s.transmitChecked p cmd = { s with txOut := beatsOf v, txPhase := .stream }) ∨
    (s.txReady = true ∧ modulation p (cmd.frame s.txChannel.toNat) = none ∧
      s.transmitChecked p cmd = s.raise .txFatal) := by
  cases hr : s.txReady with
  | false => exact .inl ⟨rfl, by simp [State.transmitChecked, hr]⟩
  | true =>
    cases hm : modulation p (cmd.frame s.txChannel.toNat) with
    | none => exact .inr (.inr ⟨rfl, rfl, by simp [State.transmitChecked, hr, State.transmit, modulate_eq, hm]⟩)
    | some v =>
      exact .inr (.inl ⟨rfl, v, rfl, by simp [State.transmitChecked, hr, State.transmit, modulate_eq, hm]⟩)

theorem txReady_iff (s : State) : s.txReady = true ↔ s.txPhase = .idle ∧ s.txChannel.toNat < 100 := by
  simp only [State.txReady, Bool.and_eq_true, beq_iff_eq, decide_eq_true_eq]
  rfl

/-! ### The CSR map -/

/-- The CSR map, offset by offset (R61). -/
theorem csrAt_eq : ∀ a : Byte, csrAt a =
    if a = 0x00 then some .id else if a = 0x04 then some .ctrl else if a = 0x08 then some .status
    else if a = 0x0C then some .irqEn else if a = 0x10 then some .cmd else if a = 0x14 then some .txChannel
    else if a = 0x18 then some .sampleCountLo else if a = 0x1C then some .sampleCountHi
    else if a = 0x20 then some .result else if a = 0x24 then some .resultLen else none := by decide

theorem csrAt_offset (r : Csr) : csrAt r.offset = some r := by cases r <;> decide

theorem legalAccess_offset (r : Csr) : legalAccess r.offset 4 = true := by cases r <;> decide

theorem legalAccess_iff (a : Byte) (n : Nat) : legalAccess a n = true ↔ n = 4 ∧ a.toNat % 4 = 0 := by
  simp [legalAccess]

/-- A CSR read changes nothing, latches the high half of `count`, or pops a word of a record. -/
theorem csrRead_cases (p : Params) (r : Csr) (s : State) :
    (csrRead p r s).2 = s ∨
    (r = .sampleCountLo ∧ (csrRead p r s).2 = { s with scShadow := s.count.extractLsb' 32 32 }) ∨
    (r = .result ∧ (csrRead p r s).2 = s.resultPop.2) := by
  cases r <;> simp [csrRead]

end Sys2Proof.Machine
end

