-- ==== Sys2Proof/Laws/PerInstr.lean ====
section
/-! SUPPORT. Statements about every instruction as syntax, one lemma per constructor. -/

namespace Sys2Proof.Laws.EncodeLength

/-- The number of bits of an encoded instruction (R68, R85). -/
def bits : Encoded → Nat
  | .command _ => 32
  | .frame b => b.length

/-- The length R85 and R98 give the instruction. -/
def expected : Instr → Nat
  | .nop _ => 32
  | .txs _ => 32
  | .txp _ _ _ => 32
  | .frameShort _ _ => 81
  | .frameProp _ _ _ _ => 97

/-- An encoding has the length its format gives it. -/
def Statement (i : Instr) : Prop := bits (encode i) = expected i

theorem nop (operands : BitVec 24) : Statement (.nop operands) := rfl

theorem txs (c : Byte) : Statement (.txs c) := rfl

theorem txp (a b c : Byte) : Statement (.txp a b c) := rfl

theorem frameShort (wid cmd : Byte) : Statement (.frameShort wid cmd) := by
  simp [Statement, bits, expected, encode, frameShortBits, frameOfPayload_length, payloadBytes, codeBytes]

theorem frameProp (wid target prop value : Byte) : Statement (.frameProp wid target prop value) := by
  simp [Statement, bits, expected, encode, framePropBits, frameOfPayload_length, payloadBytes, codeBytes]

end Sys2Proof.Laws.EncodeLength
end

