-- ==== Sys2Proof/Laws/Record.lean ====
section
/-! SUPPORT. The words of a result record, bit by bit. -/

namespace Sys2Proof.Machine

/-! ### Concatenations at the widths the record's words use -/

theorem getLsbD_append_2_1 (x : BitVec 2) (y : BitVec 1) (i : Nat) :
    (x ++ y : BitVec 3).getLsbD i = if i < 1 then y.getLsbD i else x.getLsbD (i - 1) :=
  BitVec.getLsbD_append

theorem getLsbD_append_3_1 (x : BitVec 3) (y : BitVec 1) (i : Nat) :
    (x ++ y : BitVec 4).getLsbD i = if i < 1 then y.getLsbD i else x.getLsbD (i - 1) :=
  BitVec.getLsbD_append

theorem getLsbD_append_4_1 (x : BitVec 4) (y : BitVec 1) (i : Nat) :
    (x ++ y : BitVec 5).getLsbD i = if i < 1 then y.getLsbD i else x.getLsbD (i - 1) :=
  BitVec.getLsbD_append

theorem getLsbD_append_5_1 (x : BitVec 5) (y : BitVec 1) (i : Nat) :
    (x ++ y : BitVec 6).getLsbD i = if i < 1 then y.getLsbD i else x.getLsbD (i - 1) :=
  BitVec.getLsbD_append

theorem getLsbD_append_6_1 (x : BitVec 6) (y : BitVec 1) (i : Nat) :
    (x ++ y : BitVec 7).getLsbD i = if i < 1 then y.getLsbD i else x.getLsbD (i - 1) :=
  BitVec.getLsbD_append

theorem getLsbD_append_7_1 (x : BitVec 7) (y : BitVec 1) (i : Nat) :
    (x ++ y : BitVec 8).getLsbD i = if i < 1 then y.getLsbD i else x.getLsbD (i - 1) :=
  BitVec.getLsbD_append

theorem getLsbD_append_5_3 (x : BitVec 5) (y : BitVec 3) (i : Nat) :
    (x ++ y : BitVec 8).getLsbD i = if i < 3 then y.getLsbD i else x.getLsbD (i - 3) :=
  BitVec.getLsbD_append

theorem getLsbD_append_8_8 (x : BitVec 8) (y : BitVec 8) (i : Nat) :
    (x ++ y : BitVec 16).getLsbD i = if i < 8 then y.getLsbD i else x.getLsbD (i - 8) :=
  BitVec.getLsbD_append

theorem getLsbD_append_16_8 (x : BitVec 16) (y : BitVec 8) (i : Nat) :
    (x ++ y : BitVec 24).getLsbD i = if i < 8 then y.getLsbD i else x.getLsbD (i - 8) :=
  BitVec.getLsbD_append

theorem getLsbD_append_24_8 (x : BitVec 24) (y : BitVec 8) (i : Nat) :
    (x ++ y : BitVec 32).getLsbD i = if i < 8 then y.getLsbD i else x.getLsbD (i - 8) :=
  BitVec.getLsbD_append

theorem getLsbD_append_16_16 (x : BitVec 16) (y : BitVec 16) (i : Nat) :
    (x ++ y : BitVec 32).getLsbD i = if i < 16 then y.getLsbD i else x.getLsbD (i - 16) :=
  BitVec.getLsbD_append

theorem getLsbD_append_32_32 (x : BitVec 32) (y : BitVec 32) (i : Nat) :
    (x ++ y : BitVec 64).getLsbD i = if i < 32 then y.getLsbD i else x.getLsbD (i - 32) :=
  BitVec.getLsbD_append

/-! ### The words -/

/-- Word 0, bit by bit (R92). -/
theorem word0_getLsbD (st : Byte) (m : Message) (pre : Bool) (i : Nat) :
    (word0 st m pre).getLsbD i =
      if i < 8 then st.getLsbD i else if i < 16 then m.kind.getLsbD (i - 8) else if i < 24 then m.wid.getLsbD (i - 16)
      else if i = 24 then m.isPrimary else if i = 25 then m.unkCmd else if i = 26 then m.unkTarget
      else if i = 27 then m.unkProp else if i = 28 then m.badValue else if i = 29 then pre else false := by
  simp only [word0, getLsbD_append_24_8, getLsbD_append_16_8, getLsbD_append_8_8, getLsbD_append_7_1,
    getLsbD_append_6_1, getLsbD_append_5_1, getLsbD_append_4_1, getLsbD_append_3_1, getLsbD_append_2_1,
    BitVec.getLsbD_ofBool, Nat.sub_sub, Nat.reduceAdd]
  by_cases h : i < 24
  · have h1 : (i - 8 < 8) = (i < 16) := propext (by omega)
    have h2 : (i - 16 < 8) = (i < 24) := propext (by omega)
    simp only [h1, h2, h, if_true]
  · by_cases h' : i < 30
    · have : i = 24 ∨ i = 25 ∨ i = 26 ∨ i = 27 ∨ i = 28 ∨ i = 29 := by omega
      obtain rfl | rfl | rfl | rfl | rfl | rfl := this <;> simp
    · have e : ∀ k, k < 30 → ((i < k) = False) ∧ ((i = k) = False) := fun k _ =>
        ⟨eq_false (by omega), eq_false (by omega)⟩
      have h3 : (i - 8 < 8) = False := eq_false (by omega)
      have h4 : (i - 16 < 8) = False := eq_false (by omega)
      have h5 : ∀ k, k < 30 → (i - k < 1) = False := fun k _ => eq_false (by omega)
      simp [e, h3, h4, h5]

/-- Word 1, bit by bit (R93). -/
theorem word1_getLsbD (m : Message) (i : Nat) :
    (word1 m).getLsbD i =
      if i < 8 then m.b0.getLsbD i else if i < 16 then m.b1.getLsbD (i - 8) else if i < 24 then m.b2.getLsbD (i - 16)
      else if i < 27 then m.decKind.getLsbD (i - 24) else false := by
  simp only [word1, getLsbD_append_24_8, getLsbD_append_16_8, getLsbD_append_8_8, getLsbD_append_5_3, Nat.sub_sub,
    Nat.reduceAdd]
  have h1 : (i - 8 < 8) = (i < 16) := propext (by omega)
  have h2 : (i - 16 < 8) = (i < 24) := propext (by omega)
  have h3 : (i - 24 < 3) = (i < 27) := propext (by omega)
  simp only [h1, h2, h3, BitVec.ofNat_eq_ofNat, BitVec.getLsbD_zero]

/-- Word 9, bit by bit (R95). -/
theorem word9_getLsbD (b : Bits) (i : Nat) :
    (word9 b).getLsbD i =
      if i < 16 then (BitVec.ofNat 16 (nbits b)).getLsbD i else (BitVec.ofNat 16 (nwords b)).getLsbD (i - 16) := by
  simp only [word9, getLsbD_append_16_16]

/-- A bit word, bit by bit: the first bit of the bit string is the most significant (R95). -/
theorem bitWord_getLsbD (b : Bits) (k j : Nat) (h : j < 32) :
    (bitWord b k).getLsbD j = (b.take Config.recBitsMax).getD (32 * k + (31 - j)) false := by
  have cast_eq : ∀ l : List Bool, ∀ hl : l.length = 32,
      ((BitVec.ofBoolListBE l).cast hl).getLsbD j = l.getD (31 - j) false := by
    intro l hl
    rw [BitVec.getLsbD_cast, BitVec.getLsbD_ofBoolListBE]
    simp [hl, h]
  rw [show bitWord b k = (BitVec.ofBoolListBE ((List.range 32).map fun i =>
      (b.take Config.recBitsMax).getD (32 * k + i) false)).cast (by simp) from rfl, cast_eq _ (by simp),
    List.getD_eq_getElem?_getD, List.getElem?_map, List.getElem?_range (by omega)]
  rfl

/-- A record has ten words and its bit words (R92 to R96). -/
theorem recordOf_length (status : Byte) (m : Message) (r : Reception) :
    (recordOf status m r).length = 10 + nwords r.bits := by
  simp [recordOf]; omega

theorem nwords_le (b : Bits) : nwords b ≤ 4 := by simp only [nwords, Config.recBitsMax]; omega

end Sys2Proof.Machine
end

