-- ==== Sys2Proof/Laws/Step.lean ====
section
/-! SUPPORT. A step, turn by turn, and everything a step can do. -/

namespace Sys2Proof.Machine

variable {p : Params} {run : Instr → State → Result} {s t : State} {ts : List Turn}

/-! ### A step, turn by turn -/

theorem stepWith_inflight {r : Reception} (h : s.inflight = some r) : stepWith p run s = parseFrame run r s := by
  simp only [stepWith, h]

theorem nextTurn_nil (ht : s.turns = []) : s.nextTurn p = s.idleTurn p := by simp only [State.nextTurn, ht, List.headD_nil]

theorem nextTurn_cons {u : Turn} (ht : s.turns = u :: ts) : s.nextTurn p = u := by
  simp only [State.nextTurn, ht, List.headD_cons]

theorem idleTurn_of_enabled (h : s.rxEnabled p = true) : s.idleTurn p = .rx := by simp only [State.idleTurn, h, if_true]

/-- Who moves when no turn waits, and that nobody before it can (R353). -/
theorem idleTurn_cases (p : Params) (s : State) :
    (s.rxEnabled p = true ∧ s.idleTurn p = .rx) ∨
    (s.rxEnabled p = false ∧ s.busIn ≠ [] ∧ s.idleTurn p = .bus) ∨
    (s.rxEnabled p = false ∧ s.busIn = [] ∧ s.portIn ≠ [] ∧ s.portReady p = true ∧ s.idleTurn p = .port) ∨
    (s.rxEnabled p = false ∧ s.busIn = [] ∧ (s.portIn = [] ∨ s.portReady p = false) ∧ s.idleTurn p = .eos) := by
  cases hr : s.rxEnabled p <;> by_cases hb : s.busIn = [] <;> by_cases hp : s.portIn = [] <;>
    cases hq : s.portReady p <;> simp [State.idleTurn, hr, hb, hp, hq]

theorem idleTurn_ne_drain (p : Params) (s : State) : s.idleTurn p ≠ .drain := by
  obtain ⟨-, h⟩ | ⟨-, -, h⟩ | ⟨-, -, -, -, h⟩ | ⟨-, -, -, h⟩ := idleTurn_cases p s <;> simp [h]

/-- A step with no burst in the decoder takes the next turn (log entry 1). -/
theorem stepWith_turn (h : s.inflight = none) (hd : s.nextTurn p ≠ .drain) :
    stepWith p run s = takeTurn p run (s.nextTurn p) { s with turns := s.turns.tail } := by
  cases hn : s.nextTurn p <;> simp only [stepWith, h, hn]
  exact absurd hn hd

theorem stepWith_cons {u : Turn} (h : s.inflight = none) (ht : s.turns = u :: ts) (hu : u ≠ .drain) :
    stepWith p run s = takeTurn p run u { s with turns := ts } := by
  rw [stepWith_turn h (by rwa [nextTurn_cons ht]), nextTurn_cons ht, ht, List.tail_cons]

/-- With no turn waiting a step takes the idle turn (R353). -/
theorem stepWith_idle (h : s.inflight = none) (ht : s.turns = []) :
    stepWith p run s = takeTurn p run (s.idleTurn p) s := by
  rw [stepWith_turn h (by rw [nextTurn_nil ht]; exact idleTurn_ne_drain p s), nextTurn_nil ht, ht]
  exact congrArg _ (by rw [List.tail_nil, ← ht])

theorem stepWith_bus (h : s.inflight = none) (ht : s.turns = .bus :: ts) :
    stepWith p run s = busTurn p run { s with turns := ts } := stepWith_cons h ht (by decide)

theorem stepWith_port (h : s.inflight = none) (ht : s.turns = .port :: ts) :
    stepWith p run s = portTurn p { s with turns := ts } := stepWith_cons h ht (by decide)

theorem stepWith_eos (h : s.inflight = none) (ht : s.turns = .eos :: ts) :
    stepWith p run s = eosTurn { s with turns := ts } := stepWith_cons h ht (by decide)

theorem stepWith_rx (h : s.inflight = none) (ht : s.turns = .rx :: ts) :
    stepWith p run s = process p run { s with turns := ts } := stepWith_cons h ht (by decide)

theorem stepWith_drain (h : s.inflight = none) (ht : s.turns = .drain :: ts) :
    stepWith p run s = if s.rxEnabled p then process p run s else .next { s with turns := ts } := by
  simp only [stepWith, h, nextTurn_cons ht, ht, List.tail_cons]

theorem stepWith_sink (h : s.inflight = none) (ht : s.turns = .sink :: ts) :
    stepWith p run s = .next ({ s with turns := ts } : State).takeBeat := stepWith_cons h ht (by decide)

theorem stepWith_reset (h : s.inflight = none) (ht : s.turns = .reset :: ts) :
    stepWith p run s = .next ({ s with turns := ts } : State).blockReset := stepWith_cons h ht (by decide)

/-! ### The bus -/

theorem busTurn_nil (h : s.busIn = []) : busTurn p run s = .next s := by simp only [busTurn, h]

theorem busTurn_cons {op : BusOp} {rest : List BusOp} (h : s.busIn = op :: rest) :
    busTurn p run s = busAccess p run op { s with busIn := rest } := by simp only [busTurn, h]

theorem busAccess_read {r : Csr} {a : Byte} (ha : csrAt a = some r) (hl : legalAccess a 4 = true) :
    busAccess p run (.read a 4) s = .next ((csrRead p r s).2.reply ⟨false, (csrRead p r s).1⟩) := by
  simp [busAccess, ha, hl]

theorem busAccess_write {r : Csr} {a : Byte} {v : Word} (ha : csrAt a = some r) (hl : legalAccess a 4 = true) :
    busAccess p run (.write a 4 v) s = csrWrite run r v (s.reply .ack) := by
  simp [busAccess, ha, hl]

/-- Writing the word `w` to `CMD` runs the command it holds, after the acknowledgement (R72, R289). -/
theorem stepWith_command {w : Word} {rest : List BusOp} (h : s.inflight = none) (ht : s.turns = .bus :: ts)
    (hb : s.busIn = .write 0x10 4 w :: rest) :
    stepWith p run s = command run w { s with turns := ts, busIn := rest, busOut := s.busOut ++ [⟨false, 0⟩] } := by
  rw [stepWith_bus h ht, busTurn_cons (s := { s with turns := ts }) hb, busAccess_write (r := .cmd) (by decide) (by decide)]
  rfl

/-! ### PROCESS -/

theorem rxEnabled_iff : s.rxEnabled p = true ↔
    s.rxPhase = .process ∧ s.rfifo.length < p.rfifoDepth ∧ s.pending ≠ [] := by
  simp [State.rxEnabled, and_assoc]

theorem process_of_not_enabled (h : s.rxEnabled p = false) : process p run s = .next s := by
  unfold process
  split
  · rfl
  · rw [if_neg (by simp [h])]

/-- PROCESS of the head burst (R130, R190, R234). -/
theorem process_of_enabled {b : Burst} {rest : List Burst} (h : s.rxEnabled p = true) (hp : s.pending = b :: rest) :
    process p run s =
      match demodulate p b.samples with
      | .fail code power => .next ((s.popBurst b rest).deliver (failureRecord code (receive s b power [] false)))
      | .ok power bits prepended =>
        parseFrame run (receive s b power bits prepended)
          { s.popBurst b rest with inflight := some (receive s b power bits prepended) } := by
  cases hd : demodulate p b.samples <;> simp only [process, hp, h, if_true, hd]

/-- The record a burst in the decoder ends in: a failure of the frame decoder, or a message. -/
inductive ParseRecord (r : Reception) : Record → Prop
  | failure (code : BurstFail) : ParseRecord r (failureRecord code r)
  | short (wid cmd : Byte) : ParseRecord r (messageRecord (.ofShort Config.params wid cmd) r)
  | property (wid tg pid x : Byte) : ParseRecord r (messageRecord (.ofProperty Config.params wid tg pid x) r)

/-- Parsing a burst in the decoder delivers one record (R234). -/
theorem parseFrame_exec {r : Reception} (h : s.inflight = some r) :
    ∃ rec, ParseRecord r rec ∧ parseFrame exec r s = .next (s.deliver rec) := by
  simp only [parseFrame]
  split
  · rename_i i hi
    obtain ⟨wid, cmd, rfl⟩ | ⟨wid, tg, pid, x, rfl⟩ := decodeFrame_ok hi
    · exact ⟨_, .short wid cmd, by simp [exec, execFrameShort, deliverMessage, h]⟩
    · exact ⟨_, .property wid tg pid x, by simp [exec, execFrameProp, deliverMessage, h]⟩
  · exact ⟨_, .failure _, rfl⟩

/-- PROCESS waits, or turns the head burst into one record of that burst (R130). -/
theorem process_exec (p : Params) (s : State) :
    (s.rxEnabled p = false ∧ process p exec s = .next s) ∨
    (s.rxEnabled p = true ∧ ∃ b rest power bits prepended rec, s.pending = b :: rest ∧
      ParseRecord (receive s b power bits prepended) rec ∧
      process p exec s = .next ((s.popBurst b rest).deliver rec)) := by
  cases he : s.rxEnabled p with
  | false => exact .inl ⟨rfl, process_of_not_enabled he⟩
  | true =>
    refine .inr ⟨rfl, ?_⟩
    obtain ⟨b, rest, hp⟩ : ∃ b rest, s.pending = b :: rest := by
      have := (rxEnabled_iff.mp he).2.2
      cases hs : s.pending with
      | nil => exact absurd hs this
      | cons b rest => exact ⟨b, rest, rfl⟩
    rw [process_of_enabled he hp]
    cases hd : demodulate p b.samples with
    | fail code power => exact ⟨b, rest, power, [], false, _, hp, .failure code, rfl⟩
    | ok power bits prepended =>
      obtain ⟨rec, hr, hx⟩ := parseFrame_exec (r := receive s b power bits prepended)
        (s := { s.popBurst b rest with inflight := some (receive s b power bits prepended) }) rfl
      exact ⟨b, rest, power, bits, prepended, rec, hp, hr, hx⟩

/-! ### Everything a step can do -/

/-- A bus access of the machine: an answer without effect, a CSR read, or a CSR write. -/
theorem busAccess_cases (p : Params) (run : Instr → State → Result) (op : BusOp) (s : State) :
    (∃ a, busAccess p run op s = .next (s.reply a)) ∨
    (∃ r a n, op = .read a n ∧ legalAccess a n = true ∧ csrAt a = some r ∧
      busAccess p run op s = .next ((csrRead p r s).2.reply ⟨false, (csrRead p r s).1⟩)) ∨
    (∃ r a n v, op = .write a n v ∧ legalAccess a n = true ∧ csrAt a = some r ∧
      busAccess p run op s = csrWrite run r v (s.reply .ack)) := by
  cases op with
  | read a n =>
    cases hl : legalAccess a n with
    | false => exact .inl ⟨_, by simp only [busAccess, hl]; rfl⟩
    | true =>
      cases hc : csrAt a with
      | none => exact .inl ⟨⟨false, 0⟩, by simp [busAccess, hl, hc]⟩
      | some r => exact .inr (.inl ⟨r, a, n, rfl, hl, hc, by simp [busAccess, hl, hc]⟩)
  | write a n v =>
    cases hl : legalAccess a n with
    | false => exact .inl ⟨_, by simp only [busAccess, hl]; rfl⟩
    | true =>
      cases hc : csrAt a with
      | none => exact .inl ⟨.ack, by simp [busAccess, hl, hc]⟩
      | some r => exact .inr (.inr ⟨r, a, n, v, rfl, hl, hc, by simp [busAccess, hl, hc]⟩)

/-- A command that runs is a NOP, a transmit command, or dropped. -/
theorem command_exec (w : Word) (s : State) :
    command exec w s = .next s ∨ command exec w s = .next (s.raise .cmdErr) ∨
    (∃ cmd, command exec w s = .next (s.transmitChecked Config.params cmd)) := by
  simp only [command]
  split
  · rename_i i hi
    obtain ⟨_, rfl⟩ | ⟨c, rfl⟩ | ⟨a, b, c, rfl⟩ := decodeCommand_ok hi
    · exact .inl rfl
    · exact .inr (.inr ⟨.short c, rfl⟩)
    · exact .inr (.inr ⟨.property a b c, rfl⟩)
  · exact .inr (.inl rfl)

/-- Everything a write of a register can do. -/
theorem csrWrite_exec (r : Csr) (v : Word) (s : State) :
    csrWrite exec r v s = .next s ∨
    (r = .ctrl ∧ csrWrite exec r v s = .next (s.ctrlWrite v)) ∨
    (r = .status ∧ csrWrite exec r v s = .next (s.acknowledge v)) ∨
    (r = .irqEn ∧ csrWrite exec r v s = .next { s with irqEn := v &&& irqMask }) ∨
    (r = .txChannel ∧ csrWrite exec r v s = .next { s with txChannel := v.extractLsb' 0 7 }) ∨
    (r = .cmd ∧ csrWrite exec r v s = .next (s.raise .cmdErr)) ∨
    (r = .cmd ∧ ∃ cmd, csrWrite exec r v s = .next (s.transmitChecked Config.params cmd)) := by
  cases r <;> simp [csrWrite]
  exact command_exec v s

/-- The sample port's turn: nothing, a beat, or a refusal (R121). -/
theorem portTurn_cases (p : Params) (s : State) :
    portTurn p s = .next s ∨
    (∃ b rest, s.portIn = b :: rest ∧ s.portReady p = true ∧ b.sample.isFinite = true ∧
      portTurn p s = .next ({ s with portIn := rest }.beat p b.sample b.last)) ∨
    portTurn p s = .refused .nonFiniteSample := by
  cases h : s.portIn with
  | nil => exact .inl (by simp only [portTurn, h])
  | cons b rest =>
    cases hr : s.portReady p with
    | false => exact .inl (by simp [portTurn, h, hr])
    | true =>
      cases hf : b.sample.isFinite with
      | false => exact .inr (.inr (by simp [portTurn, h, hr, hf]))
      | true => exact .inr (.inl ⟨b, rest, rfl, rfl, hf, by simp [portTurn, h, hr, hf]⟩)

/-- The end-of-stream turn: nothing, the fatal event, or an event ignored (R129). -/
theorem eosTurn_cases (s : State) :
    eosTurn s = .next s ∨
    (s.rxPhase = .accept ∧ eosTurn s = .next ({ s with eosIn := s.eosIn - 1 }.raise .eosFatal)) ∨
    (s.rxPhase = .halted ∧ eosTurn s = .next { s with eosIn := s.eosIn - 1 }) := by
  by_cases h : s.eosIn = 0
  · exact .inl (by simp [eosTurn, h])
  · cases hp : s.rxPhase with
    | accept => exact .inr (.inl ⟨rfl, by simp [eosTurn, h, hp]⟩)
    | process => exact .inl (by simp [eosTurn, h, hp])
    | halted => exact .inr (.inr ⟨rfl, by simp [eosTurn, h, hp]⟩)

/-- What an access on the bus leaves of the state `u` it starts from, `u` without that access. -/
inductive BusMove (p : Params) (u : State) : BusOp → State → Prop
  /-- An access without effect but its answer. -/
  | answer (op : BusOp) (a : BusReply) : BusMove p u op (u.reply a)
  | latch (a : BusReply) :
    BusMove p u (.read 0x18 4) (({ u with scShadow := u.count.extractLsb' 32 32 } : State).reply a)
  | pop (op : BusOp) (a : BusReply) : BusMove p u op (u.resultPop.2.reply a)
  | softReset (op : BusOp) (h : op.isSoftReset = true) : BusMove p u op (u.reply .ack).blockReset
  | rxEn (op : BusOp) (x : Bool) : BusMove p u op { u.reply .ack with rxEn := x }
  | acknowledge (op : BusOp) (v : Word) : BusMove p u op ((u.reply .ack).acknowledge v)
  | irqEn (op : BusOp) (v : Word) : BusMove p u op { u.reply .ack with irqEn := v &&& irqMask }
  | txChannel (op : BusOp) (x : BitVec 7) : BusMove p u op { u.reply .ack with txChannel := x }
  | cmdErr (op : BusOp) : BusMove p u op ((u.reply .ack).raise .cmdErr)
  | transmit (op : BusOp) (cmd : TxCommand) : BusMove p u op ((u.reply .ack).transmitChecked Config.params cmd)

theorem csrAt_latch : ∀ a : Byte, csrAt a = some .sampleCountLo → a = 0x18 := by decide

/-- Everything an access of the machine can do. -/
theorem busAccess_exec (p : Params) (op : BusOp) (s : State) :
    ∃ t, BusMove p s op t ∧ busAccess p exec op s = .next t := by
  obtain ⟨a, h⟩ | ⟨r, a, n, rfl, hl, hc, h⟩ | ⟨r, a, n, v, rfl, hl, hc, h⟩ := busAccess_cases p exec op s
  · exact ⟨_, .answer op a, h⟩
  · obtain ⟨rfl, -⟩ := (legalAccess_iff a n).mp hl
    refine ⟨_, ?_, h⟩
    obtain hr | ⟨rfl, hr⟩ | ⟨-, hr⟩ := csrRead_cases p r s <;> rw [hr]
    · exact .answer _ _
    · obtain rfl := csrAt_latch a hc
      exact .latch _
    · exact .pop _ _
  · rw [h]
    obtain hw | ⟨rfl, hw⟩ | ⟨-, hw⟩ | ⟨-, hw⟩ | ⟨-, hw⟩ | ⟨-, hw⟩ | ⟨-, cmd, hw⟩ := csrWrite_exec r v (s.reply .ack)
    · exact ⟨_, .answer _ .ack, hw⟩
    · refine ⟨_, ?_, hw⟩
      cases hv : v.getLsbD 1 with
      | true =>
        simp only [State.ctrlWrite, hv, if_true]
        exact .softReset _ (by simp [BusOp.isSoftReset, hl, hc, hv])
      | false =>
        simp only [State.ctrlWrite, hv, Bool.false_eq_true, if_false]
        exact .rxEn _ _
    · exact ⟨_, .acknowledge _ v, hw⟩
    · exact ⟨_, .irqEn _ v, hw⟩
    · exact ⟨_, .txChannel _ _, hw⟩
    · exact ⟨_, .cmdErr _, hw⟩
    · exact ⟨_, .transmit _ cmd, hw⟩

/-- What a turn does to the state `u` it starts from. -/
inductive Move (p : Params) (u : State) : Turn → State → Prop
  /-- A turn whose step is not enabled. -/
  | none (x : Turn) : Move p u x u
  | process (x : Turn) (b : Burst) (rest : List Burst) (power : Word) (bits : Bits) (prepended : Bool) (rec : Record)
    (he : u.rxEnabled p = true) (hp : u.pending = b :: rest)
    (hr : ParseRecord (receive u b power bits prepended) rec) : Move p u x ((u.popBurst b rest).deliver rec)
  | beat (b : PortBeat) (rest : List PortBeat) (h : u.portIn = b :: rest) (hr : u.portReady p = true)
    (hf : b.sample.isFinite = true) : Move p u .port ({ u with portIn := rest }.beat p b.sample b.last)
  | eosFatal (h : u.rxPhase = .accept) : Move p u .eos ({ u with eosIn := u.eosIn - 1 }.raise .eosFatal)
  | eosIgnored (h : u.rxPhase = .halted) : Move p u .eos { u with eosIn := u.eosIn - 1 }
  | take : Move p u .sink u.takeBeat
  | reset : Move p u .reset u.blockReset
  | bus (op : BusOp) (rest : List BusOp) (t : State) (h : u.busIn = op :: rest)
    (hm : BusMove p { u with busIn := rest } op t) : Move p u .bus t

theorem process_move {x : Turn} (h : process p exec s = .next t) : Move p s x t := by
  obtain ⟨-, h'⟩ | ⟨he, b, rest, power, bits, prepended, rec, hp, hr, h'⟩ := process_exec p s <;> rw [h'] at h <;> cases h
  · exact .none _
  · exact .process _ b rest power bits prepended rec he hp hr

/-- Everything a turn can do. -/
theorem takeTurn_move {x : Turn} (h : takeTurn p exec x s = .next t) : Move p s x t := by
  cases x <;> simp only [takeTurn] at h
  · cases hb : s.busIn with
    | nil =>
      rw [busTurn_nil hb] at h
      cases h
      exact .none _
    | cons op rest =>
      obtain ⟨t', hm, h'⟩ := busAccess_exec p op { s with busIn := rest }
      rw [busTurn_cons hb, h'] at h
      cases h
      exact .bus op rest _ hb hm
  · obtain h' | ⟨b, rest, hp, hr, hf, h'⟩ | h' := portTurn_cases p s <;> rw [h'] at h <;> cases h
    · exact .none _
    · exact .beat b rest hp hr hf
  · obtain h' | ⟨ha, h'⟩ | ⟨ha, h'⟩ := eosTurn_cases s <;> rw [h'] at h <;> cases h
    · exact .none _
    · exact .eosFatal ha
    · exact .eosIgnored ha
  · exact process_move h
  · exact process_move h
  · cases h
    exact .take
  · cases h
    exact .reset

/-- Everything a step of the machine can do: it parses the burst in the decoder; or it is a move of the next turn, which
leaves the list of turns unless it is a `drain` that goes on. -/
theorem stepWith_move (h : stepWith p exec s = .next t) :
    (∃ r rec, s.inflight = some r ∧ ParseRecord r rec ∧ t = s.deliver rec) ∨
    (s.inflight = none ∧ s.nextTurn p = .drain ∧ Move p s .drain t) ∨
    (s.inflight = none ∧ Move p { s with turns := s.turns.tail } (s.nextTurn p) t) := by
  obtain hi | ⟨r, hi⟩ := Option.eq_none_or_eq_some s.inflight
  · by_cases hd : s.nextTurn p = .drain
    · cases hr : s.rxEnabled p with
      | true =>
        simp only [stepWith, hi, hd, hr, if_true] at h
        exact .inr (.inl ⟨hi, hd, process_move h⟩)
      | false =>
        simp only [stepWith, hi, hd, hr, Bool.false_eq_true, if_false] at h
        cases h
        exact .inr (.inr ⟨hi, by rw [← hi]; exact .none _⟩)
    · rw [stepWith_turn hi hd] at h
      exact .inr (.inr ⟨hi, takeTurn_move h⟩)
  · obtain ⟨rec, hr, hx⟩ := parseFrame_exec hi
    rw [stepWith_inflight hi, hx] at h
    cases h
    exact .inl ⟨r, rec, hi, hr, rfl⟩

end Sys2Proof.Machine
end

