-- ==== Sys2Proof/Laws/StreamBuffer.lean ====
section
/-! SUPPORT. The edges of a window, sample by sample, and what a scan and a beat do. -/

namespace Sys2Proof.Machine

variable {p : Params}

/-! ### Edges -/

/-- The edges of two stretches are those of the first, then those of the second with the burst left open. -/
theorem edges_append (i : Nat) (st : Option Nat) (u v : List Sample) :
    edges p i st (u ++ v) =
      ((edges p i st u).1 ++ (edges p (i + u.length) (edges p i st u).2 v).1,
        (edges p (i + u.length) (edges p i st u).2 v).2) := by
  induction u generalizing i st with
  | nil => simp [edges]
  | cons z u ih =>
    simp only [List.cons_append, edges, List.length_cons, show i + (u.length + 1) = i + 1 + u.length by omega]
    split
    · exact ih _ _
    · cases st <;> simp [ih]

/-- One more sample: it opens a burst or keeps one open, or it closes the open one. -/
theorem edges_snoc (w : List Sample) (z : Sample) :
    edges p 0 none (w ++ [z]) =
      if above p z then ((edges p 0 none w).1, some ((edges p 0 none w).2.getD w.length))
      else ((edges p 0 none w).1 ++ ((edges p 0 none w).2.map fun a => (a, w.length)).toList, none) := by
  rw [edges_append]
  cases h : (edges p 0 none w).2 <;> cases ha : above p z <;> simp [edges, ha]

/-- Edges move with the window. -/
theorem edges_shift (d i : Nat) (st : Option Nat) (w : List Sample) :
    edges p (i + d) (st.map (· + d)) w =
      ((edges p i st w).1.map fun b => (b.1 + d, b.2 + d), (edges p i st w).2.map (· + d)) := by
  induction w generalizing i st with
  | nil => simp [edges]
  | cons z w ih =>
    simp only [edges]
    split
    · rw [show i + d + 1 = i + 1 + d by omega, ← ih (i + 1) (some (st.getD i))]
      cases st <;> simp
    · have h := ih (i + 1) none
      simp only [Option.map_none] at h
      cases st <;> simp [show i + d + 1 = i + 1 + d by omega, h]

/-- The open burst: where it starts, all of it is above the threshold, and the sample before it is not. -/
theorem edges_open {w : List Sample} {a : Nat} (h : (edges p 0 none w).2 = some a) :
    a < w.length ∧ ∀ z ∈ w.drop a, above p z = true := by
  induction w using List.reverseRecOn generalizing a with
  | nil => simp [edges] at h
  | append_singleton w z ih =>
    rw [edges_snoc] at h
    cases hz : above p z with
    | false => simp [hz] at h
    | true =>
      simp only [hz, if_true, Option.some.injEq] at h
      cases ho : (edges p 0 none w).2 with
      | none => simp [ho] at h; subst h; simp [hz]
      | some b =>
        simp only [ho, Option.getD_some] at h
        subst h
        obtain ⟨h1, h2⟩ := ih ho
        refine ⟨by simp; omega, fun x hx => ?_⟩
        rw [List.drop_append_of_le_length (by omega)] at hx
        rcases List.mem_append.mp hx with hx | hx
        · exact h2 x hx
        · simp at hx; subst hx; exact hz

/-- A complete burst: it ends inside the window and all of it is above the threshold. -/
theorem edges_complete {w : List Sample} {a e : Nat} (h : (a, e) ∈ (edges p 0 none w).1) :
    a < e ∧ e < w.length ∧ ∀ z ∈ (w.drop a).take (e - a), above p z = true := by
  induction w using List.reverseRecOn generalizing a e with
  | nil => simp [edges] at h
  | append_singleton w z ih =>
    rw [edges_snoc] at h
    have old : (a, e) ∈ (edges p 0 none w).1 →
        a < e ∧ e < (w ++ [z]).length ∧ ∀ x ∈ ((w ++ [z]).drop a).take (e - a), above p x = true := by
      intro hm
      obtain ⟨h1, h2, h3⟩ := ih hm
      refine ⟨h1, by simp; omega, fun x hx => h3 x ?_⟩
      rwa [List.drop_append_of_le_length (by omega), List.take_append_of_le_length (by simp; omega)] at hx
    cases hz : above p z with
    | true => simp only [hz, if_true] at h; exact old h
    | false =>
      simp only [hz, Bool.false_eq_true, if_false, List.mem_append] at h
      rcases h with h | h
      · exact old h
      · cases ho : (edges p 0 none w).2 with
        | none => simp [ho] at h
        | some b =>
          simp only [ho, Option.map_some, Option.toList_some, List.mem_singleton, Prod.mk.injEq] at h
          obtain ⟨rfl, rfl⟩ := h
          obtain ⟨h1, h2⟩ := edges_open ho
          refine ⟨h1, by simp, fun x hx => ?_⟩
          rw [List.drop_append_of_le_length (by omega), List.take_append_of_le_length (by simp)] at hx
          exact h2 x (List.mem_of_mem_take hx)

/-- What a scan queues: long bursts of the window, all above the threshold. -/
theorem mem_foundBursts {s : State} {b : Burst} (h : b ∈ foundBursts p s) :
    Config.minBurst ≤ b.samples.length ∧ b.samples.length < s.win.length ∧
      (∀ z ∈ b.samples, z ∈ s.win ∧ above p z = true) := by
  simp only [foundBursts, List.mem_map, List.mem_filter, Prod.exists] at h
  obtain ⟨a, e, ⟨hm, hl⟩, rfl⟩ := h
  obtain ⟨h1, h2, h3⟩ := edges_complete hm
  simp only [longEnough, decide_eq_true_eq] at hl
  refine ⟨?_, ?_, fun z hz => ⟨List.mem_of_mem_drop (List.mem_of_mem_take hz), h3 z hz⟩⟩ <;>
    simp [burstOf] <;> omega

/-! ### Scan and beat -/

/-- A compaction overflows, or drops samples that are in the window and counts them. -/
theorem compact_cases (p : Params) (start : Option Nat) (s : State) :
    (start.getD s.win.length = 0 ∧ s.win.length = p.wCap ∧ s.compact p start = s.overflow p) ∨
    (¬(start.getD s.win.length = 0 ∧ s.win.length = p.wCap) ∧
      s.compact p start = { s with win := s.win.drop (start.getD s.win.length),
                                   count := s.count + BitVec.ofNat 64 (start.getD s.win.length) }) := by
  by_cases h : start.getD s.win.length = 0 ∧ s.win.length = p.wCap
  · exact .inl ⟨h.1, h.2, by simp only [State.compact]; rw [if_pos h]⟩
  · exact .inr ⟨h, by simp only [State.compact]; rw [if_neg h]⟩

/-- Everything a scan can do: it queues bursts of the window, then keeps the window from an index in it on and counts what
goes, or overflows with a full window. -/
theorem scan_cases (p : Params) (s : State) :
    (s.win.length = p.wCap ∧ s.scan p =
      { s with
        count := s.count + BitVec.ofNat 64 p.wCap, win := [], discard := true, ovf := true,
        pending := s.pending ++ foundBursts p s,
        rxPhase := if s.pending ++ foundBursts p s = [] then s.rxPhase else .process }) ∨
    (∃ keep, keep ≤ s.win.length ∧ ¬(keep = 0 ∧ s.win.length = p.wCap) ∧ s.scan p =
      { s with
        count := s.count + BitVec.ofNat 64 keep, win := s.win.drop keep,
        pending := s.pending ++ foundBursts p s,
        rxPhase := if s.pending ++ foundBursts p s = [] then s.rxPhase else .process }) := by
  have hk : ((edges p 0 none s.win).2).getD s.win.length ≤ s.win.length := by
    cases h : (edges p 0 none s.win).2 with
    | none => simp
    | some a => simpa using (edges_open h).1.le
  rcases compact_cases p (edges p 0 none s.win).2 { s with pending := s.pending ++ foundBursts p s } with
    ⟨-, h2, h3⟩ | ⟨h1, h3⟩
  · refine .inl ⟨h2, ?_⟩
    simp only [State.scan, h3, State.overflow, State.raise]
    split <;> rename_i h <;> simp [h]
  · refine .inr ⟨_, hk, h1, ?_⟩
    simp only [State.scan, h3]
    split <;> rename_i h <;> simp [h]

/-- Everything a beat can do: drop an above sample in discard mode, keep the sample, or keep it and scan. -/
theorem beat_cases (p : Params) (z : Sample) (last : Bool) (s : State) :
    (s.discard = true ∧ above p z = true ∧ s.beat p z last = { s with count := s.count + 1 }) ∨
    (¬(s.discard = true ∧ above p z = true) ∧ last = false ∧ s.win.length + 1 ≠ p.wCap ∧
      s.beat p z last = { s with discard := false, win := s.win ++ [z] }) ∨
    (¬(s.discard = true ∧ above p z = true) ∧ (last = true ∨ s.win.length + 1 = p.wCap) ∧
      s.beat p z last = ({ s with discard := false, win := s.win ++ [z] } : State).scan p) := by
  by_cases h : s.discard = true ∧ above p z = true
  · exact .inl ⟨h.1, h.2, by simp [State.beat, h.1, h.2]⟩
  · have h' : (s.discard && above p z) = false := by simpa using h
    by_cases hl : last = true ∨ s.win.length + 1 = p.wCap
    · refine .inr (.inr ⟨h, hl, ?_⟩)
      have hl' : (last || (s.win ++ [z]).length == p.wCap) = true := by simpa using hl
      simp only [State.beat, h', Bool.false_eq_true, if_false, hl', if_true]
    · have hl' : (last || (s.win ++ [z]).length == p.wCap) = false := by simpa using hl
      push Not at hl
      refine .inr (.inl ⟨h, by simpa using hl.1, hl.2, ?_⟩)
      simp only [State.beat, h', Bool.false_eq_true, if_false, hl']

end Sys2Proof.Machine
end

