-- ==== Sys2Proof/Tests/Slice0.lean ====
section
/-! SUPPORT. Tests. Expected results come from spec/95_test_vectors.md (the vector is named) or from the encodings of
spec/30_encoding.md written out; the last part shows, for every statement with hypotheses, a case that meets them. -/

namespace Sys2Proof.Tests

open Sys2Proof Sys2Proof.Machine

/-! ### WellFormed -/

/-- There is no wireless ID 100 (R213). -/
theorem test_short_wid_100_is_ill_formed : (Instr.frameShort 100 0).wellFormed = false := by decide
theorem test_short_wid_99_is_well_formed : (Instr.frameShort 99 0).wellFormed = true := by decide
theorem test_prop_wid_100_is_ill_formed : (Instr.frameProp 100 0 0 0).wellFormed = false := by decide

/-! ### Command words, written from R99 to R101 -/

theorem test_decode_nop : decodeCommand 0b00000000_00010010_00110100_01010110#32 = .ok (.nop 0x123456) := by decide
theorem test_decode_txs : decodeCommand 0b11010101_00000000_00000000_10000001#32 = .ok (.txs 0x81) := by decide
theorem test_decode_txp : decodeCommand 0b10101001_00000001_10000000_01111111#32 = .ok (.txp 0x01 0x80 0x7F) := by decide
/-- CM-5: an opcode that is none of the three. -/
theorem test_illegal_opcode : decodeCommand 0x42000000 = .error .illegalOpcode := by decide
theorem test_txs_operand_bits : decodeCommand 0xD5010000 = .error .txsOperandBits := by decide
theorem test_encode_txp : encode (.txp 0x01 0x80 0x7F) = .command 0xA901807F := by decide
/-- R62: bits 7:0 lie at the lowest address. -/
theorem test_bus_bytes : busBytes 0xD500008F = [0x8F, 0x00, 0x00, 0xD5] := by decide

/-! ### Frames: FR-1, FR-2, FR-7 and the table FD -/

/-- FR-1. -/
def fr1 : Bits :=
  bitsOf 0b10101010101010101010101010101010_0010000010010001_0010000010010001_11010101_10001111_1#81

/-- FR-7. -/
def fr7 : Bits :=
  bitsOf 0b10101010101010101010101010101010_0000011111010000_0000011111010000_10101001_00001010_00000001_00001111_1#97

theorem test_frame_short_bits : frameShortBits 5 0x8F = fr1 := by decide
theorem test_frame_prop_bits : framePropBits 24 0x0A 0x01 15 = fr7 := by decide
theorem test_decode_fr1 : decodeFrame fr1 = .ok (.frameShort 5 0x8F) := by decide
theorem test_decode_fr7 : decodeFrame fr7 = .ok (.frameProp 24 0x0A 0x01 15) := by decide
/-- FR-2: the trailing bit is 0. -/
theorem test_decode_fr2 : decodeFrame
    (bitsOf 0b10101010101010101010101010101010_1100001101101000_1100001101101000_11010101_00000000_0#81) =
      .ok (.frameShort 0 0) := by decide
theorem test_fd3 : decodeFrame (fr1 ++ [false, true]) = .error .trailingGarbage := by decide
theorem test_fd4 : decodeFrame (fr1.take 80) = .error .frameTruncated := by decide
theorem test_fd4b : decodeFrame (fr1.take 63) = .error .frameTruncated := by decide
theorem test_fd5 : decodeFrame (fr1.take 31) = .error .frameTruncated := by decide
theorem test_fd7 : decodeFrame (fr1.set 40 false) = .error .wirelessIdMismatch := by decide
theorem test_fd8 : decodeFrame ((fr1.set 0 false).take 40) = .error .frameSyncMismatch := by decide
/-- FD-9: the network code of the channel 100 is nobody's. -/
theorem test_fd9 : decodeFrame (frameShortBits 100 0x8F) = .error .unknownWirelessId := by decide
theorem test_fd10 : decodeFrame (frameOfPayload (payloadBytes 5 [0xD4, 0x8F])) = .error .unsupportedFrameType := by decide
theorem test_fd11 : decodeFrame (fr1.set 80 false) = .error .trailingBitMismatch := by decide
theorem test_fd11b : decodeFrame (fr1.drop 1) = .error .frameSyncMismatch := by decide
/-- TR-2: the lost leading bit is put back. -/
theorem test_tr2 : compensate (fr1.drop 1) = (fr1, true) := by decide

/-! ### Records: FD-1, FD-3, FD-12 and the stops decoder -/

/-- The property table E2 of spec/95_test_vectors.md. -/
def tableE2 (pid : Byte) : Option PropertyEntry :=
  if pid = 1 then some ⟨"one", some .stops, false⟩
  else if pid = 2 then some ⟨"two", some .boolean, false⟩
  else if pid = 3 then some ⟨"three", some (.enumByIndex ["a", "b", "c"]), false⟩
  else if pid = 4 then some ⟨"four", some (.unitSuffix "ms"), false⟩
  else if pid = 5 then some ⟨"five", some .integer, false⟩
  else if pid = 6 then some ⟨"six", some .raw, false⟩
  else if pid = 7 then some ⟨"seven", none, false⟩
  else none

/-- The parameters with the table E2. -/
def withE2 : Params :=
  { propertyTable := tableE2
    property_uncertain := fun id e h hu => by
      simp only [tableE2] at h
      split_ifs at h <;> cases h <;> cases hu
    property_enum := fun id e names h hd => by
      simp only [tableE2] at h
      split_ifs at h <;> cases h <;> cases hd
      simp }

theorem test_fd1 : recordOf 0 (.ofShort default 5 0x8F) (placedReception fr1) =
    [0x02050100, 0x0000008F, 0, 0, 0, 0, 0, 0, 0, 0x00030051, 0xAAAAAAAA, 0x20912091, 0xD58F8000] := by decide
/-- FD-4b's record, without its bit words. -/
theorem test_failure_words : (failureRecord .frameTruncated (placedReception [])) =
    [0x00FF0004, 0, 0, 0, 0, 0, 0, 0, 0, 0] := by decide
theorem test_fd12_stops : (recordOf 0 (.ofProperty withE2 0 0x50 1 10) (placedReception fr7)).take 3 =
    [0x00000200, 0x060A0150, 0x0A00FF00] := by decide
theorem test_fd12_rejected : (recordOf 0 (.ofProperty withE2 0 0x50 3 3) (placedReception fr7)).take 3 =
    [0x10000200, 0x04030350, 0x00000000] := by decide
theorem test_fd12_unknown : (recordOf 0 (.ofProperty withE2 0 0x51 0x99 0x33) (placedReception fr7)).take 3 =
    [0x0C000200, 0x00339951, 0x00000033] := by decide
theorem test_st5 : decodeValue (some .stops) 55 = some 0x3705FA00 := by decide
theorem test_st10 : decodeValue (some .stops) 100 = none := by decide
theorem test_st7_text : stopsText 15 = some "-1.5 stops (1/4 +0.5)" := by decide

/-! ### The stream buffer: SB-2b, SB-7b, SB-8 -/

/-- The sample `(1, 0)`. -/
def one : Sample := ⟨0x3F800000, 0⟩
/-- The sample `(0, 0)`. -/
def zero : Sample := ⟨0, 0⟩

/-- Beats of a stream, `LAST` on the final one. -/
def lastBeats (zs : List Sample) : List (Sample × Bool) := zs.mapIdx fun n z => (z, n + 1 == zs.length)

/-- The threshold on integers, for a given arithmetic. -/
theorem above_default (z : Sample) : above default z = decide (2 ^ 149 * 2 ^ 149 < 1000 * z.normSqFixed) := rfl

theorem test_one_is_above : above default one = true := by decide
theorem test_zero_is_below : above default zero = false := by decide
/-- SB-8: 0.0317 is above, 0.0316 is not. -/
theorem test_sb8_above : above default ⟨0x3D01D7DC, 0⟩ = true := by decide
theorem test_sb8_below : above default ⟨0x3D016F00, 0⟩ = false := by decide

/-- SB-7b's last beat: a zero beat ends discard mode and is kept. -/
theorem test_sb7b : (({ State.reset with discard := true, count := 305 } : State).beat default zero false) =
    { State.reset with discard := false, count := 305, win := [zero] } := by decide
/-- SB-7b's other beats: an above beat in discard mode is dropped and counted. -/
theorem test_sb7b_dropped : (({ State.reset with discard := true, count := 255 } : State).beat default one false) =
    { State.reset with discard := true, count := 256 } := by decide
/-- A burst of 3 samples after one zero: edges, and no burst is queued below 200 samples (SB-2). -/
theorem test_edges : edges default 0 none [zero, one, one, one, zero, one] = ([(1, 4)], some 5) := by decide
theorem test_short_burst : (State.reset.feedAll default (lastBeats [zero, one, one, one, zero])) =
    { State.reset with count := 5 } := by decide

/-! ### Steps of the default configuration: the vectors CM -/

/-- A state whose next step is the host's bus access `op`. -/
def busState (op : BusOp) (s : State) : State := { s with turns := [.bus], busIn := [op] }

/-- The next state, if there is one. -/
def after : Result → Option State
  | .next s => some s
  | _ => none

theorem test_read_id : after (stepWith default exec (busState (.read 0x00 4) State.reset)) =
    some { State.reset with busOut := [⟨false, 0x47460007⟩] } := by decide
theorem test_half_word_read : after (stepWith default exec (busState (.read 0x00 2) State.reset)) =
    some { State.reset with busOut := [⟨true, 0⟩] } := by decide
theorem test_irq_en : after (stepWith default exec (busState (.write 0x0C 4 0xFFFFFFFF) State.reset)) =
    some { State.reset with irqEn := 0xF9, busOut := [⟨false, 0⟩] } := by decide
theorem test_ctrl_reset_wins : after (stepWith default exec (busState (.write 0x04 4 3) { State.reset with ovf := true })) =
    some { State.reset with busOut := [⟨false, 0⟩] } := by decide
theorem test_eos : after (stepWith default exec { State.reset with turns := [.eos], eosIn := 1 }) =
    some { State.reset with eosFatal := true, rxPhase := .halted } := by decide

/-- R353: with no turn waiting an end of stream that waits is taken. -/
theorem test_idle_eos : after (stepWith default exec { State.reset with eosIn := 1 }) =
    some { State.reset with eosFatal := true, rxPhase := .halted } := by decide
/-- R353: with no turn waiting an issued bus access is taken. -/
theorem test_idle_bus : after (stepWith default exec { State.reset with busIn := [.write 0x04 4 1] }) =
    some { State.reset with rxEn := true, busOut := [⟨false, 0⟩] } := by decide
/-- R355: a new command may wait at the end of a run; an end of stream, a read and a record left unread may not. -/
theorem test_ended :
    ({ State.reset with busIn := [cmdWrite 0xD5000000, .write 0x04 4 2] } : State).ended = true ∧
    ({ State.reset with eosIn := 1 } : State).ended = false ∧
    ({ State.reset with busIn := [.read 0x20 4] } : State).ended = false ∧
    ({ State.reset with rfifo := [[1]] } : State).ended = false := by decide
/-- R355: a record read to its last word is observed. -/
theorem test_observation :
    (State.popMany 3 { State.reset with rfifo := [[1, 2], [3, 4]] }).2.observation default =
      ([[1, 2]], [], 0x01, 0) := by decide

/-! ### Instructions: at most two tests each -/

theorem test_nop_step : step (State.reset.withFetchWord 32 0x00ABCDEF) =
    .next { State.reset with busOut := [⟨false, 0⟩] } := by rfl
/-- CM-9: channel 100 is no wireless ID. -/
theorem test_txs_channel_100 : exec (.txs 0x8F) { State.reset with txChannel := 100 } =
    .next { State.reset with txChannel := 100, cmdErr := true } := by rfl
/-- A transmit command while a frame is being taken is dropped (R289). -/
theorem test_txp_busy : exec (.txp 1 2 3) { State.reset with txPhase := .stream } =
    .next { State.reset with txPhase := .stream, cmdErr := true } := by rfl
theorem test_table_word_txs : step (State.reset.withFetchWord 32 0xD50000FF) =
    exec (.txs 0xFF) { State.reset with busOut := [⟨false, 0⟩] } := by rfl
theorem test_table_word_txp : step (State.reset.withFetchWord 32 0xA9010203) =
    exec (.txp 1 2 3) { State.reset with busOut := [⟨false, 0⟩] } := by rfl
theorem test_table_row_short : decodeTableWord 8 0xD5 = some (.frameShort 0 0) := by decide
theorem test_table_row_prop : decodeTableWord 8 0xA9 = some (.frameProp 0 0 0 0) := by decide
theorem test_table_word_short : step (State.reset.withFetchWord 8 0xD5) =
    exec (.frameShort 0 0) (State.reset.withFetchWord 8 0xD5) := by rfl
theorem test_table_word_prop : step (State.reset.withFetchWord 8 0xA9) =
    exec (.frameProp 0 0 0 0) (State.reset.withFetchWord 8 0xA9) := by rfl

/-! ### Cases that meet the hypotheses of the statements -/

/-- Commands in flight, for the witnesses. -/
def writing (w : Word) : State := busState (.write 0x10 4 w) State.reset

/-- A burst of one sample. -/
def burst1 : Burst := ⟨7, [one]⟩

/-- NopChangesNothing, the last of its words. -/
theorem witness_nop_word : (0x00FFFFFF : Word).extractLsb' 24 8 = 0x00 := by decide

/-- StepRunsTheDecodedInstruction, a command and a frame. -/
theorem witness_step_command :
    (writing 0xD500008F).inflight = none ∧ (writing 0xD500008F).turns = [.bus] ∧
    (writing 0xD500008F).busIn = [.write 0x10 4 0xD500008F] ∧ decodeCommand 0xD500008F = .ok (.txs 0x8F) := by decide

theorem witness_step_frame :
    (State.reset.withFrame fr1).inflight = some (placedReception fr1) ∧
    decodeFrame (placedReception fr1).bits = .ok (.frameShort 5 0x8F) := by decide

/-- ProcessTurnsABurstIntoARecord. -/
theorem witness_process :
    let s := { State.reset with turns := [.rx], rxPhase := .process, pending := [burst1] }
    s.inflight = none ∧ s.turns = .rx :: [] ∧ s.rxPhase = .process ∧
      s.rfifo.length < (default : Params).rfifoDepth ∧ s.pending = burst1 :: [] := by decide

/-- ProcessWaitsForTheResultFifo: outside PROCESS, and with as many records as the FIFO holds. -/
theorem witness_process_waits :
    let s := { State.reset with turns := [.rx] }
    let t := { s with rxPhase := .process, rfifo := [[1], [1]] }
    (s.inflight = none ∧ s.turns = .rx :: [] ∧ s.rxPhase ≠ .process) ∧
    (t.inflight = none ∧ t.turns = .rx :: [] ∧ (default : Params).rfifoDepth ≤ t.rfifo.length) := by decide

/-- TransmitCommandsQueueTheFrame, at the last wireless ID. -/
theorem witness_transmit :
    let s := { State.reset with txChannel := 99 }
    s.txPhase = .idle ∧ s.txChannel.toNat ≤ 99 := by decide

/-- TransmitCommandsAreDropped: a frame being taken, the halted transmitter, and the first channel that is no ID. -/
theorem witness_transmit_dropped :
    ({ State.reset with txPhase := .stream } : State).txPhase ≠ .idle ∧
    ({ State.reset with txPhase := .halted } : State).txPhase ≠ .idle ∧
    99 < ({ State.reset with txChannel := 100 } : State).txChannel.toNat := by decide

/-- IllegalCommandWordSetsCmdErr, both kinds of word. -/
theorem witness_illegal_words :
    (writing 0x01000000).inflight = none ∧ (writing 0x01000000).turns = [.bus] ∧
    (writing 0x01000000).busIn = [.write 0x10 4 0x01000000] ∧
    ((0x01000000 : Word).extractLsb' 24 8 ≠ 0x00 ∧ (0x01000000 : Word).extractLsb' 24 8 ≠ 0xD5 ∧
      (0x01000000 : Word).extractLsb' 24 8 ≠ 0xA9) ∧
    ((0xD5000100 : Word).extractLsb' 24 8 = 0xD5 ∧ (0xD5000100 : Word).extractLsb' 8 16 ≠ 0) := by decide

/-- ShortFrameBecomesARecord, PropertyFrameBecomesARecord. -/
theorem witness_frame_in_decoder : (State.reset.withFrame fr7).inflight = some (placedReception fr7) := rfl

/-- FrameWithoutABurstFaults. -/
theorem witness_no_frame : State.reset.inflight = none := rfl

/-- DecodeOfEncodeIsTheInstruction. -/
theorem witness_well_formed : (Instr.frameProp 99 0xFF 0xFF 0xFF).wellFormed = true := by decide

/-- CommandWordsHaveOneMeaning. -/
theorem witness_command_word : decodeCommand 0xA9000000 = .ok (.txp 0 0 0) := by decide

/-- OneExtraBitIsIgnored: a frame, and an excess of two bits. -/
theorem witness_extra_bits :
    (Instr.frameShort 99 0xFF).wellFormed = true ∧
    encode (.frameShort 99 0xFF) = .frame (frameShortBits 99 0xFF) ∧ 1 < [true, false].length := by decide

/-- FrameLengths: both lengths of both kinds. -/
theorem witness_frame_lengths :
    decodeFrame (frameShortBits 0 0) = .ok (.frameShort 0 0) ∧
    decodeFrame (frameShortBits 0 0 ++ [true]) = .ok (.frameShort 0 0) ∧
    decodeFrame (framePropBits 0 0 0 0) = .ok (.frameProp 0 0 0 0) ∧
    decodeFrame (framePropBits 0 0 0 0 ++ [true]) = .ok (.frameProp 0 0 0 0) := by decide

/-- NetworkCodeIsInjective, at both ends of the id space. -/
theorem witness_network_code : (0 < 100 ∧ 99 < 100) ∧ networkCode 0 = 50024 ∧ networkCode 99 = 500 := by decide

/-- BusReadEffect: a legal read, and one of the wrong size. -/
theorem witness_bus_read :
    (busState (.read 0x20 4) State.reset).inflight = none ∧
    (busState (.read 0x20 4) State.reset).turns = .bus :: [] ∧
    (busState (.read 0x20 4) State.reset).busIn = .read 0x20 4 :: [] ∧
    (busState (.read 0x02 1) State.reset).busIn = .read 0x02 1 :: [] := by decide

/-- BusWriteEffect. -/
theorem witness_bus_write :
    (busState (.write 0x04 4 2) State.reset).inflight = none ∧
    (busState (.write 0x04 4 2) State.reset).turns = .bus :: [] ∧
    (busState (.write 0x04 4 2) State.reset).busIn = .write 0x04 4 2 :: [] := by decide

/-- ResetsRestoreEverything: the reset input, and a soft reset, on its turn and with no turn waiting. -/
theorem witness_resets :
    ({ State.reset with turns := [.reset], ovf := true } : State).resetsNext default = true ∧
    (busState (.write 0x04 4 2) State.reset).resetsNext default = true ∧
    ({ State.reset with busIn := [.write 0x04 4 2] } : State).resetsNext default = true ∧
    after (stepWith default exec { State.reset with turns := [.reset], ovf := true }) = some State.reset := by decide

/-- CountHighHalfIsLatched, SampleCountIsConserved and EveryStepKeepsTheInvariant: a step that is no reset and no read of
`SAMPLE_COUNT_LO`. -/
theorem witness_plain_step :
    State.reset.latchesNext default = false ∧ State.reset.resetsNext default = false ∧
    after (stepWith default exec State.reset) = some State.reset := by decide

/-- A burst of the least length. -/
def burst200 : Burst := ⟨7, List.replicate 200 one⟩

theorem burst200_length : burst200.samples.length = 200 := List.length_replicate

/-- A state in PROCESS with one burst of the least length. -/
def processing : State := { State.reset with count := 208, rxPhase := .process, pending := [burst200] }

/-- EveryStepKeepsTheInvariant: a burst is pending, in order, `count` is far from its wrap, and there is a next state. -/
theorem witness_invariant : Inv default processing ∧ Ordered processing ∧
    processing.count.toNat + (default : Params).wCap < 2 ^ 64 ∧ processing.pending = burst200 :: [] ∧
    ∃ t, stepWith default exec processing = .next t := by
  refine ⟨⟨⟨by decide, by simp [processing, State.reset], fun _ => rfl, fun b hb => ?_, fun b hb z hz => ?_,
        by simp [processing], by decide, rfl⟩,
      ⟨by decide, by simp [processing, State.reset], fun _ => rfl, by simp [processing, State.reset]⟩,
      ⟨by decide, by decide, by simp [processing, State.reset], by simp [processing, State.reset]⟩,
      by simp [IrqInv, processing, State.reset]⟩,
    ⟨List.pairwise_singleton _ _, fun b hb => ?_, .inl rfl, .nil, by simp [processing, State.reset]⟩,
    by decide, rfl, ?_⟩
  · rw [List.mem_singleton.mp hb, burst200_length]
    decide
  · rw [List.mem_singleton.mp hb] at hz
    rw [List.eq_of_mem_replicate hz]
    decide
  · rw [List.mem_singleton.mp hb, burst200_length]
    decide
  · rw [stepWith_idle rfl rfl, idleTurn_of_enabled (by decide)]
    obtain ⟨-, h⟩ | ⟨-, _, _, _, _, _, _, -, -, h⟩ := process_exec default processing <;> exact ⟨_, h⟩

/-- RecordIsReadWordByWord. -/
theorem witness_record :
    let s := { State.reset with rfifo := [[1, 2], [3]] }
    s.rfifo = [1, 2] :: [[3]] ∧ s.rdIdx = 0 ∧ ([1, 2] : Record) ≠ [] := by decide

/-- OtherReadsHaveNoSideEffect. -/
theorem witness_other_read : Csr.id ≠ .sampleCountLo ∧ Csr.id ≠ .result := by decide

/-- AboveIsTheExactThreshold, and every statement whose hypothesis is exact arithmetic. -/
theorem witness_exact : (default : Params).numerics = .exactReals := rfl

/-- SampleBeatEffect: a port that is ready, and in discard mode an above sample. -/
theorem witness_beat :
    let b : PortBeat := ⟨0x000000003F800000, true⟩
    let s := { State.reset with turns := [.port], portIn := [b], rxEn := true }
    s.inflight = none ∧ s.turns = .port :: [] ∧ s.portIn = b :: [] ∧ b.sample.isFinite = true ∧
      s.portReady default = true ∧ above default b.sample = true := by decide

/-- NonFiniteBeatIsRefused: an infinite imaginary part. -/
theorem witness_non_finite :
    let b : PortBeat := ⟨0x7F80000000000000, false⟩
    let s := { State.reset with turns := [.port], portIn := [b], rxEn := true }
    s.inflight = none ∧ s.turns = .port :: [] ∧ s.portIn = b :: [] ∧ b.sample.isFinite = false ∧
      s.portReady default = true := by decide

/-- FullWindowOfOneBurstOverflows. -/
theorem witness_full_window :
    let s := { State.reset with win := List.replicate 1024 one }
    s.win.length = (default : Params).wCap ∧ (∀ z ∈ s.win, above default z = true) ∧ s.pending = [] :=
  ⟨List.length_replicate, fun z hz => by rw [List.eq_of_mem_replicate hz]; decide, rfl⟩

/-- CompactionKeepsTheOpenBurst. -/
theorem witness_compaction :
    let s := { State.reset with win := [zero, one] }
    1 = ((edges default 0 none s.win).2).getD s.win.length ∧ ¬(1 = 0 ∧ s.win.length = (default : Params).wCap) := by decide

/-- ChunkingDoesNotChangeTheBursts. -/
theorem witness_chunking :
    let zs := [zero, one]
    [false, true].length = zs.length ∧ [true, true].length = zs.length ∧
    [false, true].getLast? = some true ∧ [true, true].getLast? = some true ∧
    (State.reset.feedAll default (zs.zip [false, true])).ovf = false ∧
    (State.reset.feedAll default (zs.zip [true, true])).ovf = false := by decide

/-- EndOfStreamEffect. -/
theorem witness_eos :
    let s := { State.reset with turns := [.eos], eosIn := 1 }
    s.inflight = none ∧ s.turns = .eos :: [] ∧ 0 < s.eosIn := by decide

/-- HaltedReceiverStaysHalted. -/
theorem witness_halted_receiver :
    let s := { State.reset with rxPhase := .halted, eosFatal := true }
    s.rxPhase = .halted ∧ s.inflight = none ∧ s.resetsNext default = false ∧ after (stepWith default exec s) = some s := by decide

/-- HaltedTransmitterStaysHalted: a transmit command is dropped. -/
theorem witness_halted_transmitter :
    let s := { writing 0xD5000000 with txPhase := .halted, txFatal := true }
    s.txPhase = .halted ∧ s.txOut = [] ∧ s.resetsNext default = false ∧
    after (stepWith default exec s) =
      some { State.reset with txPhase := .halted, txFatal := true, cmdErr := true, busOut := [⟨false, 0⟩] } := by decide

/-- PathsShareNoDatapathState: both transmit commands, and a turn of the receive path. -/
theorem witness_paths :
    let s := { State.reset with txPhase := .stream }
    after (exec (.txs 1) s) = some { s with cmdErr := true } ∧
    after (exec (.txp 1 2 3) s) = some { s with cmdErr := true } ∧
    after (stepWith default exec { State.reset with turns := [.rx] }) = some State.reset := by decide

/-- PendingBurstsAreProcessed, the second clause: an idle step at reset changes nothing. -/
theorem witness_idle :
    State.reset.inflight = none ∧ State.reset.turns = [] ∧ stepWith default exec State.reset = .next State.reset :=
  ⟨rfl, rfl, rfl⟩

/-- PendingBurstsAreProcessed: one pending burst, and a FIFO that holds a record at least (R343). -/
theorem witness_pending :
    let s := { State.reset with rxPhase := .process, pending := [burst1] }
    s.inflight = none ∧ s.turns = [] ∧ s.rxPhase = .process ∧ s.pending ≠ [] ∧
      s.rfifo.length + s.pending.length ≤ Config.params.rfifoDepth :=
  ⟨rfl, rfl, rfl, by decide, Config.params.rfifoDepth_ge⟩

/-- RecordFields: the largest length the field holds. -/
theorem witness_record_length : (2 ^ 32 - 1 : Nat) < 2 ^ 32 := by decide

/-- DiscriminatorRange: a rate, and DS-3's pair on the negative real axis. -/
theorem witness_discriminator : (0 : ℝ) < 2000000 ∧ ∃ r : ℝ, r < 0 ∧ (-1 : ℂ) * starRingEnd ℂ 1 = r :=
  ⟨by norm_num, -1, by norm_num, by simp⟩

/-- DiscriminatorIgnoresAmplitude. -/
theorem witness_discriminator_pair :
    (2 : ℂ) ≠ 0 ∧ (0 : ℝ) < 2000000 ∧ (∀ z ∈ [(1 : ℂ), Complex.I], z ≠ 0) ∧ 0 + 1 < [(1 : ℂ), Complex.I].length := by
  simp

/-- PowerProfileIgnoresScale. -/
theorem witness_scale : (2 : ℂ) ≠ 0 ∧ [(1 : ℂ)] ≠ [] ∧ ∀ z ∈ [(1 : ℂ)], z ≠ 0 := by simp

/-- InteriorIsNeverTooShort: the shortest burst. -/
theorem witness_interior : 200 ≤ (List.replicate 200 (1 : ℂ)).length := (List.length_replicate).ge

/-- SymbolOffsetIsInOnePeriod, SamplingGrid: the least period, and SM-1's offset. -/
theorem witness_grid : (0 : ℝ) < 2 ∧ (0 : ℝ) ≤ 0.0625 ∧ (2 : ℝ) ≤ 2 := by norm_num

/-- InterpolatorPassesThroughTheSamples: IN-1, the second of two samples. -/
theorem witness_interpolator : 1 < [(3 : ℝ), 5].length := by simp

/-- ConstantBurstFailsTheLock: the sample (1, 0) is not 0. -/
theorem witness_constant_burst :
    (default : Params).numerics = .exactReals ∧ 200 ≤ 200 ∧ one.toComplex ≠ 0 := by
  refine ⟨rfl, le_refl _, fun h => ?_⟩
  have hr : real32 one.re = 0 := congrArg Complex.re h
  have hf : fixed32 one.re = 2 ^ 149 := by decide
  simp [real32, hf] at hr

/-- LeadingBitCompensation, both clauses. -/
theorem witness_compensation :
    let a := [false, true, false, true, false, true, false, true]
    a = a ++ [] ∧ ∀ c, ([] : Bits) ≠ a ++ c := by simp

/-- Parameters whose channel filter is silent. -/
noncomputable def silent : Params := { (default : Params) with lpfTaps := fun _ => 0 }

theorem conv_zero (x : List ℂ) (h : List ℝ) (hz : ∀ t, h.getD t 0 = 0) : ∀ w ∈ conv x h, w = 0 := by
  intro w hw
  simp only [conv, hz, zero_smul, Finset.sum_const_zero, List.map_const', List.mem_replicate] at hw
  exact hw.2

/-- BeatCounts, MinusOneHundredTwentyEightNeverAppears: every frame of these parameters is modulated. -/
theorem witness_modulation (fr : Bits) : silent.numerics = .exactReals ∧ ∃ v, modulation silent fr = some v := by
  refine ⟨rfl, ?_⟩
  have h0 : ∀ w ∈ filtered silent fr, w = 0 := by
    refine conv_zero _ _ fun t => ?_
    rw [List.getD_eq_getElem?_getD, List.getElem?_ofFn]
    split <;> rfl
  have hp : peakOk silent.numerics (filtered silent fr) := by
    intro w hw
    rw [h0 w hw]
    have hn : ¬ silent.numerics.lt .peak 1 |(0 : ℝ)| := by show ¬ (1 : ℝ) < |0|; simp
    exact ⟨hn, hn⟩
  exact ⟨_, if_pos hp⟩

/-- PeakCheckPassesWhenTapsSumToOne. -/
theorem witness_taps : (default : Params).numerics = .exactReals ∧ ∑ t, |(default : Params).lpfTaps t| ≤ 1 := by
  refine ⟨rfl, ?_⟩
  show ∑ t : Fin 15, |((1 / 15 : ℚ) : ℝ)| ≤ 1
  norm_num

/-- QuantiserRounds: both modes. -/
theorem witness_quantiser :
    (default : Params).numerics = .exactReals ∧ (default : Params).quantMode = .trunc ∧
    ({ (default : Params) with quantMode := .nearest } : Params).quantMode = .nearest ∧
    ({ (default : Params) with quantMode := .nearest } : Params).numerics = .exactReals := ⟨rfl, rfl, rfl, rfl⟩

/-- SinkTakesTheHeadBeat: with a beat offered that is a frame's last. -/
theorem witness_sink :
    let s := { State.reset with turns := [.sink], txPhase := .stream, txOut := beatsOf [(127, -127)] }
    s.inflight = none ∧ s.turns = .sink :: [] ∧ s.txOut = [⟨0x7F, 0x81, true⟩] := by decide

/-- FrameIsTakenBeatByBeat. -/
theorem witness_taking :
    let s := { State.reset with txPhase := .stream, txOut := beatsOf [(127, -127)] }
    s.txOut = beatsOf [(127, -127)] ∧ [((127 : ℤ), (-127 : ℤ))] ≠ [] := by decide

end Sys2Proof.Tests
end

/-! SUPPORT. The state's invariant and its order at reset and through every step, the interrupt line, and the reset
values (family 10_state.md). -/

namespace Sys2Proof.Machine

/-! ### STATUS and the interrupt line (R43, R46) -/

/-- No status bit is set after reset: the result FIFO, empty, is not full, having room for a record (R343). -/
theorem statusValue_reset (p : Params) : State.reset.statusValue p = 0 := by
  have hfull : State.reset.resFull p = false := by
    have := p.rfifoDepth_ge
    simp only [State.resFull, State.reset, List.length_nil, beq_eq_false_iff_ne]
    omega
  simp only [State.statusValue, hfull]
  rfl

theorem irq_reset (p : Params) : State.reset.irq p = false := by
  simp only [State.irq, statusValue_reset, BitVec.ofNat_eq_ofNat, BitVec.zero_and, bne_self_eq_false]

theorem irqMask_getLsbD : ∀ i < 32, irqMask.getLsbD i = decide (i ∈ [0, 3, 4, 5, 6, 7]) := by decide

/-- A word has a bit in common with the mask of the interrupt sources when one of the six bits is set (R36). -/
theorem and_irqMask_ne_zero (w : Word) :
    (w &&& irqMask != 0) = [0, 3, 4, 5, 6, 7].any fun b => w.getLsbD b := by
  rw [Bool.eq_iff_iff, bne_iff_ne, List.any_eq_true]
  constructor
  · contrapose!
    intro h
    refine BitVec.eq_of_getLsbD_eq fun i hi => ?_
    rw [BitVec.getLsbD_and, irqMask_getLsbD i hi]
    by_cases hm : i ∈ [0, 3, 4, 5, 6, 7]
    · simp [h i hm]
    · simp [hm]
  · rintro ⟨i, hm, hi⟩ h0
    have hmask := irqMask_getLsbD i (w.lt_of_getLsbD hi)
    have hbit : (w &&& irqMask).getLsbD i = true := by
      rw [BitVec.getLsbD_and, hi, hmask]
      simpa using hm
    simp [h0] at hbit

/-- Settles O22: an enabled source is pending when a bit of `STATUS` meets its enable under the mask of the six. -/
theorem irqIsTheOrOfEnabledSources : Obligations.IrqIsTheOrOfEnabledSources := by
  refine fun p => ⟨fun s => ?_, irq_reset p⟩
  rw [State.irq, and_irqMask_ne_zero]
  simp only [BitVec.getLsbD_and]

/-- Settles O23: the stored values are those of `State.reset`, and the live bits of `STATUS` are 0 there. -/
theorem resetValues : Obligations.ResetValues :=
  ⟨rfl, rfl, rfl, rfl, rfl, rfl, rfl, rfl, rfl, rfl, rfl, rfl, statusValue_reset _, rfl, rfl, rfl, irq_reset _⟩

/-! ### What the invariant depends on -/

/-- The fields the receive invariant is about. -/
def State.rxPart (s : State) : List Sample × Bool × List Burst × RxPhase × Bool × Option Reception :=
  (s.win, s.discard, s.pending, s.rxPhase, s.eosFatal, s.inflight)

/-- The fields the result FIFO's invariant is about. -/
def State.fifoPart (s : State) : List Record × Nat := (s.rfifo, s.rdIdx)

/-- The fields the transmit invariant is about. -/
def State.txPart (s : State) : TxPhase × List TxBeat × Bool := (s.txPhase, s.txOut, s.txFatal)

/-- The fields the order of bursts and records is about. -/
def State.orderPart (s : State) : Count × List Burst × Count × List Record := (s.count, s.pending, s.prevEnd, s.rfifo)

section Frame

variable {p : Params} {s t : State}

theorem RxInv.frame (h : RxInv p s) (ht : t.rxPart = s.rxPart) : RxInv p t := by
  simp only [State.rxPart, Prod.mk.injEq] at ht
  obtain ⟨hwin, hdiscard, hpending, hphase, hfatal, hdecoder⟩ := ht
  obtain ⟨fill, finite, discard, length, above, process, halted, decoder⟩ := h
  constructor <;> simp only [hwin, hdiscard, hpending, hphase, hfatal, hdecoder] <;> assumption

theorem FifoInv.frame (h : FifoInv p s) (ht : t.fifoPart = s.fifoPart) : FifoInv p t := by
  simp only [State.fifoPart, Prod.mk.injEq] at ht
  obtain ⟨hfifo, hidx⟩ := ht
  obtain ⟨depth, records, empty, lt⟩ := h
  constructor <;> simp only [hfifo, hidx] <;> assumption

theorem TxInv.frame (h : TxInv s) (ht : t.txPart = s.txPart) : TxInv t := by
  simp only [State.txPart, Prod.mk.injEq] at ht
  obtain ⟨hphase, hout, hfatal⟩ := ht
  obtain ⟨stream, halted, last, range⟩ := h
  constructor <;> simp only [hphase, hout, hfatal] <;> assumption

theorem IrqInv.frame (h : IrqInv s) (ht : t.irqEn = s.irqEn) : IrqInv t := by
  rw [IrqInv, ht]
  exact h

/-- A state that agrees on what the four parts are about has the invariant too. -/
theorem Inv.frame (h : Inv p s) (hrx : t.rxPart = s.rxPart) (hfifo : t.fifoPart = s.fifoPart)
    (htx : t.txPart = s.txPart) (hirq : t.irqEn = s.irqEn) : Inv p t :=
  ⟨h.rx.frame hrx, h.fifo.frame hfifo, h.tx.frame htx, h.irq.frame hirq⟩

theorem Ordered.frame (h : Ordered s) (ht : t.orderPart = s.orderPart) : Ordered t := by
  simp only [State.orderPart, Prod.mk.injEq] at ht
  obtain ⟨hcount, hpending, hprev, hfifo⟩ := ht
  obtain ⟨lt, count, prev, records, ends⟩ := h
  constructor <;> simp only [hcount, hpending, hprev, hfifo] <;> assumption

end Frame

/-! ### Reset -/

/-- The window has room for a sample, as for a burst of the least length (R343). -/
theorem wCap_pos (p : Params) : 0 < p.wCap := lt_of_lt_of_le (by decide) p.wCap_ge

theorem inv_reset (p : Params) : Inv p State.reset where
  rx := by
    constructor <;> simp [State.reset, wCap_pos]
  fifo := by constructor <;> simp [State.reset]
  tx := by constructor <;> simp [State.reset]
  irq := by simp [IrqInv, State.reset]

theorem ordered_reset : Ordered State.reset := by constructor <;> simp [State.reset]

/-- Settles O41: after reset every queue is empty and every path open. -/
theorem resetHasTheInvariant : Obligations.ResetHasTheInvariant := fun p => ⟨inv_reset p, ordered_reset⟩

theorem inv_blockReset (p : Params) (s : State) : Inv p s.blockReset := (inv_reset p).frame rfl rfl rfl rfl

theorem ordered_blockReset (s : State) : Ordered s.blockReset := ordered_reset.frame rfl

/-! ### The records of the result FIFO (R92 to R97) -/

section Records

theorem word0_status (st : Byte) (m : Message) (pre : Bool) : (word0 st m pre).extractLsb' 0 8 = st := by
  refine BitVec.eq_of_getLsbD_eq fun i hi => ?_
  simp [word0_getLsbD, hi]

theorem word0_kind (st : Byte) (m : Message) (pre : Bool) : (word0 st m pre).extractLsb' 8 8 = m.kind := by
  refine BitVec.eq_of_getLsbD_eq fun i hi => ?_
  have : 8 + i < 16 := by omega
  simp [word0_getLsbD, hi, this]

theorem word0_reserved (st : Byte) (m : Message) (pre : Bool) : (word0 st m pre).extractLsb' 30 2 = 0 := by
  refine BitVec.eq_of_getLsbD_eq fun i hi => ?_
  have hlt : ∀ k ≤ 30, ¬ 30 + i < k := fun k hk => by omega
  have hne : ∀ k < 30, 30 + i ≠ k := fun k hk => by omega
  rw [BitVec.getLsbD_extractLsb', word0_getLsbD]
  simp [hlt, hne]

theorem word1_reserved (m : Message) : (word1 m).extractLsb' 27 5 = 0 := by
  refine BitVec.eq_of_getLsbD_eq fun i hi => ?_
  have : ∀ k ≤ 27, ¬ 27 + i < k := fun k hk => by omega
  simp [word1_getLsbD, this]

theorem word1_decKind (m : Message) : (word1 m).extractLsb' 24 3 = m.decKind := by
  refine BitVec.eq_of_getLsbD_eq fun i hi => ?_
  have hlt : 24 + i < 27 := by omega
  have hge : ∀ k ≤ 24, ¬ 24 + i < k := fun k hk => by omega
  simp [word1_getLsbD, hi, hlt, hge]

theorem word9_nwords (b : Bits) : ((word9 b).extractLsb' 16 16).toNat = nwords b := by
  have : (word9 b).extractLsb' 16 16 = BitVec.ofNat 16 (nwords b) :=
    BitVec.eq_of_getLsbD_eq fun i hi => by simp [word9_getLsbD, hi]
  have := nwords_le b
  simp only [*, BitVec.toNat_ofNat]
  omega

/-- A record is valid when its status code and kind exist, one of them is not 0, and its decoder kind exists. -/
theorem validRecord_recordOf {st : Byte} {m : Message} (r : Reception) (hst : st.toNat ≤ 10) (hkind : m.kind.toNat ≤ 2)
    (hne : st ≠ 0 ∨ m.kind ≠ 0) (hdec : m.decKind ≠ 7) : ValidRecord (recordOf st m r) where
  length_ge := by rw [recordOf_length]; omega
  length_le := by have := nwords_le r.bits; rw [recordOf_length]; omega
  length_eq := (recordOf_length st m r).trans (congrArg (10 + ·) (word9_nwords r.bits).symm)
  status_le := (congrArg BitVec.toNat (word0_status st m r.prepended)).trans_le hst
  kind_le := (congrArg BitVec.toNat (word0_kind st m r.prepended)).trans_le hkind
  reserved0 := word0_reserved st m r.prepended
  reserved1 := word1_reserved m
  decKind_ne := (word1_decKind m).trans_ne hdec
  word0_ne := by
    intro (h : word0 st m r.prepended = 0)
    have hs := word0_status st m r.prepended
    have hk := word0_kind st m r.prepended
    rw [h] at hs hk
    exact hne.elim (absurd hs.symm) (absurd hk.symm)

theorem statusCode_range (code : BurstFail) : (statusCode code).toNat ≤ 10 ∧ statusCode code ≠ 0 := by
  cases code <;> decide

theorem decKind_ne_seven (d : Option ValueDecoder) : decKind d ≠ 7 := by
  rcases d with _ | d
  · decide
  · cases d <;> simp [decKind]

/-- `ABS_START` of a record is that of its burst: words 3 and 4 are its halves (R94). -/
theorem recordStart_recordOf (st : Byte) (m : Message) (r : Reception) :
    recordStart (recordOf st m r) = r.absStart := by
  refine BitVec.eq_of_getLsbD_eq fun i hi => ?_
  change (r.absStart.extractLsb' 32 32 ++ r.absStart.extractLsb' 0 32 : BitVec 64).getLsbD i = _
  rw [getLsbD_append_32_32]
  split
  · simp [*]
  · have hlt : i - 32 < 32 := by omega
    have hadd : 32 + (i - 32) = i := by omega
    simp [hlt, hadd]

/-- The record a parsed burst ends in is one the block can produce, and it is that burst's. -/
theorem ParseRecord.valid {r : Reception} {rec : Record} (h : ParseRecord r rec) :
    ValidRecord rec ∧ recordStart rec = r.absStart := by
  cases h with
  | failure code =>
    obtain ⟨hle, hne⟩ := statusCode_range code
    exact ⟨validRecord_recordOf r hle (by decide) (.inl hne) (by decide), recordStart_recordOf ..⟩
  | short wid cmd =>
    exact ⟨validRecord_recordOf r (by decide) (by simp [Message.ofShort]) (.inr (by simp [Message.ofShort]))
      (by simp [Message.ofShort]), recordStart_recordOf ..⟩
  | property wid tg pid x =>
    exact ⟨validRecord_recordOf r (by decide) (by simp [Message.ofProperty]) (.inr (by simp [Message.ofProperty]))
      (decKind_ne_seven _), recordStart_recordOf ..⟩

end Records

/-! ### The beats of a frame (R82, R83, R255 to R261) -/

section Beats

variable {p : Params}

theorem length_conv {α : Type} [AddCommMonoid α] [Module ℝ α] (x : List α) (h : List ℝ) :
    (conv x h).length = x.length + h.length - 1 := by simp [conv]

/-- A frame has beats: the two filters alone make its signal longer than nothing. -/
theorem filtered_ne_nil (p : Params) (fr : Bits) : filtered p fr ≠ [] := by
  refine List.ne_nil_of_length_pos ?_
  simp only [filtered, length_conv, List.length_ofFn]
  omega

/-- A component the peak check lets pass is quantised to -127..127, in any arithmetic (R83, R260, R261). -/
theorem abs_quantise_le {v : ℝ} (hv : p.numerics = .exactReals → |v| ≤ 1) : |quantise p v| ≤ 127 := by
  have magnitude (half y : ℝ) (h0 : 0 ≤ half) (h1 : half < 1) (hy : 0 ≤ y) (hle : y ≤ 127 * |v|) :
      |p.numerics.quantFloor (y + half)| ≤ 127 := by
    rw [abs_of_nonneg (p.numerics.quantFloor_nonneg (by linarith))]
    exact p.numerics.quantFloor_le fun hx => by linarith [hv hx]
  have scaled (half : ℝ) (h0 : 0 ≤ half) (h1 : half < 1) :
      |if 0 ≤ 127 * v then p.numerics.quantFloor (127 * v + half)
        else -p.numerics.quantFloor (-(127 * v) + half)| ≤ 127 := by
    split
    · exact magnitude half _ h0 h1 ‹_› (by linarith [le_abs_self v])
    · rw [abs_neg]
      exact magnitude half _ h0 h1 (by linarith) (by linarith [neg_abs_le v])
  have hscale : ((Config.qScale : ℕ) : ℝ) = 127 := by norm_num [Config.qScale]
  simp only [quantise, hscale]
  cases p.quantMode
  · exact scaled 0 le_rfl one_pos
  · exact scaled (1 / 2) (by norm_num) (by norm_num)

/-- A modulated frame: at least one beat, every component in -127..127. -/
theorem modulation_range {fr : Bits} {v : List (ℤ × ℤ)} (h : modulation p fr = some v) :
    v ≠ [] ∧ ∀ w ∈ v, |w.1| ≤ 127 ∧ |w.2| ≤ 127 := by
  simp only [modulation, Option.ite_none_right_eq_some, Option.some.injEq] at h
  obtain ⟨hpeak, rfl⟩ := h
  refine ⟨by simpa using filtered_ne_nil p fr, fun w hw => ?_⟩
  obtain ⟨z, hz, rfl⟩ := List.mem_map.mp hw
  obtain ⟨hre, him⟩ := hpeak z hz
  refine ⟨abs_quantise_le fun hx => ?_, abs_quantise_le fun hx => ?_⟩
  · simpa [hx] using hre
  · simpa [hx] using him

theorem ofInt_ne_minimum {x : ℤ} (hx : |x| ≤ 127) : BitVec.ofInt 8 x ≠ 0x80 := by
  intro h
  obtain ⟨hlo, hhi⟩ := abs_le.mp hx
  have hself : (BitVec.ofInt 8 x).toInt = x := by
    rw [BitVec.toInt_ofInt]
    exact Int.bmod_eq_of_le (by omega) (by omega)
  have hmin : (0x80 : Byte).toInt = -128 := by decide
  rw [h, hmin] at hself
  omega

theorem mem_beatsOf {v : List (ℤ × ℤ)} {b : TxBeat} (h : b ∈ beatsOf v) :
    ∃ w ∈ v, b.i = BitVec.ofInt 8 w.1 ∧ b.q = BitVec.ofInt 8 w.2 := by
  obtain ⟨n, hn, rfl⟩ := List.mem_mapIdx.mp h
  exact ⟨v[n], List.getElem_mem hn, rfl, rfl⟩

/-- `LAST` is on the beat that nothing follows (R82). -/
theorem beatsOf_last {v : List (ℤ × ℤ)} {pre post : List TxBeat} {b : TxBeat} (h : beatsOf v = pre ++ b :: post) :
    b.last = true ↔ post = [] := by
  have hlen : v.length = pre.length + (post.length + 1) := by
    simpa [beatsOf] using congrArg List.length h
  have hb : b.last = (pre.length + 1 == v.length) := by
    have hget : (beatsOf v)[pre.length]? = some b := by simp [h]
    simp only [beatsOf, List.getElem?_mapIdx, Option.map_eq_some_iff] at hget
    obtain ⟨w, -, rfl⟩ := hget
    rfl
  rw [hb, beq_iff_eq, ← List.length_eq_zero_iff]
  omega

end Beats

/-! ### The shared operations keep the invariant -/

section Operations

variable {p : Params} {s : State}

theorem Inv.resultPop (h : Inv p s) : Inv p s.resultPop.2 := by
  obtain ⟨hrx, ⟨hdepth, hrecords, hempty, hlt⟩, htx, hirq⟩ := h
  obtain he | ⟨r, rest, hf, hr, he⟩ | ⟨r, rest, hf, -, he⟩ := resultPop_cases s <;> rw [he]
  · exact ⟨hrx, ⟨hdepth, hrecords, hempty, hlt⟩, htx, hirq⟩
  · refine ⟨hrx.frame rfl, ⟨hdepth, hrecords, by simp [hf], ?_⟩, htx.frame rfl, hirq⟩
    intro q qs hq
    obtain ⟨rfl, -⟩ := List.cons.inj (hf.symm.trans hq)
    exact hr
  · rw [hf] at hdepth hrecords
    have hrecords' : ∀ q ∈ rest, ValidRecord q := fun q hq => hrecords q (List.mem_cons_of_mem r hq)
    refine ⟨hrx.frame rfl, ⟨(Nat.le_succ _).trans hdepth, hrecords', fun _ => rfl, ?_⟩, htx.frame rfl, hirq⟩
    rintro q qs (rfl : rest = q :: qs)
    have := (hrecords' q (by simp)).length_ge
    change 0 < q.length
    omega

theorem Ordered.resultPop (h : Ordered s) : Ordered s.resultPop.2 := by
  obtain he | ⟨r, rest, -, -, he⟩ | ⟨r, rest, hf, -, he⟩ := resultPop_cases s <;> rw [he]
  · exact h
  · exact h.frame rfl
  · obtain ⟨hlt, hcount, hprev, hrecords, hends⟩ := h
    rw [hf] at hrecords hends
    exact ⟨hlt, hcount, hprev, hrecords.of_cons, fun q hq => hends q (List.mem_cons_of_mem r hq)⟩

/-- A frame is streamed while beats wait, the last of them marked: the stream ends with the marked beat (R262). -/
theorem TxInv.takeBeat (h : TxInv s) : TxInv s.takeBeat := by
  obtain ⟨-, he⟩ | ⟨b, rest, ho, hb, he⟩ | ⟨b, rest, ho, hb, he⟩ := takeBeat_cases s <;> rw [he]
  · exact h
  all_goals
    obtain ⟨hstream, hhalted, hlast, hrange⟩ := h
    rw [ho] at hstream hlast hrange
    have hphase : s.txPhase = .stream := hstream.mpr (by simp)
    have hrest : b.last = true ↔ rest = [] := hlast [] b rest rfl
    have hlast' : ∀ pre c post, rest = pre ++ c :: post → (c.last = true ↔ post = []) := fun pre c post hr =>
      hlast (b :: pre) c post (by rw [hr, List.cons_append])
    have hrange' : ∀ c ∈ rest, c.i ≠ 0x80 ∧ c.q ≠ 0x80 := fun c hc => hrange c (List.mem_cons_of_mem b hc)
    rw [hb] at hrest
  · exact ⟨by simpa [hphase] using hrest, hhalted, hlast', hrange'⟩
  · obtain rfl := hrest.mp rfl
    exact ⟨by simp, by simpa [hphase] using hhalted, hlast', hrange'⟩

theorem Inv.takeBeat (h : Inv p s) : Inv p s.takeBeat := by
  have htx := h.tx.takeBeat
  obtain ⟨-, he⟩ | ⟨_, _, -, -, he⟩ | ⟨_, _, -, -, he⟩ := takeBeat_cases s <;> rw [he] at htx ⊢ <;>
    exact ⟨h.rx.frame rfl, h.fifo.frame rfl, htx, h.irq⟩

theorem Ordered.takeBeat (h : Ordered s) : Ordered s.takeBeat := by
  obtain ⟨-, he⟩ | ⟨_, _, -, -, he⟩ | ⟨_, _, -, -, he⟩ := takeBeat_cases s <;> rw [he] <;> exact h.frame rfl

/-- A frame is queued, or the transmit path halts, only from an idle transmitter (R289). -/
theorem TxInv.transmitChecked {cmd : TxCommand} (q : Params) (h : TxInv s) : TxInv (s.transmitChecked q cmd) := by
  obtain ⟨-, he⟩ | ⟨hready, v, hv, he⟩ | ⟨hready, -, he⟩ := transmitChecked_cases q cmd s <;> rw [he]
  · exact h.frame rfl
  all_goals
    obtain ⟨hstream, hhalted, hlast, hrange⟩ := h
    have hidle : s.txPhase = .idle := ((txReady_iff s).mp hready).1
    rw [hidle] at hstream hhalted
  · obtain ⟨hne, hbound⟩ := modulation_range hv
    refine ⟨by simp [beatsOf, hne], by simpa using hhalted, fun _ _ _ => beatsOf_last, fun b hb => ?_⟩
    obtain ⟨w, hw, hi, hq⟩ := mem_beatsOf hb
    obtain ⟨hfst, hsnd⟩ := hbound w hw
    exact ⟨hi ▸ ofInt_ne_minimum hfst, hq ▸ ofInt_ne_minimum hsnd⟩
  · exact ⟨by simpa [State.raise] using hstream, by simp [State.raise], hlast, hrange⟩

theorem Inv.transmitChecked {cmd : TxCommand} (q : Params) (h : Inv p s) : Inv p (s.transmitChecked q cmd) := by
  have htx := h.tx.transmitChecked (cmd := cmd) q
  obtain ⟨-, he⟩ | ⟨-, _, -, he⟩ | ⟨-, -, he⟩ := transmitChecked_cases q cmd s <;> rw [he] at htx ⊢ <;>
    exact ⟨h.rx.frame rfl, h.fifo.frame rfl, htx, h.irq⟩

theorem Ordered.transmitChecked {cmd : TxCommand} (q : Params) (h : Ordered s) : Ordered (s.transmitChecked q cmd) := by
  obtain ⟨-, he⟩ | ⟨-, _, -, he⟩ | ⟨-, -, he⟩ := transmitChecked_cases q cmd s <;> rw [he] <;> exact h.frame rfl

/-- An access on the bus keeps the invariant, whatever it is. -/
theorem BusMove.inv {op : BusOp} {t : State} (hm : BusMove p s op t) (h : Inv p s) : Inv p t := by
  have answered (a : BusReply) : Inv p (s.reply a) := h.frame rfl rfl rfl rfl
  cases hm with
  | answer _ a => exact answered a
  | pop _ a => exact h.resultPop.frame rfl rfl rfl rfl
  | softReset => exact inv_blockReset p _
  | irqEn _ v => exact ⟨h.rx.frame rfl, h.fifo.frame rfl, h.tx.frame rfl, by simp [IrqInv, BitVec.and_assoc]⟩
  | transmit _ cmd => exact (answered .ack).transmitChecked _
  | latch | rxEn | acknowledge | txChannel | cmdErr => exact h.frame rfl rfl rfl rfl

theorem BusMove.ordered {op : BusOp} {t : State} (hm : BusMove p s op t) (h : Ordered s) : Ordered t := by
  cases hm with
  | pop _ a => exact h.resultPop.frame rfl
  | softReset => exact ordered_blockReset _
  | transmit _ cmd => exact (h.frame rfl : Ordered (s.reply .ack)).transmitChecked _
  | answer | irqEn | latch | rxEn | acknowledge | txChannel | cmdErr => exact h.frame rfl

end Operations

/-! ### A sample beat (R121 to R128) -/

section Beat

variable {p : Params} {s : State}

/-- The receive path between a beat's sample entering the window, which may now be full, and the scan. -/
structure Scannable (p : Params) (s : State) : Prop where
  fill_le : s.win.length ≤ p.wCap
  win_finite : ∀ z ∈ s.win, z.isFinite = true
  discard_off : s.discard = false
  pending_empty : s.pending = []
  accepting : s.rxPhase = .accept
  no_eosFatal : s.eosFatal = false
  decoder_empty : s.inflight = none

theorem portReady_iff : s.portReady p = true ↔
    s.rxPhase = .accept ∧ s.rxEn = true ∧ (s.discard = true ∨ s.win.length < p.wCap) := by
  simp [State.portReady, and_assoc]

/-- With the port open no burst is pending and no end of stream has come. -/
theorem RxInv.of_accept (h : RxInv p s) (ha : s.rxPhase = .accept) : s.pending = [] ∧ s.eosFatal = false := by
  have hprocess := h.process_iff
  have hhalted := h.halted_iff
  simp only [ha, reduceCtorEq, false_iff, Decidable.not_not, Bool.not_eq_true] at hprocess hhalted
  exact ⟨hprocess, hhalted⟩

theorem RxInv.scannable {z : Sample} (h : RxInv p s) (ha : s.rxPhase = .accept) (hz : z.isFinite = true) :
    Scannable p { s with discard := false, win := s.win ++ [z] } where
  fill_le := by simpa using h.fill_lt
  win_finite := by simpa [or_imp, forall_and, hz] using h.win_finite
  discard_off := rfl
  pending_empty := (h.of_accept ha).1
  accepting := ha
  no_eosFatal := (h.of_accept ha).2
  decoder_empty := h.decoder_empty

theorem Scannable.scan (h : Scannable p s) : RxInv p (s.scan p) := by
  have hfound := fun b hb => mem_foundBursts (p := p) (s := s) (b := b) hb
  have hlength : ∀ b ∈ foundBursts p s, Config.minBurst ≤ b.samples.length ∧ b.samples.length < p.wCap := fun b hb =>
    ⟨(hfound b hb).1, (hfound b hb).2.1.trans_le h.fill_le⟩
  have habove : ∀ b ∈ foundBursts p s, ∀ z ∈ b.samples, z.isFinite = true ∧ above p z = true := fun b hb z hz =>
    ⟨h.win_finite z ((hfound b hb).2.2 z hz).1, ((hfound b hb).2.2 z hz).2⟩
  have hprocess : (if foundBursts p s = [] then s.rxPhase else .process) = RxPhase.process ↔ foundBursts p s ≠ [] := by
    split <;> simp [*, h.accepting]
  have hhalted : (if foundBursts p s = [] then s.rxPhase else .process) = RxPhase.halted ↔ s.eosFatal = true := by
    split <;> simp [h.accepting, h.no_eosFatal]
  obtain ⟨-, he⟩ | ⟨keep, hkeep, hnot, he⟩ := scan_cases p s <;> rw [he, h.pending_empty, List.nil_append]
  · exact ⟨wCap_pos p, by simp, fun _ => rfl, hlength, habove, hprocess, hhalted, h.decoder_empty⟩
  · refine ⟨?_, fun z hz => h.win_finite z (List.mem_of_mem_drop hz), by simp [h.discard_off], hlength, habove,
      hprocess, hhalted, h.decoder_empty⟩
    have := h.fill_le
    simp only [List.length_drop]
    omega

theorem RxInv.beat {z : Sample} {last : Bool} (h : RxInv p s) (ha : s.rxPhase = .accept) (hz : z.isFinite = true) :
    RxInv p (s.beat p z last) := by
  obtain ⟨-, -, he⟩ | ⟨-, -, hfill, he⟩ | ⟨-, -, he⟩ := beat_cases p z last s <;> rw [he]
  · exact h.frame rfl
  · have hs := h.scannable ha hz
    exact ⟨lt_of_le_of_ne hs.fill_le (by simpa using hfill), hs.win_finite, by simp, h.pending_length, h.pending_above,
      h.process_iff, h.halted_iff, h.decoder_empty⟩
  · exact (h.scannable ha hz).scan

/-- A beat is the receive path's: it touches neither the result FIFO nor the transmit path nor the enables. -/
theorem Inv.beat {z : Sample} {last : Bool} (h : Inv p s) (ha : s.rxPhase = .accept) (hz : z.isFinite = true) :
    Inv p (s.beat p z last) := by
  have hrx := h.rx.beat (last := last) ha hz
  obtain ⟨-, -, he⟩ | ⟨-, -, -, he⟩ | ⟨-, -, he⟩ := beat_cases p z last s <;> rw [he] at hrx ⊢
  · exact ⟨hrx, h.fifo.frame rfl, h.tx.frame rfl, h.irq⟩
  · exact ⟨hrx, h.fifo.frame rfl, h.tx.frame rfl, h.irq⟩
  · obtain ⟨-, hs⟩ | ⟨_, -, -, hs⟩ :=
      scan_cases p ({ s with discard := false, win := s.win ++ [z] } : State) <;> rw [hs] at hrx ⊢ <;>
      exact ⟨hrx, h.fifo.frame rfl, h.tx.frame rfl, h.irq⟩

/-- The edges of a window are in order: a burst ends before the next begins, and before the open one begins, with the
sample that ended it between them (R124). -/
theorem edges_ordered (w : List Sample) :
    (edges p 0 none w).1.Pairwise (fun b c => b.2 < c.1) ∧
    ∀ b ∈ (edges p 0 none w).1, b.2 < (edges p 0 none w).2.getD w.length := by
  induction w using List.reverseRecOn with
  | nil => simp [edges]
  | append_singleton w z ih =>
    obtain ⟨hpair, hopen⟩ := ih
    rw [edges_snoc]
    cases hz : above p z with
    | true => exact ⟨hpair, by simpa using hopen⟩
    | false =>
      have hend : ∀ b ∈ (edges p 0 none w).1, b.2 < w.length := fun b hb => (edges_complete hb).2.1
      cases ho : (edges p 0 none w).2 with
      | none => exact ⟨by simpa using hpair, fun b hb => by have := hend b (by simpa using hb); simp; omega⟩
      | some a =>
        rw [ho, Option.getD_some] at hopen
        refine ⟨by simpa [List.pairwise_append, hpair] using fun x y hxy => hopen (x, y) hxy, fun b hb => ?_⟩
        simp only [Bool.false_eq_true, if_false, Option.map_some, Option.toList_some, List.mem_append,
          List.mem_singleton] at hb
        obtain hb | rfl := hb
        · have := hend b hb
          simp; omega
        · simp

/-- A scan moves `count` past the end of every burst it finds, by a window at most (R126, R127). -/
theorem scan_count (h : s.win.length ≤ p.wCap) :
    ∃ k ≤ p.wCap, (s.scan p).count = s.count + BitVec.ofNat 64 k ∧ ∀ b ∈ (edges p 0 none s.win).1, b.2 < k := by
  have hscan : (s.scan p).count =
      (State.compact p (edges p 0 none s.win).2 { s with pending := s.pending ++ foundBursts p s }).count := by
    simp only [State.scan]
    split <;> rfl
  obtain ⟨-, hfull, he⟩ | ⟨-, he⟩ :=
    compact_cases p (edges p 0 none s.win).2 { s with pending := s.pending ++ foundBursts p s } <;> rw [hscan, he]
  · exact ⟨p.wCap, le_rfl, rfl, fun b hb => (edges_complete hb).2.1.trans_le h⟩
  · refine ⟨_, ?_, rfl, (edges_ordered s.win).2⟩
    cases ho : (edges p 0 none s.win).2 with
    | none => simpa using h
    | some a => exact ((edges_open ho).1.le).trans h

theorem scan_unchanged (p : Params) (s : State) :
    (s.scan p).pending = s.pending ++ foundBursts p s ∧ (s.scan p).prevEnd = s.prevEnd ∧
      (s.scan p).rfifo = s.rfifo := by
  obtain ⟨-, he⟩ | ⟨_, -, -, he⟩ := scan_cases p s <;> rw [he] <;> exact ⟨rfl, rfl, rfl⟩

/-- Where a burst of the window begins and ends in the stream, while `count` does not wrap (log entry 18). -/
theorem burstOf_span {b : Nat × Nat} (hb : b ∈ (edges p 0 none s.win).1)
    (hw : s.count.toNat + s.win.length < 2 ^ 64) :
    (burstOf s b).absStart.toNat = s.count.toNat + b.1 ∧
    (burstOf s b).absStart.toNat + (burstOf s b).samples.length = s.count.toNat + b.2 := by
  obtain ⟨hlt, hend, -⟩ := edges_complete hb
  have hstart : (burstOf s b).absStart.toNat = s.count.toNat + b.1 := by
    simp only [burstOf, BitVec.toNat_add, BitVec.toNat_ofNat]
    omega
  have hlength : (burstOf s b).samples.length = b.2 - b.1 := by
    simp only [burstOf, List.length_take, List.length_drop]
    omega
  omega

theorem mem_foundBursts_edge {b : Burst} (h : b ∈ foundBursts p s) :
    ∃ e ∈ (edges p 0 none s.win).1, burstOf s e = b := by
  obtain ⟨e, he, rfl⟩ := List.mem_map.mp h
  exact ⟨e, List.mem_of_mem_filter he, rfl⟩

theorem foundBursts_ordered (hw : s.count.toNat + s.win.length < 2 ^ 64) :
    (foundBursts p s).Pairwise fun b c => b.absStart.toNat + b.samples.length < c.absStart.toNat := by
  refine List.pairwise_map.mpr ((edges_ordered s.win).1.filter _ |>.imp_of_mem fun {b c} hb hc hbc => ?_)
  rw [(burstOf_span (List.mem_of_mem_filter hb) hw).2, (burstOf_span (List.mem_of_mem_filter hc) hw).1]
  omega

theorem Ordered.scan (h : Ordered s) (hs : Scannable p s) (hw : s.count.toNat + p.wCap < 2 ^ 64) :
    Ordered (s.scan p) := by
  obtain ⟨-, -, hprev, hrecords, hends⟩ := h
  obtain ⟨k, hk, hcount, hpast⟩ := scan_count hs.fill_le
  have hcount : (s.scan p).count.toNat = s.count.toNat + k := by
    simp only [hcount, BitVec.toNat_add, BitVec.toNat_ofNat]
    omega
  have hwin : s.count.toNat + s.win.length < 2 ^ 64 := by have := hs.fill_le; omega
  obtain ⟨hpending, hprevEnd, hfifo⟩ := scan_unchanged p s
  rw [hs.pending_empty, List.nil_append] at hpending
  constructor
  case pending_lt => rw [hpending]; exact foundBursts_ordered hwin
  case pending_count =>
    rw [hpending, hcount]
    intro b hb
    obtain ⟨e, he, rfl⟩ := mem_foundBursts_edge hb
    have := hpast e he
    rw [(burstOf_span he hwin).2]
    omega
  case prevEnd_lt =>
    rw [hpending, hprevEnd, hcount]
    refine hprev.imp_right fun ⟨hlt, _⟩ => ⟨by omega, fun b hb => ?_⟩
    obtain ⟨e, he, rfl⟩ := mem_foundBursts_edge hb
    rw [(burstOf_span he hwin).1]
    omega
  case records_lt => rw [hfifo]; exact hrecords
  case records_prevEnd => rw [hfifo, hprevEnd]; exact hends

theorem Ordered.beat {z : Sample} {last : Bool} (h : Ordered s) (hrx : RxInv p s) (ha : s.rxPhase = .accept)
    (hz : z.isFinite = true) (hw : s.count.toNat + p.wCap < 2 ^ 64) : Ordered (s.beat p z last) := by
  obtain ⟨-, -, he⟩ | ⟨-, -, -, he⟩ | ⟨-, -, he⟩ := beat_cases p z last s <;> rw [he]
  · have hroom := wCap_pos p
    have hcount : (s.count + 1).toNat = s.count.toNat + 1 := by
      have hone : (1 : Count).toNat = 1 := rfl
      rw [BitVec.toNat_add, hone]
      omega
    obtain ⟨hlt, -, hprev, hrecords, hends⟩ := h
    have hnone := (hrx.of_accept ha).1
    refine ⟨hlt, by simp [hnone], hprev.imp_right fun ⟨hp, hb⟩ => ⟨?_, hb⟩, hrecords, hends⟩
    change s.prevEnd.toNat < (s.count + 1).toNat
    omega
  · exact h.frame rfl
  · exact Ordered.scan (h.frame rfl) (hrx.scannable ha hz) hw

end Beat

/-! ### PROCESS (R130) -/

section Process

variable {p : Params} {s : State} {b : Burst} {rest : List Burst} {rec : Record}

theorem RxInv.process (h : RxInv p s) (hphase : s.rxPhase = .process) (hp : s.pending = b :: rest) :
    RxInv p ((s.popBurst b rest).deliver rec) := by
  obtain ⟨hfill, hfinite, hdiscard, hlength, habove, -, hhalted, -⟩ := h
  have heos : s.eosFatal = false := by simpa [hphase] using hhalted
  rw [hp] at hlength habove
  have hnext : ((s.popBurst b rest).deliver rec).rxPhase = if rest = [] then .accept else .process := by
    simp [State.deliver, hphase]
  refine ⟨hfill, hfinite, hdiscard, fun c hc => hlength c (List.mem_cons_of_mem b hc),
    fun c hc => habove c (List.mem_cons_of_mem b hc), ?_, ?_, rfl⟩
  · rw [hnext, deliver_pending, popBurst_pending]
    split <;> simp [*]
  · rw [hnext, deliver_eosFatal, popBurst_eosFatal, heos]
    split <;> simp

theorem FifoInv.deliver (h : FifoInv p s) (hroom : s.rfifo.length < p.rfifoDepth) (hrec : ValidRecord rec) :
    FifoInv p (s.deliver rec) := by
  obtain ⟨-, hrecords, hempty, hlt⟩ := h
  refine ⟨by simpa [State.deliver] using hroom, ?_, by simp [State.deliver], ?_⟩
  · simpa [State.deliver, or_imp, forall_and, hrec] using hrecords
  · intro r qs hr
    simp only [State.deliver] at hr ⊢
    cases hf : s.rfifo with
    | nil =>
      rw [hf, List.nil_append, List.cons.injEq] at hr
      obtain ⟨rfl, -⟩ := hr
      have := hrec.length_ge
      rw [hempty hf]
      omega
    | cons q qs' =>
      rw [hf, List.cons_append, List.cons.injEq] at hr
      obtain ⟨rfl, -⟩ := hr
      exact hlt q qs' hf

theorem Inv.process (h : Inv p s) (he : s.rxEnabled p = true) (hp : s.pending = b :: rest) (hrec : ValidRecord rec) :
    Inv p ((s.popBurst b rest).deliver rec) := by
  obtain ⟨hphase, hroom, -⟩ := rxEnabled_iff.mp he
  exact ⟨h.rx.process hphase hp, FifoInv.deliver (h.fifo.frame rfl) hroom hrec, h.tx.frame rfl, h.irq⟩

/-- The end of a pending burst does not wrap: it lies before `count`. -/
theorem Ordered.pendingEnd_toNat (h : Ordered s) (hb : b ∈ s.pending) :
    (b.absStart + BitVec.ofNat 64 b.samples.length).toNat = b.absStart.toNat + b.samples.length := by
  have := h.pending_count b hb
  have := s.count.isLt
  rw [BitVec.toNat_add, BitVec.toNat_ofNat]
  omega

theorem Ordered.process (h : Ordered s) (hrx : RxInv p s) (hp : s.pending = b :: rest)
    (hstart : recordStart rec = b.absStart) : Ordered ((s.popBurst b rest).deliver rec) := by
  have hb : b ∈ s.pending := by simp [hp]
  have hend := h.pendingEnd_toNat hb
  have hlong : 200 ≤ b.samples.length := (hrx.pending_length b hb).1
  obtain ⟨hlt, hcount, hprev, hrecords, hends⟩ := h
  rw [hp] at hlt hcount hprev
  obtain ⟨hnext, hlt⟩ := List.pairwise_cons.mp hlt
  have hbefore : ∀ r ∈ s.rfifo, (recordStart r).toNat < b.absStart.toNat := fun r hr => by
    obtain h0 | ⟨-, hpb⟩ := hprev
    · simpa [h0] using hends r hr
    · exact (hends r hr).trans (hpb b (by simp))
  constructor
  case pending_lt => exact hlt
  case pending_count => exact fun c hc => hcount c (List.mem_cons_of_mem b hc)
  case prevEnd_lt =>
    simp only [deliver_prevEnd, deliver_pending, deliver_count, popBurst_prevEnd, popBurst_pending,
      popBurst_count, hend]
    exact .inr ⟨hcount b (by simp), hnext⟩
  case records_lt =>
    refine List.pairwise_append.mpr ⟨hrecords, List.pairwise_singleton _ _, fun r hr q hq => ?_⟩
    rw [List.mem_singleton.mp hq, hstart]
    exact hbefore r hr
  case records_prevEnd =>
    intro r hr
    simp only [deliver_prevEnd, popBurst_prevEnd, hend]
    obtain hr | hr := List.mem_append.mp hr
    · have := hbefore r hr
      omega
    · rw [List.mem_singleton.mp hr, hstart]
      omega

/-- The gap of the next record (R131), and that a recorded burst leaves a `prev_end` that is not 0. -/
theorem Ordered.gap (h : Ordered s) (hrx : RxInv p s) (hp : s.pending = b :: rest) :
    ((s.prevEnd = 0 ∧ b.absStart - s.prevEnd = b.absStart) ∨ 1 ≤ (b.absStart - s.prevEnd).toNat) ∧
    b.absStart + BitVec.ofNat 64 b.samples.length ≠ 0 := by
  have hb : b ∈ s.pending := by simp [hp]
  constructor
  · obtain h0 | ⟨-, hpb⟩ := h.prevEnd_lt
    · exact .inl ⟨h0, by simp [h0]⟩
    · have := hpb b hb
      exact .inr (by rw [BitVec.toNat_sub_of_le (BitVec.le_def.mpr this.le)]; omega)
  · intro h0
    have hend := h.pendingEnd_toNat hb
    have hlong : 200 ≤ b.samples.length := (hrx.pending_length b hb).1
    have hzero : (0 : Count).toNat = 0 := rfl
    rw [h0, hzero] at hend
    omega

end Process

/-! ### Every step -/

section Step

variable {p : Params} {s t : State}

theorem Move.inv {x : Turn} (hm : Move p s x t) (h : Inv p s) : Inv p t := by
  cases hm with
  | none => exact h
  | process _ b rest _ _ _ rec he hp hr => exact h.process he hp hr.valid.1
  | beat b rest _ hr hf => exact Inv.beat (h.frame rfl rfl rfl rfl) (portReady_iff.mp hr).1 hf
  | eosFatal ha =>
    obtain ⟨hpending, -⟩ := h.rx.of_accept ha
    obtain ⟨hfill, hfinite, hdiscard, hlength, habove, -, -, hdecoder⟩ := h.rx
    refine ⟨⟨hfill, hfinite, hdiscard, hlength, habove, ?_, ?_, hdecoder⟩, h.fifo.frame rfl, h.tx.frame rfl, h.irq⟩
    · simp [State.raise, hpending]
    · simp [State.raise]
  | eosIgnored => exact h.frame rfl rfl rfl rfl
  | take => exact h.takeBeat
  | reset => exact inv_blockReset p s
  | bus op rest _ _ hb => exact hb.inv (h.frame rfl rfl rfl rfl)

theorem Move.ordered {x : Turn} (hm : Move p s x t) (h : Ordered s) (hrx : RxInv p s)
    (hw : s.count.toNat + p.wCap < 2 ^ 64) : Ordered t := by
  cases hm with
  | none => exact h
  | process _ b rest _ _ _ rec _ hp hr => exact h.process hrx hp hr.valid.2
  | beat b rest _ hr hf => exact Ordered.beat (h.frame rfl) (hrx.frame rfl) (portReady_iff.mp hr).1 hf hw
  | eosFatal | eosIgnored => exact h.frame rfl
  | take => exact h.takeBeat
  | reset => exact ordered_blockReset s
  | bus op rest _ _ hb => exact hb.ordered (h.frame rfl)

/-- With the decoder empty, a step is a move from the state itself or from the state without its first turn. -/
theorem stepWith_move_of_decoder_empty (hi : s.inflight = none) (h : stepWith p exec s = .next t) :
    ∃ x turns, Move p { s with turns := turns } x t := by
  obtain ⟨r, _, hr, -⟩ | ⟨-, -, hm⟩ | ⟨-, hm⟩ := stepWith_move h
  · simp [hi] at hr
  · exact ⟨.drain, s.turns, hm⟩
  · exact ⟨_, _, hm⟩

end Step

/-- Settles O40: a step is a move (Laws/Step.lean), and each move keeps the invariant and the order. -/
theorem everyStepKeepsTheInvariant : Obligations.EveryStepKeepsTheInvariant := by
  refine ⟨fun p s t h hs => ?_, fun p s b rest h ho hp => ho.gap h.rx hp⟩
  obtain ⟨x, turns, hm⟩ := stepWith_move_of_decoder_empty h.rx.decoder_empty hs
  exact ⟨hm.inv (h.frame rfl rfl rfl rfl), fun ho hw => hm.ordered (ho.frame rfl) (h.rx.frame rfl) hw⟩

end Sys2Proof.Machine

/-! SUPPORT. What a step runs, what a read leaves, the separation of the two paths, and the progress of the pending
bursts (family 20_memory.md). -/

namespace Sys2Proof.Machine

/-! ### The instruction a step runs (R72, R289, R234) -/

section Decoded

variable {run : Instr → State → Result} {s : State} {i : Instr}

theorem command_of_decodeCommand {w : Word} (h : decodeCommand w = .ok i) : command run w s = run i s := by
  simp only [command, h]

theorem parseFrame_of_decodeFrame {r : Reception} (h : decodeFrame r.bits = .ok i) : parseFrame run r s = run i s := by
  simp only [parseFrame, h]

end Decoded

/-- Settles O1: a write to `CMD` runs its command, and a burst in the decoder is parsed before any turn. -/
theorem stepRunsTheDecodedInstruction : Obligations.StepRunsTheDecodedInstruction := by
  refine ⟨fun s ts rest w i hdecoder hturns hbus hi => ?_, fun s r i hdecoder hi => ?_⟩
  · exact (stepWith_command hdecoder hturns hbus).trans (command_of_decodeCommand hi)
  · exact (stepWith_inflight hdecoder).trans (parseFrame_of_decodeFrame hi)

/-- Settles O27: a read that changes the state is one of `SAMPLE_COUNT_LO` or of `RESULT`. -/
theorem otherReadsHaveNoSideEffect : Obligations.OtherReadsHaveNoSideEffect := by
  intro p r s hlo hresult
  obtain h | ⟨rfl, -⟩ | ⟨rfl, -⟩ := csrRead_cases p r s
  · exact h
  · exact absurd rfl hlo
  · exact absurd rfl hresult

/-! ### The two paths (R74) -/

section Paths

variable {p : Params} {s t : State}

/-- The fields of the receive path. -/
def State.receiveFields (s : State) : List Sample × Count × Bool × Count × List Burst × RxPhase × List Record × Nat ×
    Bool × Bool × Bool :=
  (s.win, s.count, s.discard, s.prevEnd, s.pending, s.rxPhase, s.rfifo, s.rdIdx, s.rxEn, s.ovf, s.eosFatal)

/-- The fields of the transmit path, with the beats the sink has taken. -/
def State.transmitFields (s : State) : List TxBeat × TxPhase × Bool × Bool × Bool × BitVec 7 × List TxBeat :=
  (s.txOut, s.txPhase, s.txDone, s.cmdErr, s.txFatal, s.txChannel, s.sinkOut)

theorem transmitChecked_receiveFields (q : Params) (cmd : TxCommand) (s : State) :
    (s.transmitChecked q cmd).receiveFields = s.receiveFields := by
  obtain ⟨-, he⟩ | ⟨-, _, -, he⟩ | ⟨-, -, he⟩ := transmitChecked_cases q cmd s <;> rw [he] <;> rfl

/-- A transmit command is `TxCheck` and TRANSMIT of one frame (R289, R291, R292). -/
theorem exec_transmit {i : Instr} (hi : (∃ c, i = .txs c) ∨ (∃ a b c, i = .txp a b c)) (s : State) :
    ∃ cmd, exec i s = .next (s.transmitChecked Config.params cmd) := by
  obtain ⟨c, rfl⟩ | ⟨a, b, c, rfl⟩ := hi
  · exact ⟨.short c, rfl⟩
  · exact ⟨.property a b c, rfl⟩

theorem scan_transmitFields (p : Params) (s : State) : (s.scan p).transmitFields = s.transmitFields := by
  obtain ⟨-, he⟩ | ⟨_, -, -, he⟩ := scan_cases p s <;> rw [he] <;> rfl

theorem beat_transmitFields (p : Params) (z : Sample) (last : Bool) (s : State) :
    (s.beat p z last).transmitFields = s.transmitFields := by
  obtain ⟨-, -, he⟩ | ⟨-, -, -, he⟩ | ⟨-, -, he⟩ := beat_cases p z last s <;> rw [he]
  · rfl
  · rfl
  · exact scan_transmitFields p _

/-- A move of the sample port, of the end of stream or of the RX agent stays on the receive path. -/
theorem Move.transmitFields {x : Turn} (hm : Move p s x t) (hx : x = .port ∨ x = .eos ∨ x = .rx ∨ x = .drain) :
    t.transmitFields = s.transmitFields := by
  cases hm with
  | none => rfl
  | process => rfl
  | beat b rest => exact beat_transmitFields p b.sample b.last { s with portIn := rest }
  | eosFatal => rfl
  | eosIgnored => rfl
  | take | reset | bus => simp at hx

theorem stepWith_transmitFields {u : Turn} {ts : List Turn} (hturns : s.turns = u :: ts)
    (hu : u = .port ∨ u = .eos ∨ u = .rx ∨ u = .drain) (h : stepWith p exec s = .next t) :
    t.transmitFields = s.transmitFields := by
  obtain ⟨_, _, -, -, rfl⟩ | ⟨-, -, hm⟩ | ⟨-, hm⟩ := stepWith_move h
  · rfl
  · exact hm.transmitFields (by simp)
  · rw [nextTurn_cons hturns] at hm
    exact hm.transmitFields hu

end Paths

/-- Settles O39: a transmit command keeps `receiveFields`, and a move of the receive path keeps `transmitFields`. -/
theorem pathsShareNoDatapathState : Obligations.PathsShareNoDatapathState := by
  refine ⟨fun i s t hi h => ?_, fun p s t ts u hturns hu h => ?_⟩
  · obtain ⟨cmd, hexec⟩ := exec_transmit hi s
    obtain rfl : s.transmitChecked Config.params cmd = t := Host.Outcome.next.inj (hexec.symm.trans h)
    simpa only [State.receiveFields, Prod.mk.injEq] using transmitChecked_receiveFields Config.params cmd s
  · simpa only [State.transmitFields, Prod.mk.injEq] using stepWith_transmitFields hturns hu h

/-! ### A turn that changes nothing is not enabled (R353) -/

section Fixed

variable {p : Params} {s : State}

theorem process_fixed (h : process p exec s = .next s) : s.rxEnabled p = false := by
  obtain ⟨he, -⟩ | ⟨-, b, rest, _, _, _, rec, hp, -, he⟩ := process_exec p s
  · exact he
  · have hpending : rest = b :: rest := by
      simpa [hp] using congrArg State.pending (Host.Outcome.next.inj (he.symm.trans h))
    simp at hpending

theorem resultPop_busIn (s : State) : s.resultPop.2.busIn = s.busIn := by
  obtain he | ⟨_, _, -, -, he⟩ | ⟨_, _, -, -, he⟩ := resultPop_cases s <;> rw [he]

theorem transmitChecked_busIn (q : Params) (cmd : TxCommand) (s : State) :
    (s.transmitChecked q cmd).busIn = s.busIn := by
  obtain ⟨-, he⟩ | ⟨-, _, -, he⟩ | ⟨-, -, he⟩ := transmitChecked_cases q cmd s <;> rw [he] <;> rfl

/-- An access issues no other access: what waits on the bus stays, through a soft reset too (log entry 7). -/
theorem BusMove.busIn {op : BusOp} {t : State} (hm : BusMove p s op t) : t.busIn = s.busIn := by
  cases hm with
  | pop => exact resultPop_busIn s
  | transmit _ cmd => exact transmitChecked_busIn _ cmd (s.reply .ack)
  | answer | latch | softReset | rxEn | acknowledge | irqEn | txChannel | cmdErr => rfl

theorem busTurn_fixed (h : busTurn p exec s = .next s) : s.busIn = [] := by
  cases hbus : s.busIn with
  | nil => rfl
  | cons op rest =>
    obtain ⟨t, hm, he⟩ := busAccess_exec p op { s with busIn := rest }
    obtain rfl : t = s := Host.Outcome.next.inj (he.symm.trans ((busTurn_cons hbus).symm.trans h))
    have hrest : op :: rest = rest := hbus.symm.trans hm.busIn
    simp at hrest

theorem scan_portIn (p : Params) (s : State) : (s.scan p).portIn = s.portIn := by
  obtain ⟨-, he⟩ | ⟨_, -, -, he⟩ := scan_cases p s <;> rw [he]

theorem beat_portIn (p : Params) (z : Sample) (last : Bool) (s : State) : (s.beat p z last).portIn = s.portIn := by
  obtain ⟨-, -, he⟩ | ⟨-, -, -, he⟩ | ⟨-, -, he⟩ := beat_cases p z last s <;> rw [he]
  exact scan_portIn p _

theorem portTurn_of_ready {b : PortBeat} {rest : List PortBeat} (hport : s.portIn = b :: rest)
    (hready : s.portReady p = true) : portTurn p s =
      if b.sample.isFinite then .next ({ s with portIn := rest }.beat p b.sample b.last)
      else .refused .nonFiniteSample := by
  simp only [portTurn, hport, hready, if_true]

theorem portTurn_fixed (h : portTurn p s = .next s) : s.portIn = [] ∨ s.portReady p = false := by
  cases hport : s.portIn with
  | nil => exact .inl rfl
  | cons b rest =>
    refine .inr (Bool.eq_false_iff.mpr fun hready => ?_)
    rw [portTurn_of_ready hport hready] at h
    split at h
    · have hrest : rest = b :: rest := by
        simpa only [beat_portIn, hport] using congrArg State.portIn (Host.Outcome.next.inj h)
      simp at hrest
    · cases h

theorem eosTurn_fixed (h : eosTurn s = .next s) : s.eosIn = 0 ∨ s.rxPhase = .process := by
  refine or_iff_not_imp_left.mpr fun hwaits => ?_
  cases hphase : s.rxPhase with
  | process => rfl
  | accept | halted =>
    simp only [eosTurn, hwaits, hphase, if_false] at h
    have hless : s.eosIn - 1 = s.eosIn := congrArg State.eosIn (Host.Outcome.next.inj h)
    omega

/-- When the idle turn changes nothing, no agent's step is enabled: the idle turn is the first enabled one. -/
theorem idle_fixed (hdecoder : s.inflight = none) (hturns : s.turns = []) (h : stepWith p exec s = .next s) :
    s.rxEnabled p = false ∧ s.busIn = [] ∧ (s.portIn = [] ∨ s.portReady p = false) ∧
      (s.eosIn = 0 ∨ s.rxPhase = .process) := by
  rw [stepWith_idle hdecoder hturns] at h
  obtain ⟨hon, he⟩ | ⟨-, hbus, he⟩ | ⟨-, -, hport, hready, he⟩ | ⟨hoff, hbus, hport, he⟩ := idleTurn_cases p s <;>
    rw [he] at h
  · exact absurd hon (Bool.eq_false_iff.mp (process_fixed h))
  · exact absurd (busTurn_fixed h) hbus
  · obtain hnone | hclosed := portTurn_fixed h
    · exact absurd hnone hport
    · exact absurd hready (Bool.eq_false_iff.mp hclosed)
  · exact ⟨hoff, hbus, hport, eosTurn_fixed h⟩

theorem portReady_eq_false_iff : s.portReady p = false ↔
    s.rxPhase ≠ .accept ∨ s.rxEn = false ∨ (s.discard = false ∧ p.wCap ≤ s.win.length) := by
  rw [← Bool.not_eq_true, portReady_iff]
  simp only [not_and_or, not_or, Bool.not_eq_true, not_lt, ne_eq]

end Fixed

/-! ### Pending bursts become records (R73, R130) -/

/-- An idle step in PROCESS turns the head burst into one record, which carries its `ABS_START` (R130). -/
theorem step_of_enabled {s : State} {b : Burst} {rest : List Burst} (hdecoder : s.inflight = none)
    (hturns : s.turns = []) (henabled : s.rxEnabled Config.params = true) (hp : s.pending = b :: rest) :
    ∃ rec, recordStart rec = b.absStart ∧ step s = .next ((s.popBurst b rest).deliver rec) := by
  have hstep : step s = process Config.params exec s := by
    rw [step, stepWith_idle hdecoder hturns, idleTurn_of_enabled henabled, takeTurn]
  obtain ⟨hoff, -⟩ | ⟨-, b', rest', _, _, _, rec, hp', hr, he⟩ := process_exec Config.params s
  · simp [henabled] at hoff
  · obtain ⟨rfl, rfl⟩ := List.cons.inj (hp.symm.trans hp')
    exact ⟨rec, hr.valid.2, hstep.trans he⟩

theorem run_succ_of_step {s t : State} (n : Nat) (h : step s = .next t) :
    Host.Core.run core (n + 1) s = Host.Core.run core n t := by
  have hcore : core.step s = .next t := h
  simp only [Host.Core.run, hcore]

/-- As many steps as there are pending bursts turn them into records, in their order. With none pending the port is open
already, which lets the induction start from no step at all. -/
theorem run_pending (bs : List Burst) {s : State} (hp : s.pending = bs) (hdecoder : s.inflight = none)
    (hturns : s.turns = []) (hphase : s.rxPhase = if bs = [] then .accept else .process)
    (hroom : s.rfifo.length + bs.length ≤ Config.params.rfifoDepth) :
    ∃ t : State, ∃ recs : List Record, Host.Core.run core bs.length s = .next t ∧ t.pending = [] ∧
      t.rxPhase = .accept ∧ t.rfifo = s.rfifo ++ recs ∧ recs.map recordStart = bs.map (·.absStart) := by
  induction bs generalizing s with
  | nil => exact ⟨s, [], rfl, hp, hphase, (List.append_nil _).symm, rfl⟩
  | cons b rest ih =>
    rw [if_neg (List.cons_ne_nil b rest)] at hphase
    rw [List.length_cons] at hroom
    have henabled : s.rxEnabled Config.params = true := rxEnabled_iff.mpr ⟨hphase, by omega, by simp [hp]⟩
    obtain ⟨rec, hstart, hstep⟩ := step_of_enabled hdecoder hturns henabled hp
    have hphase' : ((s.popBurst b rest).deliver rec).rxPhase = if rest = [] then .accept else .process := by
      simp [hphase]
    have hroom' : ((s.popBurst b rest).deliver rec).rfifo.length + rest.length ≤ Config.params.rfifoDepth := by
      simp only [deliver_rfifo, popBurst_rfifo, List.length_append, List.length_singleton]
      omega
    obtain ⟨t, recs, hrun, hempty, haccept, hfifo, hstarts⟩ := ih (by simp) (by simp) (by simpa using hturns)
      hphase' hroom'
    refine ⟨t, rec :: recs, (run_succ_of_step _ hstep).trans hrun, hempty, haccept, ?_, ?_⟩
    · simpa using hfifo
    · rw [List.map_cons, List.map_cons, hstart, hstarts]

/-- Settles O42: `run_pending` from PROCESS, and `idle_fixed` read off what enables each agent. -/
theorem pendingBurstsAreProcessed : Obligations.PendingBurstsAreProcessed := by
  refine ⟨fun s hdecoder hturns hphase hpending hroom => ?_, fun p s hdecoder hturns h => ?_⟩
  · exact run_pending s.pending rfl hdecoder hturns (by rw [if_neg hpending, hphase]) hroom
  · obtain ⟨hoff, hbus, hport, heos⟩ := idle_fixed hdecoder hturns h
    rw [portReady_eq_false_iff] at hport
    exact ⟨fun hon => Bool.eq_false_iff.mp hoff (rxEnabled_iff.mpr hon), hbus, hport, heos⟩

end Sys2Proof.Machine

/-! SUPPORT. Command words and frames: each decoder against its encoder (family 30_encoding.md). -/

namespace Sys2Proof

/-! ### Command words (R98 to R103) -/

theorem decodeCommand_nop {w : Word} (h : opOf w = 0x00) : decodeCommand w = .ok (.nop (w.extractLsb' 0 24)) :=
  if_pos h

/-- A TXS word has its byte in bits 7:0, and zeros above it (R100, R102). -/
theorem decodeCommand_txs {w : Word} (h : opOf w = Config.typeShort) :
    decodeCommand w =
      if w.extractLsb' 8 16 ≠ 0 then .error .txsOperandBits else .ok (.txs (w.extractLsb' 0 8)) := by
  rw [decodeCommand, h]
  rfl

theorem decodeCommand_txp {w : Word} (h : opOf w = Config.typeProp) :
    decodeCommand w = .ok (.txp (w.extractLsb' 16 8) (w.extractLsb' 8 8) (w.extractLsb' 0 8)) := by
  rw [decodeCommand, h]
  rfl

/-- The illegal words (R102): another `OP`, or a TXS word with a bit set between its `OP` and its byte. -/
theorem decodeCommand_illegal {w : Word}
    (h : (opOf w ≠ 0x00 ∧ opOf w ≠ Config.typeShort ∧ opOf w ≠ Config.typeProp) ∨
      (opOf w = Config.typeShort ∧ w.extractLsb' 8 16 ≠ 0)) : ∃ e, decodeCommand w = .error e := by
  obtain ⟨hnop, hshort, hprop⟩ | ⟨hshort, hbits⟩ := h
  · exact ⟨.illegalOpcode, by simp only [decodeCommand, hnop, hshort, hprop, if_false]⟩
  · exact ⟨.txsOperandBits, (decodeCommand_txs hshort).trans (if_pos hbits)⟩

/-- A word is its `OP` over its operand bits (R98). -/
theorem opOf_append_operands (w : Word) : opOf w ++ w.extractLsb' 0 24 = w :=
  BitVec.extractLsb'_append_extractLsb' (w := 8) (len := 24)

/-- The fields of a TXS word (R100): its `OP`, bits 23:8 and its byte. -/
theorem txsFields_append (w : Word) : opOf w ++ w.extractLsb' 8 16 ++ w.extractLsb' 0 8 = w :=
  calc opOf w ++ w.extractLsb' 8 16 ++ w.extractLsb' 0 8
    _ = w.extractLsb' 8 24 ++ w.extractLsb' 0 8 :=
        congrArg (· ++ w.extractLsb' 0 8) (BitVec.extractLsb'_append_extractLsb'_eq_extractLsb' (x := w) rfl)
    _ = w := BitVec.extractLsb'_append_extractLsb' (w := 24) (len := 8)

/-- The fields of a TXP word (R101): its four bytes, high byte first. -/
theorem txpFields_append (w : Word) :
    opOf w ++ w.extractLsb' 16 8 ++ w.extractLsb' 8 8 ++ w.extractLsb' 0 8 = w := by
  have hhigh : opOf w ++ w.extractLsb' 16 8 = w.extractLsb' 16 16 :=
    BitVec.extractLsb'_append_extractLsb'_eq_extractLsb' (x := w) rfl
  have hmid : w.extractLsb' 16 16 ++ w.extractLsb' 8 8 = w.extractLsb' 8 24 :=
    BitVec.extractLsb'_append_extractLsb'_eq_extractLsb' (x := w) rfl
  rw [hhigh, hmid]
  exact BitVec.extractLsb'_append_extractLsb' (w := 24) (len := 8)

theorem decodeCommand_encode_nop (operands : BitVec 24) :
    decodeCommand ((0x00 : Byte) ++ operands) = .ok (.nop operands) := by
  have hop : opOf ((0x00 : Byte) ++ operands) = 0x00 := BitVec.extractLsb'_append_eq_left
  rw [decodeCommand_nop hop]
  exact congrArg (Except.ok ∘ Instr.nop) BitVec.extractLsb'_append_eq_right

theorem txsFields_of_append (op : Byte) (x : BitVec 16) (c : Byte) :
    opOf (op ++ x ++ c) = op ∧ (op ++ x ++ c).extractLsb' 8 16 = x ∧ (op ++ x ++ c).extractLsb' 0 8 = c := by
  have hhigh (start len : Nat) : (op ++ x ++ c).extractLsb' (start + 8) len = (op ++ x).extractLsb' start len :=
    BitVec.extractLsb'_append_eq_of_le (Nat.le_add_left 8 start)
  exact ⟨(hhigh 16 8).trans BitVec.extractLsb'_append_eq_left,
    (hhigh 0 16).trans BitVec.extractLsb'_append_eq_right, BitVec.extractLsb'_append_eq_right⟩

theorem txpFields_of_append (op a b c : Byte) :
    opOf (op ++ a ++ b ++ c) = op ∧ (op ++ a ++ b ++ c).extractLsb' 16 8 = a ∧
      (op ++ a ++ b ++ c).extractLsb' 8 8 = b ∧ (op ++ a ++ b ++ c).extractLsb' 0 8 = c := by
  have hhigh (start len : Nat) :
      (op ++ a ++ b ++ c).extractLsb' (start + 8) len = (op ++ a ++ b).extractLsb' start len :=
    BitVec.extractLsb'_append_eq_of_le (Nat.le_add_left 8 start)
  have hmid (start len : Nat) : (op ++ a ++ b).extractLsb' (start + 8) len = (op ++ a).extractLsb' start len :=
    BitVec.extractLsb'_append_eq_of_le (Nat.le_add_left 8 start)
  exact ⟨(hhigh 16 8).trans ((hmid 8 8).trans BitVec.extractLsb'_append_eq_left),
    (hhigh 8 8).trans ((hmid 0 8).trans BitVec.extractLsb'_append_eq_right),
    (hhigh 0 8).trans BitVec.extractLsb'_append_eq_right, BitVec.extractLsb'_append_eq_right⟩

theorem decodeCommand_encode_txs (c : Byte) :
    decodeCommand (Config.typeShort ++ (0 : BitVec 16) ++ c) = .ok (.txs c) := by
  obtain ⟨hop, hzero, hc⟩ := txsFields_of_append Config.typeShort 0 c
  rw [decodeCommand_txs hop, if_neg (not_not.mpr hzero), hc]

theorem decodeCommand_encode_txp (a b c : Byte) :
    decodeCommand (Config.typeProp ++ a ++ b ++ c) = .ok (.txp a b c) := by
  obtain ⟨hop, ha, hb, hc⟩ := txpFields_of_append Config.typeProp a b c
  rw [decodeCommand_txp hop, ha, hb, hc]

/-- The three kinds of word that decode (R98 to R102). -/
theorem decodeCommand_cases {w : Word} {i : Instr} (h : decodeCommand w = .ok i) :
    (opOf w = 0x00 ∧ i = .nop (w.extractLsb' 0 24)) ∨
    (opOf w = Config.typeShort ∧ w.extractLsb' 8 16 = 0 ∧ i = .txs (w.extractLsb' 0 8)) ∨
    (opOf w = Config.typeProp ∧ i = .txp (w.extractLsb' 16 8) (w.extractLsb' 8 8) (w.extractLsb' 0 8)) := by
  by_cases hnop : opOf w = 0x00
  · exact .inl ⟨hnop, Except.ok.inj (h.symm.trans (decodeCommand_nop hnop))⟩
  by_cases hshort : opOf w = Config.typeShort
  · by_cases hzero : w.extractLsb' 8 16 = 0
    · rw [decodeCommand_txs hshort, if_neg (not_not.mpr hzero)] at h
      exact .inr (.inl ⟨hshort, hzero, (Except.ok.inj h).symm⟩)
    · rw [decodeCommand_txs hshort, if_pos hzero] at h
      cases h
  by_cases hprop : opOf w = Config.typeProp
  · exact .inr (.inr ⟨hprop, Except.ok.inj (h.symm.trans (decodeCommand_txp hprop))⟩)
  · obtain ⟨e, he⟩ := decodeCommand_illegal (.inl ⟨hnop, hshort, hprop⟩)
    cases h.symm.trans he

/-- Settles O12: the fields a word decodes to, put side by side again, are the word. -/
theorem commandWordsHaveOneMeaning : Obligations.CommandWordsHaveOneMeaning := by
  intro w i h
  obtain ⟨hop, rfl⟩ | ⟨hop, hzero, rfl⟩ | ⟨hop, rfl⟩ := decodeCommand_cases h
  · rw [encode, ← hop, opOf_append_operands]
  · rw [encode, ← hop, ← hzero, txsFields_append]
  · rw [encode, ← hop, txpFields_append]

/-! ### Bit strings (R9, R64, R253) -/

theorem val_append (a b : Bits) : val (a ++ b) = val a * 2 ^ b.length + val b := by
  induction b using List.reverseRecOn with
  | nil => simp [val]
  | append_singleton b x ih =>
    have hsnoc (c : Bits) : val (c ++ [x]) = 2 * val c + x.toNat := by simp [val]
    rw [← List.append_assoc, hsnoc, hsnoc, ih, List.length_append, List.length_singleton, pow_succ]
    ring

/-- The first `k` bits of a word, most significant first, spell its high bits. -/
theorem val_msbs {n : Nat} (v : BitVec n) {k : Nat} (hk : k ≤ n) :
    val ((List.range k).map fun i => v.getMsbD i) = v.toNat / 2 ^ (n - k) := by
  induction k with
  | zero => simpa [val] using (Nat.div_eq_of_lt v.isLt).symm
  | succ k ih =>
    have hbit : (v.getMsbD k).toNat = v.toNat / 2 ^ (n - (k + 1)) % 2 := by
      have hlt : k < n := hk
      rw [BitVec.getMsbD_eq_getLsbD, decide_eq_true hlt, Bool.true_and, BitVec.getLsbD, Nat.toNat_testBit,
        Nat.sub_sub, Nat.add_comm 1 k]
    have hdiv : v.toNat / 2 ^ (n - k) = v.toNat / 2 ^ (n - (k + 1)) / 2 := by
      rw [Nat.div_div_eq_div_mul, ← pow_succ]
      congr 2
      omega
    rw [List.range_succ, List.map_append, val_append, ih (by omega), hdiv]
    simp [val, hbit]
    omega

/-- `val` inverts `bits_N` (R9). -/
theorem val_bitsOf {n : Nat} (v : BitVec n) : val (bitsOf v) = v.toNat := by
  simpa [bitsOf] using val_msbs v le_rfl

@[simp] theorem byteOf_bitsOf (c : Byte) : byteOf (bitsOf c) = c := by
  rw [byteOf, val_bitsOf, BitVec.ofNat_toNat, BitVec.setWidth_eq]

theorem bytesToBits_cons (c : Byte) (bs : List Byte) : bytesToBits (c :: bs) = bitsOf c ++ bytesToBits bs := rfl

theorem bytesToBits_append (as bs : List Byte) : bytesToBits (as ++ bs) = bytesToBits as ++ bytesToBits bs :=
  List.flatMap_append

/-- A field of the length asked for is taken off the front. -/
theorem takeField_of_length {n : Nat} {a : Bits} (b : Bits) (h : a.length = n) : takeField n (a ++ b) = .ok (a, b) :=
  h ▸ takeField_append a b

theorem takeField_bitsOf (c : Byte) (b : Bits) : takeField 8 (bitsOf c ++ b) = .ok (bitsOf c, b) :=
  takeField_of_length b (bitsOf_length c)

/-! ### The network-code map (R213, R214) -/

/-- The codes of two wireless IDs differ: for the smaller ID the code is the larger one. -/
theorem networkCode_lt {v w : Nat} (hvw : v < w) (hw : w < 100) : networkCode w < networkCode v := by
  have hlarge : w + 1 ≤ networkCode w := by
    refine (Nat.le_div_iff_mul_le w.succ_pos).mpr ?_
    calc (w + 1) * (w + 1) ≤ 100 * 100 := Nat.mul_le_mul hw hw
      _ ≤ Config.netK := by decide
  refine (Nat.le_div_iff_mul_le v.succ_pos).mpr ?_
  calc (networkCode w + 1) * (v + 1) ≤ (networkCode w + 1) * w := Nat.mul_le_mul_left _ hvw
    _ ≤ networkCode w * (w + 1) := by rw [Nat.add_mul, Nat.mul_add]; omega
    _ ≤ Config.netK := Nat.div_mul_le_self _ _

/-- The decoder inverts the code of every wireless ID (R214). -/
theorem invertCode_networkCode {w : Nat} (hw : w < 100) : invertCode (networkCode w) = some w := by
  refine List.find?_range_eq_some.mpr ⟨beq_self_eq_true _, List.mem_range.mpr hw, fun v hv => ?_⟩
  simpa using (networkCode_lt hv hw).ne'

/-- The two bytes of a network code spell it (R252). -/
theorem val_codeBytes (w : Nat) : val (bytesToBits (codeBytes w)) = networkCode w := by
  have hle : networkCode w ≤ Config.netK := Nat.div_le_self _ _
  have hk : Config.netK = 50024 := rfl
  simp only [codeBytes, bytesToBits_cons, val_append, val_bitsOf, bytesToBits_length, BitVec.toNat_ofNat]
  simp [bytesToBits, val]
  omega

theorem bytesToBits_codeBytes_length (w : Nat) : (bytesToBits (codeBytes w)).length = 16 :=
  bytesToBits_length (codeBytes w)

/-! ### Frames (R84 to R91, R210 to R223) -/

/-- What every frame of a sender begins with: the preamble and its network code twice (R84, R86, R252). -/
def frameHeader (w : Nat) : Bits := preamble ++ (bytesToBits (codeBytes w) ++ bytesToBits (codeBytes w))

/-- The header of a frame gives its sender, and what follows it (R211 to R214). -/
theorem takeHeader_frameHeader {w : Nat} (hw : w < 100) (b : Bits) : takeHeader (frameHeader w ++ b) = .ok (w, b) := by
  have hcode (c : Bits) : takeField 16 (bytesToBits (codeBytes w) ++ c) = .ok (bytesToBits (codeBytes w), c) :=
    takeField_of_length c (bytesToBits_codeBytes_length w)
  rw [frameHeader, takeHeader, List.append_assoc, List.append_assoc, takeField_of_length _ preamble_length]
  simp only [bind_ok, hcode, ne_eq, not_true_eq_false, if_false, val_codeBytes, invertCode_networkCode hw]

/-- After the right trailing bit one more bit may follow (R222, R223). -/
theorem checkEnd_cons (last : Bool) (e : Bits) :
    checkEnd last (last :: e) = if e.length > 1 then .error .trailingGarbage else .ok () := by
  have hfield : takeField 1 (last :: e) = .ok ([last], e) := takeField_append [last] e
  simp only [checkEnd, hfield, bind_ok, ne_eq, not_true_eq_false, if_false]

/-- The last bit of a payload is that of its last byte (R254). -/
theorem getLastD_bytesToBits (bs : List Byte) (c : Byte) :
    (bytesToBits (bs ++ [c])).getLastD false = (bitsOf c).getLastD false := by
  have hne : (bitsOf c).getLast? ≠ none := by
    rw [ne_eq, List.getLast?_eq_none_iff]
    exact List.ne_nil_of_length_pos (by simp)
  obtain ⟨x, hx⟩ := Option.ne_none_iff_exists'.mp hne
  have hbits : bytesToBits (bs ++ [c]) = bytesToBits bs ++ bitsOf c := by
    rw [bytesToBits_append, bytesToBits_cons, show bytesToBits [] = [] from rfl, List.append_nil]
  rw [hbits, List.getLastD_eq_getLast?, List.getLastD_eq_getLast?, List.getLast?_append, hx, Option.some_or]

/-- The frame of a payload with the type byte `t` and the last byte `c`, and more bits behind it (R252 to R254). -/
theorem frameOfPayload_append (w : Nat) (t : Byte) (body : List Byte) (c : Byte) (e : Bits) :
    frameOfPayload (payloadBytes w (t :: (body ++ [c]))) ++ e =
      frameHeader w ++ (bitsOf t ++ (bytesToBits body ++ (bitsOf c ++ (bitsOf c).getLastD false :: e))) := by
  have hlast : (bytesToBits (payloadBytes w (t :: (body ++ [c])))).getLastD false = (bitsOf c).getLastD false :=
    getLastD_bytesToBits (codeBytes w ++ codeBytes w ++ t :: body) c ▸ by simp [payloadBytes]
  rw [frameOfPayload, hlast]
  simp [frameHeader, payloadBytes, bytesToBits]

/-- The type byte after the header selects the decoder of the payload (R215). -/
theorem decodeFrame_frameHeader {w : Nat} (hw : w < 100) (t : Byte) (b : Bits) :
    decodeFrame (frameHeader w ++ (bitsOf t ++ b)) =
      if t = Config.typeShort then takeShort w b else if t = Config.typeProp then takeProp w b
      else .error .unsupportedFrameType := by
  simp only [decodeFrame, takeHeader_frameHeader hw, bind_ok, takeField_bitsOf, byteOf_bitsOf]

/-- The end of a payload whose last bit is the trailing bit: one bit at most may follow (R222, R223). -/
theorem checkEnd_bind (last : Bool) (e : Bits) (i : Instr) :
    ((checkEnd last (last :: e)).bind fun _ => .ok i) =
      if e.length > 1 then .error .trailingGarbage else .ok i := by
  rw [checkEnd_cons]
  split <;> rfl

/-- A short-command frame decodes to its sender and its byte, unless two bits or more follow it (R216, R223). -/
theorem decodeFrame_frameShortBits {w : Nat} (hw : w < 100) (c : Byte) (e : Bits) :
    decodeFrame (frameShortBits w c ++ e) =
      if e.length > 1 then .error .trailingGarbage else .ok (.frameShort (BitVec.ofNat 8 w) c) := by
  have hframe := frameOfPayload_append w Config.typeShort [] c e
  rw [List.nil_append] at hframe
  rw [frameShortBits, hframe, decodeFrame_frameHeader hw, if_pos rfl, takeShort]
  simp only [bytesToBits, List.flatMap_nil, List.nil_append, takeField_bitsOf, bind_ok, byteOf_bitsOf, checkEnd_bind]

/-- A property-command frame decodes to its sender and its bytes, unless two bits or more follow it (R219, R223). -/
theorem decodeFrame_framePropBits {w : Nat} (hw : w < 100) (tg pid x : Byte) (e : Bits) :
    decodeFrame (framePropBits w tg pid x ++ e) =
      if e.length > 1 then .error .trailingGarbage else .ok (.frameProp (BitVec.ofNat 8 w) tg pid x) := by
  have hframe := frameOfPayload_append w Config.typeProp [tg, pid] x e
  rw [List.cons_append, List.singleton_append] at hframe
  rw [framePropBits, hframe, decodeFrame_frameHeader hw, if_neg (by decide), if_pos rfl, takeProp]
  simp only [bytesToBits, List.flatMap_cons, List.flatMap_nil, List.nil_append, List.append_assoc, takeField_bitsOf,
    bind_ok, byteOf_bitsOf, checkEnd_bind]

theorem validWid_iff (wid : Byte) : validWid wid = true ↔ wid.toNat < 100 := decide_eq_true_iff

/-- Settles O11: instruction by instruction, a command word by its fields and a frame by its fields in turn. -/
theorem decodeOfEncodeIsTheInstruction : Obligations.DecodeOfEncodeIsTheInstruction := by
  intro i hi
  have hcommand {w : Word} (h : decodeCommand w = .ok i) : decode (.command w) = .ok i := by rw [decode, h]; rfl
  have hframe {b : Bits} (h : decodeFrame (b ++ []) = .ok i) : decode (.frame b) = .ok i := by
    rw [List.append_nil] at h
    rw [decode, h]
    rfl
  cases i with
  | nop operands => exact hcommand (decodeCommand_encode_nop operands)
  | txs c => exact hcommand (decodeCommand_encode_txs c)
  | txp a b c => exact hcommand (decodeCommand_encode_txp a b c)
  | frameShort wid cmd =>
    refine hframe ((decodeFrame_frameShortBits ((validWid_iff wid).mp hi) cmd []).trans ?_)
    rw [BitVec.ofNat_toNat, BitVec.setWidth_eq]
    rfl
  | frameProp wid tg pid x =>
    refine hframe ((decodeFrame_framePropBits ((validWid_iff wid).mp hi) tg pid x []).trans ?_)
    rw [BitVec.ofNat_toNat, BitVec.setWidth_eq]
    rfl

/-! ### The lengths of frames (R85, R223) -/

theorem takeField_length {n : Nat} {b x y : Bits} (h : takeField n b = .ok (x, y)) : b.length = n + y.length := by
  obtain ⟨hle, -, rfl⟩ := takeField_eq_ok.mp h
  rw [List.length_drop]
  omega

/-- A check that is passed. -/
theorem ite_error_eq_ok {c : Prop} [Decidable c] {ε α : Type} {e : ε} {x : Except ε α} {a : α} :
    (if c then .error e else x) = .ok a ↔ ¬c ∧ x = .ok a := by
  by_cases h : c <;> simp [h]

/-- The header has 64 bits: the preamble and two codes. -/
theorem takeHeader_length {b y : Bits} {wid : Nat} (h : takeHeader b = .ok (wid, y)) : b.length = 64 + y.length := by
  simp only [takeHeader, bind_eq_ok, ite_error_eq_ok, Prod.exists] at h
  obtain ⟨_, b₁, h₁, -, _, b₂, h₂, _, b₃, h₃, -, h⟩ := h
  have h₃' : y = b₃ := by
    split at h
    · cases h
    · cases h
      rfl
  have := takeField_length h₁
  have := takeField_length h₂
  have := takeField_length h₃
  rw [h₃']
  omega

theorem checkEnd_length {last : Bool} {b : Bits} (h : checkEnd last b = .ok ()) : b.length = 1 ∨ b.length = 2 := by
  simp only [checkEnd, bind_eq_ok, ite_error_eq_ok, Prod.exists] at h
  obtain ⟨_, e, hfield, -, hextra, -⟩ := h
  have := takeField_length hfield
  omega

/-- What follows the type byte of a short-command frame: 9 bits, or one more. -/
theorem takeShort_length {wid : Nat} {b : Bits} {i : Instr} (h : takeShort wid b = .ok i) :
    (∃ w cmd, i = .frameShort w cmd) ∧ (b.length = 9 ∨ b.length = 10) := by
  simp only [takeShort, bind_eq_ok, Prod.exists] at h
  obtain ⟨_, _, hcmd, _, hend, h⟩ := h
  have := takeField_length hcmd
  have := checkEnd_length hend
  exact ⟨⟨_, _, (Except.ok.inj h).symm⟩, by omega⟩

/-- What follows the type byte of a property-command frame: 25 bits, or one more. -/
theorem takeProp_length {wid : Nat} {b : Bits} {i : Instr} (h : takeProp wid b = .ok i) :
    (∃ w tg pid x, i = .frameProp w tg pid x) ∧ (b.length = 25 ∨ b.length = 26) := by
  simp only [takeProp, bind_eq_ok, Prod.exists] at h
  obtain ⟨_, _, htg, _, _, hpid, _, _, hx, _, hend, h⟩ := h
  have := takeField_length htg
  have := takeField_length hpid
  have := takeField_length hx
  have := checkEnd_length hend
  exact ⟨⟨_, _, _, _, (Except.ok.inj h).symm⟩, by omega⟩

/-- A bit string that holds a frame has the length of that frame's kind, or one bit more. -/
theorem decodeFrame_length {b : Bits} {i : Instr} (h : decodeFrame b = .ok i) :
    ((∃ w cmd, i = .frameShort w cmd) ∧ (b.length = 81 ∨ b.length = 82)) ∨
    ((∃ w tg pid x, i = .frameProp w tg pid x) ∧ (b.length = 97 ∨ b.length = 98)) := by
  simp only [decodeFrame, bind_eq_ok, Prod.exists] at h
  obtain ⟨wid, b₁, hheader, t, b₂, htype, h⟩ := h
  have := takeHeader_length hheader
  have := takeField_length htype
  split at h
  · obtain ⟨hi, hlen⟩ := takeShort_length h
    exact .inl ⟨hi, by omega⟩
  obtain ⟨-, h⟩ | ⟨-, h⟩ := ite_eq_iff.mp h
  · obtain ⟨hi, hlen⟩ := takeProp_length h
    exact .inr ⟨hi, by omega⟩
  · cases h

/-- Settles O14: the encoder's lengths by its number of bytes, the decoder's by the fields it takes. -/
theorem frameLengths : Obligations.FrameLengths := by
  refine ⟨fun wid c => ?_, fun wid a b c => ?_, fun b wid cmd h => ?_, fun b wid tg pid x h => ?_⟩
  · exact frameOfPayload_length _
  · exact frameOfPayload_length _
  · obtain ⟨-, hlen⟩ | ⟨⟨_, _, _, _, hi⟩, -⟩ := decodeFrame_length h
    · exact hlen
    · cases hi
  · obtain ⟨⟨_, _, hi⟩, -⟩ | ⟨-, hlen⟩ := decodeFrame_length h
    · cases hi
    · exact hlen

end Sys2Proof

/-! SUPPORT. The fields of a result record, dropped command words and beats, the range of the TX port, and the
demodulation of a constant burst (family 30_encoding.md). -/

namespace Sys2Proof.Machine

/-! ### Words and beats without a meaning (R102, I4) -/

theorem command_of_illegal {run : Instr → State → Result} {w : Word} {e : CommandError}
    (h : decodeCommand w = .error e) (s : State) : command run w s = .next (s.raise .cmdErr) := by
  simp only [command, h]

/-- Settles O7: the write is acknowledged, and the word it writes, being illegal, only raises the event. -/
theorem illegalCommandWordSetsCmdErr : Obligations.IllegalCommandWordSetsCmdErr := by
  intro s ts rest w hdecoder hturns hbus hillegal
  obtain ⟨e, he⟩ := decodeCommand_illegal hillegal
  exact (stepWith_command hdecoder hturns hbus).trans (command_of_illegal he _)

/-- Settles O18: the command words by evaluation, the frames as the encodings of what they decode to. -/
theorem sampleWordsDecode : Obligations.SampleWordsDecode := by
  refine ⟨rfl, rfl, rfl, ?_, ?_⟩
  · exact decodeFrame_frameShortBits (w := 5) (by decide) 0x8F []
  · exact decodeFrame_framePropBits (w := 24) (by decide) 0x0A 0x01 0x0F []

/-- Settles O31: the port is ready in the state without the turn too, and the beat it would take is not finite. -/
theorem nonFiniteBeatIsRefused : Obligations.NonFiniteBeatIsRefused := by
  intro p run s ts b rest hdecoder hturns hport hinfinite hready
  rw [stepWith_port hdecoder hturns, portTurn_of_ready (s := { s with turns := ts }) hport hready]
  exact if_neg (Bool.eq_false_iff.mp hinfinite)

/-! ### The range of the TX port (R83) -/

section Range

variable {p : Params} {s t : State}

/-- The value −128 stands in no beat of the TX output queue and was in none the sink has taken. -/
def State.NoMinimum (s : State) : Prop := ∀ b ∈ s.txOut ++ s.sinkOut, b.i ≠ 0x80 ∧ b.q ≠ 0x80

theorem beatsOf_ne_minimum {v : List (ℤ × ℤ)} (hv : ∀ w ∈ v, |w.1| ≤ 127 ∧ |w.2| ≤ 127) {b : TxBeat}
    (hb : b ∈ beatsOf v) : b.i ≠ 0x80 ∧ b.q ≠ 0x80 := by
  obtain ⟨w, hw, hi, hq⟩ := mem_beatsOf hb
  obtain ⟨hfst, hsnd⟩ := hv w hw
  exact ⟨hi ▸ ofInt_ne_minimum hfst, hq ▸ ofInt_ne_minimum hsnd⟩

/-- A state without a beat that was not there before. -/
theorem State.NoMinimum.of_subset (h : s.NoMinimum) (ht : t.txOut ++ t.sinkOut ⊆ s.txOut ++ s.sinkOut) :
    t.NoMinimum := fun b hb => h b (ht hb)

theorem State.NoMinimum.of_transmitFields (h : s.NoMinimum) (ht : t.transmitFields = s.transmitFields) :
    t.NoMinimum := by
  simp only [State.transmitFields, Prod.mk.injEq] at ht
  obtain ⟨hout, -, -, -, -, -, hsink⟩ := ht
  exact h.of_subset (by rw [hout, hsink]; exact List.Subset.refl _)

theorem resultPop_transmitFields (s : State) : s.resultPop.2.transmitFields = s.transmitFields := by
  obtain he | ⟨_, _, -, -, he⟩ | ⟨_, _, -, -, he⟩ := resultPop_cases s <;> rw [he] <;> rfl

/-- The beats in the queue and at the sink stay the same beats when the sink takes one (R262). -/
theorem State.NoMinimum.takeBeat (h : s.NoMinimum) : s.takeBeat.NoMinimum := by
  obtain ⟨-, he⟩ | ⟨b, rest, hout, -, he⟩ | ⟨b, rest, hout, -, he⟩ := takeBeat_cases s <;> rw [he]
  · exact h
  all_goals
    refine h.of_subset ?_
    rw [hout]
    intro c hc
    simp only [List.mem_append, List.mem_cons, List.not_mem_nil, or_false] at hc ⊢
    tauto

/-- A transmit command queues beats of a modulated frame, or none (R289, R261). -/
theorem State.NoMinimum.transmitChecked (q : Params) (cmd : TxCommand) (h : s.NoMinimum) :
    (s.transmitChecked q cmd).NoMinimum := by
  obtain ⟨-, he⟩ | ⟨-, v, hv, he⟩ | ⟨-, -, he⟩ := transmitChecked_cases q cmd s <;> rw [he]
  · exact h
  · intro b hb
    obtain hb | hb := List.mem_append.mp hb
    · exact beatsOf_ne_minimum (modulation_range hv).2 hb
    · exact h b (List.mem_append_right _ hb)
  · exact h

theorem State.NoMinimum.blockReset (h : s.NoMinimum) : s.blockReset.NoMinimum :=
  h.of_subset (List.subset_append_right s.txOut s.sinkOut)

theorem BusMove.noMinimum {op : BusOp} (hm : BusMove p s op t) (h : s.NoMinimum) : t.NoMinimum := by
  cases hm with
  | pop => exact h.of_transmitFields (resultPop_transmitFields s)
  | softReset => exact State.NoMinimum.blockReset (s := s.reply .ack) h
  | transmit _ cmd => exact State.NoMinimum.transmitChecked (s := s.reply .ack) _ cmd h
  | answer | latch | rxEn | acknowledge | irqEn | txChannel | cmdErr => exact h

theorem Move.noMinimum {x : Turn} (hm : Move p s x t) (h : s.NoMinimum) : t.NoMinimum := by
  cases hm with
  | beat b rest => exact h.of_transmitFields (beat_transmitFields p b.sample b.last { s with portIn := rest })
  | take => exact h.takeBeat
  | reset => exact h.blockReset
  | bus op rest _ _ hb => exact hb.noMinimum h
  | none | process | eosFatal | eosIgnored => exact h

theorem stepWith_noMinimum (hs : stepWith p exec s = .next t) (h : s.NoMinimum) : t.NoMinimum := by
  obtain ⟨_, _, -, -, rfl⟩ | ⟨-, -, hm⟩ | ⟨-, hm⟩ := stepWith_move hs
  · exact h
  · exact hm.noMinimum h
  · exact hm.noMinimum h

end Range

/-- Settles O57: a modulated frame is in range by its quantiser, and a step brings no other beats. -/
theorem minusOneHundredTwentyEightNeverAppears : Obligations.MinusOneHundredTwentyEightNeverAppears := by
  refine ⟨fun p fr v hv => ?_, fun p s t h hs => stepWith_noMinimum hs h⟩
  obtain ⟨-, hrange⟩ := modulation_range hv
  exact ⟨hrange, fun b hb => beatsOf_ne_minimum hrange hb⟩

/-! ### The fields of a record (R92 to R97) -/

section Fields

theorem word0_wid (st : Byte) (m : Message) (pre : Bool) : (word0 st m pre).extractLsb' 16 8 = m.wid := by
  refine BitVec.eq_of_getLsbD_eq fun i hi => ?_
  have hlt : 16 + i < 24 := by omega
  have hge : ∀ k ≤ 16, ¬ 16 + i < k := fun k hk => by omega
  simp [word0_getLsbD, hi, hlt, hge]

/-- The flags of word 0, from bit 24 on (R92). -/
theorem word0_flags (st : Byte) (m : Message) (pre : Bool) :
    (word0 st m pre).getLsbD 24 = m.isPrimary ∧ (word0 st m pre).getLsbD 25 = m.unkCmd ∧
    (word0 st m pre).getLsbD 26 = m.unkTarget ∧ (word0 st m pre).getLsbD 27 = m.unkProp ∧
    (word0 st m pre).getLsbD 28 = m.badValue ∧ (word0 st m pre).getLsbD 29 = pre :=
  ⟨word0_getLsbD st m pre 24, word0_getLsbD st m pre 25, word0_getLsbD st m pre 26, word0_getLsbD st m pre 27,
    word0_getLsbD st m pre 28, word0_getLsbD st m pre 29⟩

/-- The operand bytes of word 1 (R93). -/
theorem word1_bytes (m : Message) :
    (word1 m).extractLsb' 0 8 = m.b0 ∧ (word1 m).extractLsb' 8 8 = m.b1 ∧ (word1 m).extractLsb' 16 8 = m.b2 := by
  refine ⟨?_, ?_, ?_⟩ <;> refine BitVec.eq_of_getLsbD_eq fun i hi => ?_
  · simp [word1_getLsbD, hi]
  · have hlt : 8 + i < 16 := by omega
    simp [word1_getLsbD, hi, hlt]
  · have hlt : 16 + i < 24 := by omega
    have hge : ∀ k ≤ 16, ¬ 16 + i < k := fun k hk => by omega
    simp [word1_getLsbD, hi, hlt, hge]

theorem word9_nbits (b : Bits) : ((word9 b).extractLsb' 0 16).toNat = nbits b := by
  have hfield : (word9 b).extractLsb' 0 16 = BitVec.ofNat 16 (nbits b) :=
    BitVec.eq_of_getLsbD_eq fun i hi => by simp [word9_getLsbD, hi]
  have hle : nbits b ≤ 0xFFFF := min_le_right _ _
  rw [hfield, BitVec.toNat_ofNat]
  omega

theorem lengthWord_toNat {n : Nat} (h : n < 2 ^ 32) : (lengthWord n).toNat = n := by
  rw [lengthWord, if_pos h, BitVec.toNat_ofNat, Nat.mod_eq_of_lt h]

/-- A 64-bit index from the two words that hold it (R94). -/
theorem high_append_low (x : Count) : x.extractLsb' 32 32 ++ x.extractLsb' 0 32 = x :=
  BitVec.extractLsb'_append_extractLsb' (w := 32) (len := 32)

/-- Bit word `k` of a record stands behind its ten fixed words; past the last one there is none (R95, R96). -/
theorem recordOf_getD_bitWord (st : Byte) (m : Message) (r : Reception) (k : Nat) :
    (recordOf st m r).getD (10 + k) 0 = if k < nwords r.bits then bitWord r.bits k else 0 := by
  rw [recordOf, List.getD_append_right _ _ _ _ (by simp)]
  split <;> simp [*]

/-- Bit `i` of the bit string a record stores (R95). -/
theorem recordOf_bit (st : Byte) (m : Message) (r : Reception) {i : Nat} (hi : i < 128) :
    ((recordOf st m r).getD (10 + i / 32) 0).getLsbD (31 - i % 32) = r.bits.getD i false := by
  rw [recordOf_getD_bitWord]
  by_cases hk : i / 32 < nwords r.bits
  · have hindex : 32 * (i / 32) + (31 - (31 - i % 32)) = i := by omega
    rw [if_pos hk, bitWord_getLsbD _ _ _ (by omega), hindex]
    simp [List.getD_eq_getElem?_getD, Config.recBitsMax, hi]
  · have hlength : r.bits.length ≤ i := by
      simp only [nwords, nbits, Config.recBitsMax] at hk
      omega
    rw [if_neg hk, List.getD_eq_default _ _ hlength]
    simp

/-- Word 0 of a failure: its code, `WID = 0xFF`, and `PREPENDED` in bit 29 (R92, R97). -/
theorem word0_absent (code : BurstFail) (pre : Bool) :
    word0 (statusCode code) .absent pre =
      BitVec.ofNat 32 ((statusCode code).toNat + 0x00FF0000 + if pre then 2 ^ 29 else 0) := by
  cases code <;> cases pre <;> rfl

theorem failureRecord_take (code : BurstFail) (r : Reception) :
    (failureRecord code r).take 3 =
      [BitVec.ofNat 32 ((statusCode code).toNat + 0x00FF0000 + if r.prepended then 2 ^ 29 else 0), 0, 0] := by
  rw [← word0_absent]
  rfl

end Fields

/-- Settles O43: each field is read off the word that holds it, and a failure's record is one with no message. -/
theorem recordFields : Obligations.RecordFields := by
  refine ⟨fun code r => ⟨?_, fun st m => rfl⟩, fun st m r => ?_⟩
  · rw [failureRecord_take]
    cases code <;> rfl
  · obtain ⟨hprimary, hcmd, htarget, hprop, hvalue, hprepended⟩ := word0_flags st m r.prepended
    obtain ⟨hb0, hb1, hb2⟩ := word1_bytes m
    exact ⟨word0_status .., word0_kind .., word0_wid .., hprimary, hcmd, htarget, hprop, hvalue, hprepended,
      word0_reserved .., hb0, hb1, hb2, word1_decKind m, word1_reserved m, rfl, high_append_low r.absStart,
      lengthWord_toNat, high_append_low r.gap, rfl, word9_nbits r.bits, word9_nwords r.bits,
      recordOf_length st m r, fun i hi => recordOf_bit st m r hi⟩

/-! ### A constant burst (R151 to R155, R170, R181, R182) -/

section Constant

theorem median_replicate {n : Nat} (hn : 0 < n) (x : ℝ) : median (List.replicate n x) = x := by
  have hsort : (List.replicate n x).insertionSort (· ≤ ·) = List.replicate n x :=
    List.Pairwise.insertionSort_eq (List.pairwise_replicate.mpr (Or.inr le_rfl))
  have hget {k : Nat} (hk : k < n) : (List.replicate n x).getD k 0 = x := by
    simp [List.getD_eq_getElem?_getD, hk]
  simp only [median, hsort, List.length_replicate]
  split
  · exact hget (by omega)
  · rw [hget (by omega), hget (by omega)]
    ring

theorem level_replicate {n : Nat} (hn : 0 < n) (a : ℂ) : level (List.replicate n a) = dB a := by
  rw [level, powers, List.map_replicate, median_replicate hn]

theorem deviations_replicate {n : Nat} (hn : 0 < n) (a : ℂ) :
    deviations (List.replicate n a) = List.replicate n 0 := by
  rw [deviations, level_replicate hn, powers, List.map_replicate, List.map_replicate, sub_self]

theorem pstd_replicate_zero (n : Nat) : pstd (List.replicate n 0) = 0 := by
  simp [pstd, mean]

/-- No sample of a constant burst is cropped: each is at the level (R153). -/
theorem croppedIndices_replicate {n : Nat} (hn : 0 < n) (a : ℂ) :
    croppedIndices .exactReals (List.replicate n a) = List.range n := by
  rw [croppedIndices, deviations_replicate hn, List.length_replicate]
  refine List.filter_eq_self.mpr fun k hk => ?_
  have hzero : (List.replicate n (0 : ℝ)).getD k 0 = 0 := by
    simp [List.getD_eq_getElem?_getD, List.mem_range.mp hk]
  simp only [decide_eq_true_eq, hzero, Numerics.lt_exactReals]
  norm_num

theorem cropStart_replicate {n : Nat} (hn : 0 < n) (a : ℂ) : cropStart .exactReals (List.replicate n a) = 0 := by
  obtain ⟨m, rfl⟩ := Nat.exists_eq_succ_of_ne_zero hn.ne'
  rw [cropStart, croppedIndices_replicate hn, List.range_succ_eq_map]
  rfl

theorem cropEnd_replicate {n : Nat} (hn : 0 < n) (a : ℂ) : cropEnd .exactReals (List.replicate n a) = n - 1 := by
  obtain ⟨m, rfl⟩ := Nat.exists_eq_succ_of_ne_zero hn.ne'
  rw [cropEnd, croppedIndices_replicate hn, List.range_succ, List.getLastD_concat]
  rfl

/-- The interior of a constant list is constant (R154). -/
theorem interiorOf_replicate {α : Type} (s0 e0 n : Nat) (a : α) :
    ∃ m, interiorOf s0 e0 (List.replicate n a) = List.replicate m a := by
  rw [interiorOf, List.drop_replicate, List.take_replicate]
  exact ⟨_, rfl⟩

theorem not_interiorTooShort {n : Nat} (hn : 8 ≤ n) : ¬ interiorTooShort 0 (n - 1) := by
  simp only [interiorTooShort, Config.guardBand]
  omega

theorem flat_replicate_zero (m : Nat) : flat .exactReals (List.replicate m 0) := by
  refine ⟨fun x hx => ?_, ?_⟩
  · rw [List.eq_of_mem_replicate hx]
    norm_num
  · rw [pstd_replicate_zero]
    norm_num

/-- Between two equal samples the phase does not move (R170). -/
theorem instFreq_self (fs : ℝ) (a : ℂ) : instFreq fs a a = 0 := by
  rw [instFreq, Complex.mul_conj, Complex.arg_ofReal_of_nonneg (Complex.normSq_nonneg a), zero_mul, zero_div]

/-- The discriminator gives 0 throughout a constant burst (R170). -/
theorem mem_discriminate_replicate {fs x : ℝ} {m : Nat} {a : ℂ} (h : x ∈ discriminate fs (List.replicate m a)) :
    x = 0 := by
  rw [discriminate, List.tail_replicate, List.zipWith_replicate] at h
  rw [List.eq_of_mem_replicate h, instFreq_self]

/-- Without a frequency there is no clock (R181). -/
theorem clockCorrelation_of_zero (fs : ℝ) {f : List ℝ} (h : ∀ x ∈ f, x = 0) : clockCorrelation fs f = 0 := by
  have hterm (i : Nat) (hi : i < f.length) : f.getD i 0 = 0 := by
    rw [List.getD_eq_getElem _ _ hi]
    exact h _ (List.getElem_mem hi)
  rw [clockCorrelation, Finset.sum_eq_zero, mul_zero]
  intro i hi
  rw [hterm i (Finset.mem_range.mp hi), abs_zero, Complex.ofReal_zero, zero_mul]

/-- The lock window does not reach 0 (R182). -/
theorem not_locked_zero : ¬ locked .exactReals 0 := by
  rw [locked, Numerics.lt_exactReals]
  norm_num

/-- A burst that passes the power detector's checks and not the lock check (R190). -/
theorem sliceBurst_of_not_locked {p : Params} {s : List ℂ}
    (hlong : ¬ interiorTooShort (cropStart p.numerics s) (cropEnd p.numerics s))
    (hflat : flat p.numerics (interiorOf (cropStart p.numerics s) (cropEnd p.numerics s) (deviations s)))
    (hlock : ¬ locked p.numerics (clockCorrelation p.fsRx
      (discriminate p.fsRx (interiorOf (cropStart p.numerics s) (cropEnd p.numerics s) s)))) :
    sliceBurst p s = .failed .clockLockFailed := by
  rw [sliceBurst, if_neg hlong, if_neg (not_not.mpr hflat), if_pos hlock]

theorem sliceBurst_replicate {p : Params} (hp : p.numerics = .exactReals) {n : Nat} (hn : 8 ≤ n) (a : ℂ) :
    sliceBurst p (List.replicate n a) = .failed .clockLockFailed := by
  have hpos : 0 < n := by omega
  obtain ⟨m, hsamples⟩ := interiorOf_replicate 0 (n - 1) n a
  obtain ⟨k, hdeviations⟩ := interiorOf_replicate 0 (n - 1) n (0 : ℝ)
  refine sliceBurst_of_not_locked ?_ ?_ ?_ <;> rw [hp, cropStart_replicate hpos, cropEnd_replicate hpos]
  · exact not_interiorTooShort hn
  · rw [deviations_replicate hpos, hdeviations]
    exact flat_replicate_zero k
  · rw [hsamples, clockCorrelation_of_zero _ fun _ => mem_discriminate_replicate]
    exact not_locked_zero

end Constant

/-- Settles O52: the slicer stops at the lock, and the level is that of the one sample. -/
theorem constantBurstFailsTheLock : Obligations.ConstantBurstFailsTheLock := by
  intro p z n hp hn _
  rw [demodulate_eq, List.map_replicate, sliceBurst_replicate hp (by omega), level_replicate (by omega)]

end Sys2Proof.Machine

/-! SUPPORT. The threshold, the edges of a scan, the scan, a sample beat, PROCESS, the end of stream, the conservation of
samples, and that chunking does not change what is found (family 40_stream_buffer.md). -/

namespace Sys2Proof.Machine

/-! ### The threshold (R122) -/

section Threshold

variable {p : Params}

/-- `|z|²` in the units of `normSqFixed`: the significands are scaled by `2^149` each. -/
theorem normSqFixed_eq (z : Sample) :
    (z.normSqFixed : ℝ) = 2 ^ 149 * 2 ^ 149 * (z.toComplex.re ^ 2 + z.toComplex.im ^ 2) := by
  simp only [Sample.normSqFixed, Sample.toComplex, real32, Int.cast_add, Int.cast_mul]
  ring

theorem above_iff_normSqFixed (hp : p.numerics = .exactReals) (z : Sample) :
    above p z = true ↔ 2 ^ 149 * 2 ^ 149 < 1000 * z.normSqFixed := by
  simp only [above, hp, decide_eq_true_eq]

theorem above_iff_sq (hp : p.numerics = .exactReals) (z : Sample) :
    above p z = true ↔ (1 / 1000 : ℝ) < z.toComplex.re ^ 2 + z.toComplex.im ^ 2 := by
  have hcast : (2 ^ 149 * 2 ^ 149 < 1000 * z.normSqFixed) ↔
      (2 ^ 149 * 2 ^ 149 : ℝ) < 1000 * (z.normSqFixed : ℝ) := by exact_mod_cast Iff.rfl
  rw [above_iff_normSqFixed hp, hcast, normSqFixed_eq]
  constructor <;> intro h <;> linarith

/-- −30 dB as an amplitude, squared. -/
theorem threshold_sq : ((10 : ℝ) ^ (-(30 / 20) : ℝ)) ^ 2 = 1 / 1000 := by
  rw [← Real.rpow_natCast, ← Real.rpow_mul (by norm_num)]
  norm_num

theorem threshold_lt_norm_iff (z : ℂ) :
    (10 : ℝ) ^ (-(30 / 20) : ℝ) < ‖z‖ ↔ (1 / 1000 : ℝ) < z.re ^ 2 + z.im ^ 2 := by
  rw [← sq_lt_sq₀ (by positivity) (norm_nonneg z), threshold_sq, Complex.sq_norm, Complex.normSq_apply, ← sq, ← sq]

end Threshold

/-- Settles O28: the integers the test compares are the real numbers scaled, and the norm is the root of its square. -/
theorem aboveIsTheExactThreshold : Obligations.AboveIsTheExactThreshold := by
  intro p z hp
  exact ⟨(above_iff_sq hp z).trans (threshold_lt_norm_iff z.toComplex).symm, above_iff_sq hp z⟩

/-! ### The edges of a scan (R124) -/

section Edges

variable {p : Params} {w : List Sample} {z : Sample} {a e k : Nat}

/-- The sample at index `k` of the window is above the threshold; past the window's end none is. -/
def aboveAt (p : Params) (w : List Sample) (k : Nat) : Bool := (w[k]?).any (above p)

/-- The samples of `[a, e)` are above the threshold, at least one, after a rising edge at `a`. -/
def RunAt (p : Params) (w : List Sample) (a e : Nat) : Prop :=
  a < e ∧ (∀ k, a ≤ k → k < e → aboveAt p w k = true) ∧ (a = 0 ∨ aboveAt p w (a - 1) = false)

theorem aboveAt_snoc (hk : k < w.length) : aboveAt p (w ++ [z]) k = aboveAt p w k := by
  rw [aboveAt, List.getElem?_append_left hk, aboveAt]

theorem aboveAt_snoc_length : aboveAt p (w ++ [z]) w.length = above p z := by
  rw [aboveAt, List.getElem?_concat_length, Option.any_some]

/-- A run inside the window does not see a sample that comes after it. -/
theorem runAt_snoc (he : e ≤ w.length) : RunAt p (w ++ [z]) a e ↔ RunAt p w a e := by
  refine and_congr_right fun hlt => and_congr ?_ ?_
  · exact forall_congr' fun k => imp_congr_right fun _ => forall_congr' fun hk => by rw [aboveAt_snoc (by omega)]
  · rw [aboveAt_snoc (by omega)]

/-- A run is one sample longer when that sample is above: it goes on with the run before, or starts one. -/
theorem runAt_succ : RunAt p w a (e + 1) ↔
    aboveAt p w e = true ∧ (RunAt p w a e ∨ a = e ∧ (e = 0 ∨ aboveAt p w (e - 1) = false)) := by
  constructor
  · rintro ⟨hlt, hrun, hrise⟩
    refine ⟨hrun e (by omega) (by omega), ?_⟩
    obtain h | rfl : a < e ∨ a = e := by omega
    · exact .inl ⟨h, fun k hak hke => hrun k hak (by omega), hrise⟩
    · exact .inr ⟨rfl, hrise⟩
  · rintro ⟨he, ⟨hlt, hrun, hrise⟩ | ⟨rfl, hrise⟩⟩
    · refine ⟨by omega, fun k hak hke => ?_, hrise⟩
      obtain h | rfl : k < e ∨ k = e := by omega
      · exact hrun k hak h
      · exact he
    · refine ⟨by omega, fun k hak hke => ?_, hrise⟩
      obtain rfl : k = a := by omega
      exact he

/-- No burst is open at the end of an empty window, or of one whose last sample is not above. -/
theorem edges_open_eq_none_iff (w : List Sample) :
    (edges p 0 none w).2 = none ↔ w.length = 0 ∨ aboveAt p w (w.length - 1) = false := by
  obtain rfl | ⟨v, z, rfl⟩ := List.eq_nil_or_concat' w
  · simp [edges]
  · rw [edges_snoc, List.length_append, List.length_singleton, Nat.add_sub_cancel, aboveAt_snoc_length]
    cases above p z <;> simp

/-- The open burst is the run that reaches the window's end. -/
theorem edges_open_iff (w : List Sample) (a : Nat) :
    (edges p 0 none w).2 = some a ↔ RunAt p w a w.length := by
  induction w using List.reverseRecOn with
  | nil => simp [edges, RunAt]
  | append_singleton w z ih =>
    have hstart : (w.length = 0 ∨ aboveAt p (w ++ [z]) (w.length - 1) = false) ↔ (edges p 0 none w).2 = none := by
      rw [edges_open_eq_none_iff]
      refine or_congr_right' fun hne => ?_
      rw [aboveAt_snoc (by omega)]
    rw [edges_snoc, List.length_append, List.length_singleton, runAt_succ, aboveAt_snoc_length, runAt_snoc le_rfl, ← ih,
      hstart]
    cases hz : above p z with
    | false => simp
    | true => cases ho : (edges p 0 none w).2 <;> simp [eq_comm]

/-- A complete burst is a run that ends, inside the window, at a sample that is not above. -/
theorem mem_edges_iff (w : List Sample) (a e : Nat) :
    (a, e) ∈ (edges p 0 none w).1 ↔ RunAt p w a e ∧ e < w.length ∧ aboveAt p w e = false := by
  induction w using List.reverseRecOn with
  | nil => simp [edges]
  | append_singleton w z ih =>
    have hsplit : (RunAt p (w ++ [z]) a e ∧ e < (w ++ [z]).length ∧ aboveAt p (w ++ [z]) e = false) ↔
        (RunAt p w a e ∧ e < w.length ∧ aboveAt p w e = false) ∨
          RunAt p w a w.length ∧ e = w.length ∧ above p z = false := by
      rw [List.length_append, List.length_singleton]
      obtain hlt | rfl | hgt := lt_trichotomy e w.length
      · rw [runAt_snoc hlt.le, aboveAt_snoc hlt]
        simp [hlt, hlt.ne, Nat.lt_succ_of_lt hlt]
      · simp [runAt_snoc le_rfl, aboveAt_snoc_length]
      · simp [hgt.not_gt, hgt.ne', Nat.not_lt.mpr (Nat.succ_le_of_lt hgt)]
    rw [hsplit, ← ih, ← edges_open_iff, edges_snoc]
    cases hz : above p z with
    | true => simp
    | false => simp [Option.mem_toList, eq_comm, and_comm]

end Edges

/-- Settles O29: the complete bursts and the open one are runs, and `edges` lists them in order. -/
theorem scanFindsExactlyTheBursts : Obligations.ScanFindsExactlyTheBursts := by
  intro p w
  refine ⟨fun a e => (mem_edges_iff w a e).trans ⟨?_, ?_⟩, (edges_ordered w).1, edges_open_iff w⟩
  · rintro ⟨⟨hlt, hrun, hrise⟩, hin, hend⟩
    exact ⟨hlt, hin, hrun, hend, hrise⟩
  · rintro ⟨hlt, hin, hrun, hend, hrise⟩
    exact ⟨⟨hlt, hrun, hrise⟩, hin, hend⟩

/-! ### The scan (R124 to R127) -/

section Scan

variable {p : Params} {s : State}

/-- The index from which compaction keeps the window: the open burst's start, or the window's end (R126). -/
def keepFrom (p : Params) (w : List Sample) : Nat := ((edges p 0 none w).2).getD w.length

theorem keepFrom_le (w : List Sample) : keepFrom p w ≤ w.length := by
  rw [keepFrom]
  cases ho : (edges p 0 none w).2 with
  | none => exact le_rfl
  | some a => exact (edges_open ho).1.le

theorem scan_of_overflow (hkeep : keepFrom p s.win = 0) (hfull : s.win.length = p.wCap) :
    s.scan p = { s with
      ovf := true, count := s.count + BitVec.ofNat 64 p.wCap, win := [], discard := true,
      pending := s.pending ++ foundBursts p s,
      rxPhase := if s.pending ++ foundBursts p s = [] then s.rxPhase else .process } := by
  have hcompact : State.compact p (edges p 0 none s.win).2 { s with pending := s.pending ++ foundBursts p s } =
      State.overflow p { s with pending := s.pending ++ foundBursts p s } := if_pos ⟨hkeep, hfull⟩
  simp only [State.scan, hcompact, State.overflow, State.raise]
  split <;> simp [*]

theorem scan_of_room (hroom : ¬(keepFrom p s.win = 0 ∧ s.win.length = p.wCap)) :
    s.scan p = { s with
      win := s.win.drop (keepFrom p s.win), count := s.count + BitVec.ofNat 64 (keepFrom p s.win),
      pending := s.pending ++ foundBursts p s,
      rxPhase := if s.pending ++ foundBursts p s = [] then s.rxPhase else .process } := by
  have hcompact : State.compact p (edges p 0 none s.win).2 { s with pending := s.pending ++ foundBursts p s } =
      { s with
        pending := s.pending ++ foundBursts p s, win := s.win.drop (keepFrom p s.win),
        count := s.count + BitVec.ofNat 64 (keepFrom p s.win) } := if_neg hroom
  simp only [State.scan, hcompact]
  split <;> simp [*]

/-- A stretch of above samples has no falling edge, and the burst it opens or goes on with stays open. -/
theorem edges_of_above (i : Nat) (st : Option Nat) {w : List Sample} (hne : w ≠ []) (hw : ∀ z ∈ w, above p z = true) :
    edges p i st w = ([], some (st.getD i)) := by
  induction w generalizing i st with
  | nil => exact absurd rfl hne
  | cons z w ih =>
    obtain ⟨hz, hw⟩ := List.forall_mem_cons.mp hw
    simp only [edges, hz, if_true]
    cases w with
    | nil => rfl
    | cons y w => exact ih (i + 1) _ (List.cons_ne_nil y w) hw

end Scan

/-- Settles O32: the window is one open burst from index 0, so nothing is found and compaction frees nothing. -/
theorem fullWindowOfOneBurstOverflows : Obligations.FullWindowOfOneBurstOverflows := by
  intro p s hfull habove hpending
  have hne : s.win ≠ [] := List.ne_nil_of_length_pos (hfull ▸ wCap_pos p)
  have hedges : edges p 0 none s.win = ([], some 0) := edges_of_above 0 none hne habove
  have hkeep : keepFrom p s.win = 0 := by rw [keepFrom, hedges, Option.getD_some]
  have hfound : foundBursts p s = [] := by rw [foundBursts, hedges, List.filter_nil, List.map_nil]
  rw [scan_of_overflow hkeep hfull, hfound, hpending]
  rfl

/-- Settles O33: `scan_of_room`, with what a scan queues written out. -/
theorem compactionKeepsTheOpenBurst : Obligations.CompactionKeepsTheOpenBurst := by
  rintro p s _ rfl hroom
  exact scan_of_room hroom

/-! ### The sample port (R121, R123, R128) -/

theorem portTurn_of_not_ready {p : Params} {s : State} (h : s.portReady p = false) : portTurn p s = .next s := by
  unfold portTurn
  split
  · rfl
  · rw [if_neg (Bool.eq_false_iff.mp h)]

/-- Settles O30: a port that is ready takes the beat, which drops its sample, keeps it, or keeps it and scans. -/
theorem sampleBeatEffect : Obligations.SampleBeatEffect := by
  intro p run s ts b rest hdecoder hturns hport hfinite
  rw [stepWith_port hdecoder hturns]
  cases hready : State.portReady p { s with turns := ts } with
  | false => rw [portTurn_of_not_ready hready, if_neg (mt portReady_iff.mpr (Bool.eq_false_iff.mp hready))]
  | true =>
    rw [portTurn_of_ready (s := { s with turns := ts }) hport hready, if_pos hfinite, if_pos (portReady_iff.mp hready)]
    congr 1
    obtain ⟨hdiscard, habove, he⟩ | ⟨hkept, hlast, hfill, he⟩ | ⟨hkept, hend, he⟩ :=
      beat_cases p b.sample b.last { s with turns := ts, portIn := rest } <;> refine he.trans ?_
    · rw [if_pos ⟨hdiscard, habove⟩]
    · have hgoes : ¬(b.last = true ∨ s.win.length + 1 = p.wCap) := not_or.mpr ⟨Bool.eq_false_iff.mp hlast, hfill⟩
      rw [if_neg hkept]
      exact (if_neg hgoes).symm
    · rw [if_neg hkept]
      exact (if_pos hend).symm

/-! ### PROCESS (R130, R131) -/

theorem parseFrame_of_decodeFrame_error {run : Instr → State → Result} {s : State} {r : Reception} {code : BurstFail}
    (h : decodeFrame r.bits = .error code) : parseFrame run r s = .next (s.deliver (failureRecord code r)) := by
  simp only [parseFrame, h]

/-- The record of the head burst in PROCESS: the decoder is empty again, and the port opens with the last burst. -/
theorem deliver_popBurst {s : State} {b : Burst} {rest : List Burst} (hphase : s.rxPhase = .process)
    (i : Option Reception) (rec : Record) :
    State.deliver rec { s.popBurst b rest with inflight := i } =
      { s with
        pending := rest, prevEnd := b.absStart + BitVec.ofNat 64 b.samples.length, inflight := none,
        rfifo := s.rfifo ++ [rec], rxPhase := if rest = [] then RxPhase.accept else .process } := by
  simp only [State.deliver, State.popBurst, hphase, true_and]

/-- Settles O2: PROCESS is enabled, and each outcome of the demodulation delivers from the state without the burst. -/
theorem processTurnsABurstIntoARecord : Obligations.ProcessTurnsABurstIntoARecord := by
  intro p s ts b rest hdecoder hturns hphase hroom hpending gap t phase ctx
  have henabled : State.rxEnabled p { s with turns := ts } = true :=
    rxEnabled_iff.mpr ⟨hphase, hroom, by simp [hpending]⟩
  have hdeliver (i : Option Reception) (rec : Record) :
      State.deliver rec { State.popBurst b rest { s with turns := ts } with inflight := i } =
        { t with rfifo := s.rfifo ++ [rec], rxPhase := phase } :=
    (deliver_popBurst (s := { s with turns := ts }) hphase i rec).trans (by rw [← hdecoder])
  rw [stepWith_rx hdecoder hturns, process_of_enabled henabled hpending]
  cases demodulate p b.samples with
  | fail code power => exact congrArg _ (hdeliver s.inflight _)
  | ok power bits prepended =>
    dsimp only
    cases hframe : decodeFrame bits with
    | ok i => exact parseFrame_of_decodeFrame (r := ctx power bits prepended) hframe
    | error code =>
      exact (parseFrame_of_decodeFrame_error (r := ctx power bits prepended) hframe).trans (congrArg _ (hdeliver _ _))

/-- Settles O3: PROCESS is not enabled. -/
theorem processWaitsForTheResultFifo : Obligations.ProcessWaitsForTheResultFifo := by
  intro p run s ts hdecoder hturns hwait
  have hoff : State.rxEnabled p { s with turns := ts } = false := by
    refine Bool.eq_false_iff.mpr fun henabled => ?_
    obtain ⟨hphase, hroom, -⟩ := rxEnabled_iff.mp henabled
    exact hwait.elim (fun h => h hphase) (fun h => (Nat.not_lt.mpr h) hroom)
  rw [stepWith_rx hdecoder hturns, process_of_not_enabled hoff]

theorem deliverMessage_of_decoder_empty {s : State} (h : s.inflight = none) (m : Message) :
    deliverMessage m s = .fault .noFrameInDecoder := by
  simp only [deliverMessage, h]

/-- Settles O10: both frame instructions deliver a message, which needs the burst it came in. -/
theorem frameWithoutABurstFaults : Obligations.FrameWithoutABurstFaults := fun _ hdecoder =>
  ⟨fun _ _ => deliverMessage_of_decoder_empty hdecoder _, fun _ _ _ _ => deliverMessage_of_decoder_empty hdecoder _⟩

/-! ### The end of stream (R129) -/

/-- Settles O36: phase by phase. -/
theorem endOfStreamEffect : Obligations.EndOfStreamEffect := by
  intro p run s ts hdecoder hturns hwaits
  rw [stepWith_eos hdecoder hturns, eosTurn, if_neg (Nat.ne_of_gt hwaits)]
  cases s.rxPhase <;> rfl

/-! ### Conservation (R135) -/

section Conservation

variable {p : Params} {s t : State}

/-- The samples counted, those in the window and those still offered on the port, modulo `2^64`. -/
def State.sampleTotal (s : State) : Count :=
  s.count + BitVec.ofNat 64 s.win.length + BitVec.ofNat 64 s.portIn.length

/-- What compaction or an overflow takes out of the window it counts (R126, R127). -/
theorem scan_sampleTotal (p : Params) (s : State) : (s.scan p).sampleTotal = s.sampleTotal := by
  obtain ⟨hfull, he⟩ | ⟨keep, hkeep, -, he⟩ := scan_cases p s <;> rw [he]
  · simp only [State.sampleTotal, List.length_nil, hfull, BitVec.add_zero]
  · have hsum : BitVec.ofNat 64 keep + BitVec.ofNat 64 (s.win.length - keep) = BitVec.ofNat 64 s.win.length := by
      rw [← BitVec.ofNat_add, Nat.add_sub_cancel' hkeep]
    simp only [State.sampleTotal, List.length_drop, BitVec.add_assoc, ← hsum]

/-- A sample taken is counted at once or stands in the window (R121, R128). -/
theorem beat_sampleTotal (p : Params) (z : Sample) (last : Bool) (s : State) :
    (s.beat p z last).sampleTotal = s.sampleTotal + 1 := by
  have hkept : State.sampleTotal { s with discard := false, win := s.win ++ [z] } = s.sampleTotal + 1 := by
    simp only [State.sampleTotal, List.length_append, List.length_singleton, BitVec.ofNat_add]
    ac_rfl
  obtain ⟨-, -, he⟩ | ⟨-, -, -, he⟩ | ⟨-, -, he⟩ := beat_cases p z last s <;> rw [he]
  · simp only [State.sampleTotal]
    ac_rfl
  · exact hkept
  · rw [scan_sampleTotal, hkept]

theorem sampleTotal_of_portIn {b : PortBeat} {rest : List PortBeat} (hport : s.portIn = b :: rest) :
    State.sampleTotal { s with portIn := rest } + 1 = s.sampleTotal := by
  simp only [State.sampleTotal, hport, List.length_cons, BitVec.ofNat_add]
  ac_rfl

theorem resultPop_sampleTotal (s : State) : s.resultPop.2.sampleTotal = s.sampleTotal := by
  obtain he | ⟨_, _, -, -, he⟩ | ⟨_, _, -, -, he⟩ := resultPop_cases s <;> rw [he] <;> rfl

theorem takeBeat_sampleTotal (s : State) : s.takeBeat.sampleTotal = s.sampleTotal := by
  obtain ⟨-, he⟩ | ⟨_, _, -, -, he⟩ | ⟨_, _, -, -, he⟩ := takeBeat_cases s <;> rw [he] <;> rfl

theorem transmitChecked_sampleTotal (q : Params) (cmd : TxCommand) (s : State) :
    (s.transmitChecked q cmd).sampleTotal = s.sampleTotal := by
  obtain ⟨-, he⟩ | ⟨-, _, -, he⟩ | ⟨-, -, he⟩ := transmitChecked_cases q cmd s <;> rw [he] <;> rfl

theorem BusMove.sampleTotal {op : BusOp} (hm : BusMove p s op t) (hop : op.isSoftReset = false) :
    t.sampleTotal = s.sampleTotal := by
  cases hm with
  | pop => exact resultPop_sampleTotal s
  | softReset _ h => simp [hop] at h
  | transmit _ cmd => exact transmitChecked_sampleTotal _ cmd (s.reply .ack)
  | answer | latch | rxEn | acknowledge | irqEn | txChannel | cmdErr => rfl

theorem Move.sampleTotal {x : Turn} (hm : Move p s x t) (hx : x ≠ .reset)
    (hbus : ∀ op rest, x = .bus → s.busIn = op :: rest → op.isSoftReset = false) : t.sampleTotal = s.sampleTotal := by
  cases hm with
  | beat b rest hport => exact (beat_sampleTotal p _ _ _).trans (sampleTotal_of_portIn hport)
  | take => exact takeBeat_sampleTotal s
  | reset => exact absurd rfl hx
  | bus op rest _ hb hm => exact hm.sampleTotal (hbus op rest rfl hb)
  | none | process | eosFatal | eosIgnored => rfl

/-- A step that is no reset takes no reset turn and no soft reset from the bus (R340, R341). -/
theorem nextTurn_of_resetsNext (hdecoder : s.inflight = none) (h : s.resetsNext p = false) :
    s.nextTurn p ≠ .reset ∧
      ∀ op rest, s.nextTurn p = .bus → s.busIn = op :: rest → op.isSoftReset = false := by
  rw [State.resetsNext, hdecoder, Option.isNone_none, Bool.true_and] at h
  constructor
  · intro hx
    simp [hx] at h
  · intro op rest hx hb
    simpa [hx, hb] using h

end Conservation

/-- Settles O34: a step delivers a record or is a move, and every move but a reset keeps the total. -/
theorem sampleCountIsConserved : Obligations.SampleCountIsConserved := by
  intro p s t hreset hs
  change t.sampleTotal = s.sampleTotal
  obtain ⟨_, _, -, -, rfl⟩ | ⟨-, -, hm⟩ | ⟨hdecoder, hm⟩ := stepWith_move hs
  · rfl
  · exact hm.sampleTotal (by decide) (by simp)
  · obtain ⟨hx, hbus⟩ := nextTurn_of_resetsNext hdecoder hreset
    exact hm.sampleTotal hx hbus

/-! ### Chunks (R132) -/

section Chunks

variable {p : Params} {s : State} {u v w : List Sample}

/-- A window that ends in another stretch shows the same burst before it. -/
theorem burstOf_append_left {b : Nat × Nat} (hb : b.2 ≤ u.length) :
    burstOf { s with win := u ++ v } b = burstOf { s with win := u } b := by
  obtain h | h := le_total b.1 u.length
  · simp only [burstOf, List.drop_append_of_le_length h]
    rw [List.take_append_of_le_length (by simp; omega)]
  · simp [burstOf, Nat.sub_eq_zero_of_le (hb.trans h)]

/-- A burst of the window is that burst of the stream, the samples counted standing before it. -/
theorem burstOf_append_right (hcount : s.count = BitVec.ofNat 64 u.length) (b : Nat × Nat) :
    burstOf { State.reset with win := u ++ s.win } (b.1 + u.length, b.2 + u.length) = burstOf s b := by
  have hstart : (0 : Count) + BitVec.ofNat 64 (b.1 + u.length) = s.count + BitVec.ofNat 64 b.1 := by
    rw [hcount, BitVec.ofNat_add, BitVec.add_comm (BitVec.ofNat 64 b.1)]
    exact BitVec.zero_add _
  have hdrop : (u ++ s.win).drop (b.1 + u.length) = s.win.drop b.1 := by
    rw [Nat.add_comm, ← List.drop_drop, List.drop_left]
  have hlength : b.2 + u.length - (b.1 + u.length) = b.2 - b.1 := Nat.add_sub_add_right _ _ _
  simp only [burstOf, hdrop, hlength]
  exact congrArg (Burst.mk · _) hstart

theorem edges_append_of_closed (hu : (edges p 0 none u).2 = none) (w : List Sample) :
    edges p 0 none (u ++ w) =
      ((edges p 0 none u).1 ++ (edges p 0 none w).1.map (fun b => (b.1 + u.length, b.2 + u.length)),
        (edges p 0 none w).2.map (· + u.length)) := by
  have hshift := edges_shift (p := p) u.length 0 none w
  rw [Option.map_none] at hshift
  rw [edges_append, hu, hshift]

/-- Where compaction keeps the window no burst is open, and none that is complete is cut. -/
theorem edges_take_keepFrom (w : List Sample) :
    edges p 0 none (w.take (keepFrom p w)) = ((edges p 0 none w).1, none) := by
  induction w using List.reverseRecOn with
  | nil => rfl
  | append_singleton w z ih =>
    cases hz : above p z with
    | true =>
      have hkeep : keepFrom p (w ++ [z]) = keepFrom p w := by simp [keepFrom, edges_snoc, hz]
      rw [hkeep, List.take_append_of_le_length (keepFrom_le w), ih, edges_snoc, if_pos hz]
    | false =>
      have hnone : (edges p 0 none (w ++ [z])).2 = none := by simp [edges_snoc, hz]
      rw [keepFrom, hnone, Option.getD_none, List.take_length]
      exact Prod.ext rfl hnone

/-- The bursts a scan queues of a whole stream. -/
def streamBursts (p : Params) (zs : List Sample) : List Burst := foundBursts p { State.reset with win := zs }

/-- A scan of the window finds what a scan of the whole stream would find after the samples counted. -/
theorem streamBursts_append (hu : (edges p 0 none u).2 = none) (hcount : s.count = BitVec.ofNat 64 u.length) :
    streamBursts p (u ++ s.win) = streamBursts p u ++ foundBursts p s := by
  have hlong : longEnough ∘ (fun b : Nat × Nat => (b.1 + u.length, b.2 + u.length)) = longEnough := by
    funext b
    simp [longEnough, Nat.add_sub_add_right]
  simp only [streamBursts, foundBursts, edges_append_of_closed hu, List.filter_append, List.filter_map, hlong,
    List.map_append, List.map_map]
  congr 1
  · exact List.map_congr_left fun b hb => burstOf_append_left (edges_complete (List.mem_of_mem_filter hb)).2.1.le
  · exact List.map_congr_left fun b _ => burstOf_append_right hcount b

/-- What a scan finds ends before the samples it keeps. -/
theorem streamBursts_take_keepFrom (zs : List Sample) : streamBursts p (zs.take (keepFrom p zs)) = streamBursts p zs := by
  simp only [streamBursts, foundBursts, edges_take_keepFrom]
  refine List.map_congr_left fun b hb => ?_
  have hend : b.2 < keepFrom p zs := (edges_ordered zs).2 b (List.mem_of_mem_filter hb)
  have hle : b.2 ≤ (zs.take (keepFrom p zs)).length := by
    rw [List.length_take, min_eq_left (keepFrom_le zs)]
    exact hend.le
  rw [← burstOf_append_left (v := zs.drop (keepFrom p zs)) hle, List.take_append_drop]

theorem keepFrom_append (hu : (edges p 0 none u).2 = none) (w : List Sample) :
    keepFrom p (u ++ w) = u.length + keepFrom p w := by
  rw [keepFrom, edges_append_of_closed hu, keepFrom]
  cases (edges p 0 none w).2 <;> simp [Nat.add_comm]

/-- The receive path has counted the samples `u`, which leave no burst open, and has queued their bursts. -/
structure Counted (p : Params) (u : List Sample) (s : State) : Prop where
  count_eq : s.count = BitVec.ofNat 64 u.length
  closed : (edges p 0 none u).2 = none
  pending_eq : s.pending = streamBursts p u
  discard_off : s.discard = false

theorem counted_reset (p : Params) : Counted p [] State.reset := ⟨rfl, rfl, rfl, rfl⟩

/-- A scan without overflow counts the stream up to the burst that is open at its end. -/
theorem Counted.scan (h : Counted p u s) (hovf : (s.scan p).ovf = false) :
    Counted p ((u ++ s.win).take (keepFrom p (u ++ s.win))) (s.scan p) ∧
      (s.scan p).win = (u ++ s.win).drop (keepFrom p (u ++ s.win)) := by
  have hroom : ¬(keepFrom p s.win = 0 ∧ s.win.length = p.wCap) := fun ⟨hkeep, hfull⟩ => by
    simp [scan_of_overflow hkeep hfull] at hovf
  have hkeep := keepFrom_append h.closed s.win
  obtain ⟨hcount, hclosed, hpending, hdiscard⟩ := h
  rw [scan_of_room hroom]
  refine ⟨⟨?_, by rw [edges_take_keepFrom], ?_, hdiscard⟩, ?_⟩
  · rw [List.length_take, min_eq_left (keepFrom_le _), hkeep, BitVec.ofNat_add, ← hcount]
  · rw [streamBursts_take_keepFrom, streamBursts_append hclosed hcount, ← hpending]
  · rw [hkeep, List.drop_append, List.drop_of_length_le (Nat.le_add_right _ _), Nat.add_sub_cancel_left, List.nil_append]

theorem beat_ovf {z : Sample} {last : Bool} (h : (s.beat p z last).ovf = false) : s.ovf = false := by
  obtain ⟨-, -, he⟩ | ⟨-, -, -, he⟩ | ⟨-, -, he⟩ := beat_cases p z last s <;> rw [he] at h
  · exact h
  · exact h
  · obtain ⟨-, hs⟩ | ⟨_, -, -, hs⟩ := scan_cases p { s with discard := false, win := s.win ++ [z] } <;> rw [hs] at h
    · cases h
    · exact h

/-- A beat without overflow adds its sample to the stream; one that ends a chunk counts as far as a scan of the whole
stream would. -/
theorem Counted.beat {z : Sample} {last : Bool} (h : Counted p u s) (hovf : (s.beat p z last).ovf = false) :
    ∃ v, Counted p v (s.beat p z last) ∧ v ++ (s.beat p z last).win = u ++ s.win ++ [z] ∧
      (last = true → v = (u ++ s.win ++ [z]).take (keepFrom p (u ++ s.win ++ [z]))) := by
  have hkept : Counted p u { s with discard := false, win := s.win ++ [z] } :=
    ⟨h.count_eq, h.closed, h.pending_eq, rfl⟩
  obtain ⟨hdiscard, -, -⟩ | ⟨-, hlast, -, he⟩ | ⟨-, -, he⟩ := beat_cases p z last s
  · simp [h.discard_off] at hdiscard
  · rw [he]
    exact ⟨u, hkept, (List.append_assoc ..).symm, by simp [hlast]⟩
  · rw [he] at hovf ⊢
    obtain ⟨hcounted, hwin⟩ := hkept.scan hovf
    rw [← List.append_assoc] at hcounted hwin
    exact ⟨_, hcounted, by rw [hwin, List.take_append_drop], fun _ => rfl⟩

theorem feedAll_snoc (beats : List (Sample × Bool)) (b : Sample × Bool) :
    s.feedAll p (beats ++ [b]) = (s.feedAll p beats).beat p b.1 b.2 := List.foldl_concat ..

/-- From reset and without overflow, the samples fed are those counted and those in the window; when the last ended a chunk,
they alone say how many are counted. -/
theorem counted_feedAll (beats : List (Sample × Bool)) (hovf : (State.reset.feedAll p beats).ovf = false) :
    ∃ u, Counted p u (State.reset.feedAll p beats) ∧
      u ++ (State.reset.feedAll p beats).win = beats.map Prod.fst ∧
      ((beats.map Prod.snd).getLast? = some true →
        u = (beats.map Prod.fst).take (keepFrom p (beats.map Prod.fst))) := by
  induction beats using List.reverseRecOn with
  | nil => exact ⟨[], counted_reset p, rfl, by simp⟩
  | append_singleton beats b ih =>
    rw [feedAll_snoc] at hovf ⊢
    obtain ⟨u, hcounted, hfed, -⟩ := ih (beat_ovf hovf)
    obtain ⟨v, hcounted, hsplit, hlast⟩ := hcounted.beat hovf
    rw [hfed] at hsplit hlast
    rw [List.map_append, List.map_append, List.map_singleton, List.map_singleton]
    exact ⟨v, hcounted, hsplit, fun h => hlast (by simpa using h)⟩

/-- A stream whose last sample ends a chunk determines what is queued and counted and what stays in the window, however it
is cut before. -/
theorem feedAll_of_chunkEnd {zs : List Sample} {ls : List Bool} (hlength : ls.length = zs.length)
    (hlast : ls.getLast? = some true) (hovf : (State.reset.feedAll p (zs.zip ls)).ovf = false) :
    (State.reset.feedAll p (zs.zip ls)).pending = streamBursts p zs ∧
    (State.reset.feedAll p (zs.zip ls)).count = BitVec.ofNat 64 (keepFrom p zs) ∧
    (State.reset.feedAll p (zs.zip ls)).win = zs.drop (keepFrom p zs) := by
  obtain ⟨u, ⟨hcount, -, hpending, -⟩, hsplit, hu⟩ := counted_feedAll (zs.zip ls) hovf
  rw [List.map_fst_zip hlength.ge, List.map_snd_zip hlength.le] at hu
  rw [List.map_fst_zip hlength.ge] at hsplit
  obtain rfl := hu hlast
  refine ⟨hpending.trans (streamBursts_take_keepFrom zs), ?_, ?_⟩
  · rw [hcount, List.length_take, min_eq_left (keepFrom_le zs)]
  · exact List.append_cancel_left (hsplit.trans (List.take_append_drop (keepFrom p zs) zs).symm)

end Chunks

/-- Settles O35: for either cutting, `feedAll_of_chunkEnd` names the same bursts, `count` and window. -/
theorem chunkingDoesNotChangeTheBursts : Obligations.ChunkingDoesNotChangeTheBursts := by
  intro p zs ls ms hls hms hlsEnd hmsEnd hlsOvf hmsOvf
  obtain ⟨hpending, hcount, hwin⟩ := feedAll_of_chunkEnd hls hlsEnd hlsOvf
  obtain ⟨hpending', hcount', hwin'⟩ := feedAll_of_chunkEnd hms hmsEnd hmsOvf
  exact ⟨hpending.trans hpending'.symm, hcount.trans hcount'.symm, hwin.trans hwin'.symm⟩

end Sys2Proof.Machine

/-! SUPPORT. The power detector (family 41_power_detector.md): the median of a moved list and the values at or above it,
and the demodulator's checks spelled out under exact reals. -/

namespace Sys2Proof.Machine

/-! ### Power and scale (R151, R157) -/

section Scale

/-- Moving every value moves the median (D16): sorting commutes with an addition. -/
theorem median_map_add {v : List ℝ} (hv : v ≠ []) (d : ℝ) : median (v.map (· + d)) = median v + d := by
  have hpos : 0 < v.length := List.length_pos_iff.mpr hv
  have hsort : (v.map (· + d)).insertionSort (· ≤ ·) = (v.insertionSort (· ≤ ·)).map (· + d) :=
    (List.map_insertionSort (· ≤ ·) (· ≤ ·) (· + d) v fun _ _ _ _ => (add_le_add_iff_right d).symm).symm
  have hget {k : Nat} (hk : k < v.length) :
      ((v.insertionSort (· ≤ ·)).map (· + d)).getD k 0 = (v.insertionSort (· ≤ ·)).getD k 0 + d := by
    have hk' : k < (v.insertionSort (· ≤ ·)).length := by rwa [List.length_insertionSort]
    rw [List.getD_eq_getElem _ _ (by rwa [List.length_map]), List.getElem_map, List.getD_eq_getElem _ _ hk']
  simp only [median, hsort, List.length_map]
  split
  · exact hget (by omega)
  · rw [hget (by omega), hget (by omega)]
    ring

theorem dB_mul {c z : ℂ} (hc : c ≠ 0) (hz : z ≠ 0) : dB (c * z) = dB z + dB c := by
  simp only [dB]
  rw [Complex.normSq_mul, Real.logb_mul (Complex.normSq_eq_zero.not.mpr hc) (Complex.normSq_eq_zero.not.mpr hz)]
  ring

variable {c : ℂ} {s : List ℂ}

theorem powers_map_mul (hc : c ≠ 0) (hs : ∀ z ∈ s, z ≠ 0) : powers (s.map (c * ·)) = (powers s).map (· + dB c) := by
  simp only [powers, List.map_map]
  exact List.map_congr_left fun z hz => dB_mul hc (hs z hz)

theorem level_map_mul (hc : c ≠ 0) (hne : s ≠ []) (hs : ∀ z ∈ s, z ≠ 0) :
    level (s.map (c * ·)) = level s + dB c := by
  have hpowers : powers s ≠ [] := List.map_eq_nil_iff.not.mpr hne
  rw [level, powers_map_mul hc hs, median_map_add hpowers, level]

theorem deviations_map_mul (hc : c ≠ 0) (hne : s ≠ []) (hs : ∀ z ∈ s, z ≠ 0) :
    deviations (s.map (c * ·)) = deviations s := by
  rw [deviations, powers_map_mul hc hs, level_map_mul hc hne hs, List.map_map, deviations]
  exact List.map_congr_left fun x _ => add_sub_add_right_eq_sub x (level s) (dB c)

theorem length_deviations (s : List ℂ) : (deviations s).length = s.length := by
  rw [deviations, powers, List.length_map, List.length_map]

/-- The crop depends on a burst's deviations alone (R153). -/
theorem croppedIndices_congr (num : Numerics) {s s' : List ℂ} (h : deviations s = deviations s') :
    croppedIndices num s = croppedIndices num s' := by
  rw [croppedIndices, croppedIndices, ← length_deviations s, ← length_deviations s', h]

end Scale

/-- Settles O47: the powers all move by `dB c`, so the level does, and the differences stay. -/
theorem powerProfileIgnoresScale : Obligations.PowerProfileIgnoresScale := by
  intro num c s hc hne hs
  have hdev := deviations_map_mul hc hne hs
  have hcrop := croppedIndices_congr num hdev
  exact ⟨level_map_mul hc hne hs, hdev, congrArg (·.headD 0) hcrop, congrArg (·.getLastD 0) hcrop⟩

/-! ### The values at or above the median (R151, R153, R154) -/

section Interior

/-- The median is at most the upper of the middle values (D16). -/
theorem median_le_getD (v : List ℝ) : median v ≤ (v.insertionSort (· ≤ ·)).getD (v.length / 2) 0 := by
  simp only [median]
  split
  · exact le_rfl
  · have hmiddle : (v.insertionSort (· ≤ ·)).getD (v.length / 2 - 1) 0 ≤
        (v.insertionSort (· ≤ ·)).getD (v.length / 2) 0 := by
      obtain rfl | hv := eq_or_ne v []
      · simp
      have hpos : 0 < v.length := List.length_pos_iff.mpr hv
      have hlen := List.length_insertionSort (· ≤ ·) v
      rw [List.getD_eq_getElem _ _ (by omega), List.getD_eq_getElem _ _ (by omega)]
      exact List.sortedLE_insertionSort.getElem_le_getElem_of_le (by omega)
    linarith

/-- At least half the values are at or above the median: those of the upper half of the sorted list. -/
theorem half_le_countP_median_le (v : List ℝ) : v.length - v.length / 2 ≤ v.countP fun x => decide (median v ≤ x) := by
  have hlen := List.length_insertionSort (· ≤ ·) v
  rw [← (List.perm_insertionSort (· ≤ ·) v).countP_eq]
  set u := v.insertionSort (· ≤ ·) with hu
  have hupper : (u.drop (v.length / 2)).countP (fun x => decide (median v ≤ x)) = v.length - v.length / 2 := by
    rw [List.countP_eq_length.mpr, List.length_drop, hlen]
    intro x hx
    obtain ⟨k, hk, rfl⟩ := List.mem_iff_getElem.mp hx
    rw [List.length_drop] at hk
    rw [decide_eq_true_iff, List.getElem_drop]
    have hmedian := median_le_getD v
    rw [← hu, List.getD_eq_getElem _ _ (by omega)] at hmedian
    exact hmedian.trans (List.sortedLE_insertionSort.getElem_le_getElem_of_le (by omega))
  exact hupper ▸ (List.drop_sublist _ u).countP_le

/-- As many indices as values pass a test. -/
theorem length_filter_range_getD {α : Type} (q : α → Bool) (v : List α) (d : α) :
    ((List.range v.length).filter fun n => q (v.getD n d)).length = v.countP q := by
  have hv : (List.range v.length).map (v.getD · d) = v := by
    refine List.ext_getElem (by simp) fun n h h' => ?_
    rw [List.getElem_map, List.getElem_range, List.getD_eq_getElem _ _ h']
  conv_rhs => rw [← hv]
  rw [List.countP_map, List.countP_eq_length_filter]
  rfl

/-- Rising indices: from the first to the last there are at least as many as the list holds. -/
theorem headD_add_length_le_getLastD : ∀ {l : List Nat}, l.Pairwise (· < ·) →
    l.headD 0 + (l.length - 1) ≤ l.getLastD 0
  | [], _ => le_rfl
  | [_], _ => le_rfl
  | a :: b :: l, h => by
    obtain ⟨hfirst, hrest⟩ := List.pairwise_cons.mp h
    have hab : a < b := hfirst b List.mem_cons_self
    have ih := headD_add_length_le_getLastD hrest
    simp only [List.headD_cons, List.getLastD_cons, List.length_cons] at ih ⊢
    omega

theorem croppedIndices_pairwise (num : Numerics) (s : List ℂ) : (croppedIndices num s).Pairwise (· < ·) :=
  List.pairwise_lt_range.filter _

theorem croppedIndices_exactReals (s : List ℂ) : croppedIndices .exactReals s =
    (List.range (deviations s).length).filter fun n => decide (-20 < (deviations s).getD n 0) := by
  rw [croppedIndices, length_deviations]
  exact List.filter_congr fun _ _ => decide_eq_decide.mpr Iff.rfl

/-- A sample at or above the level is not cropped, so half the samples are not (R153). -/
theorem half_le_length_croppedIndices (s : List ℂ) :
    s.length - s.length / 2 ≤ (croppedIndices .exactReals s).length := by
  have hlen : (powers s).length = s.length := List.length_map _
  calc s.length - s.length / 2
      ≤ (powers s).countP fun x => decide (level s ≤ x) := hlen ▸ half_le_countP_median_le (powers s)
    _ ≤ (powers s).countP fun x => decide (-20 < x - level s) := by
        refine List.countP_mono_left fun x _ hx => ?_
        rw [decide_eq_true_iff] at hx ⊢
        linarith
    _ = (deviations s).countP fun x => decide (-20 < x) := by
        rw [deviations, List.countP_map]
        rfl
    _ = (croppedIndices .exactReals s).length := by
        rw [croppedIndices_exactReals, length_filter_range_getD (fun x : ℝ => decide (-20 < x))]

theorem interiorTooShort_iff (s0 e0 : Nat) : interiorTooShort s0 e0 ↔ e0 < s0 + 7 := by
  simp only [interiorTooShort, Config.guardBand]
  omega

end Interior

/-- Settles O48: at least 100 rising indices are kept, so the last is 99 or more beyond the first. -/
theorem interiorIsNeverTooShort : Obligations.InteriorIsNeverTooShort := by
  intro s hs
  have hcount := half_le_length_croppedIndices s
  have hspan := headD_add_length_le_getLastD (croppedIndices_pairwise .exactReals s)
  have hcrop : cropStart .exactReals s + 99 ≤ cropEnd .exactReals s := by
    rw [cropStart, cropEnd]
    omega
  rw [interiorTooShort_iff]
  exact ⟨hcrop, by omega⟩

/-! ### The demodulator's checks under exact reals (R150 to R155, R181, R182, R187, R190) -/

section Demodulator

theorem dB_eq_re_im (z : ℂ) : dB z = 10 * Real.logb 10 (z.re ^ 2 + z.im ^ 2) := by
  rw [dB, Complex.normSq_apply, sq, sq]

theorem flat_exactReals_iff (v : List ℝ) : flat .exactReals v ↔ (∀ x ∈ v, |x| < 3) ∧ pstd v < 0.75 := by
  simp only [flat, Numerics.lt_exactReals]
  norm_num

/-- The lock window as two bounds (R182). -/
theorem locked_exactReals_iff (c : ℂ) : locked .exactReals c ↔ 30000 < ‖c‖ ∧ ‖c‖ < 50000 := by
  rw [locked, Numerics.lt_exactReals, abs_sub_lt_iff]
  constructor <;> rintro ⟨h, h'⟩ <;> constructor <;> linarith

/-- The depth window as two bounds (R187). -/
theorem depthValid_exactReals_iff (v : List ℝ) : depthValid .exactReals v ↔
    v ≠ [] ∧ 120000 < mean (v.map abs) ∧ mean (v.map abs) < 180000 ∧ pstd (v.map abs) < 75000 := by
  simp only [depthValid, Numerics.lt_exactReals, abs_sub_lt_iff]
  constructor
  · rintro ⟨hne, ⟨hhigh, hlow⟩, hstd⟩
    exact ⟨hne, by linarith, by linarith, hstd⟩
  · rintro ⟨hne, hlow, hhigh, hstd⟩
    exact ⟨hne, ⟨by linarith, by linarith⟩, hstd⟩

theorem clockCorrelation_eq (fs : ℝ) (f : List ℝ) : clockCorrelation fs f =
    (1 / (f.length : ℂ)) * ∑ i ∈ Finset.range f.length,
      ((|f.getD i 0| : ℝ) : ℂ) * Complex.exp (-Complex.I * 2 * Real.pi * 250000 * i / fs) := by
  simp only [clockCorrelation, Config.symbolRate, Nat.cast_ofNat]

theorem symbolPeriod_eq (fs : ℝ) : symbolPeriod fs = fs / 250000 := by
  simp only [symbolPeriod, Config.symbolRate, Nat.cast_ofNat]

open Classical in
/-- The demodulator as one chain of checks, each with its bounds and its result (R190): the slicer's chain with the level
joined to every outcome. -/
theorem demodulate_exactReals {p : Params} {s : List Sample} {lvl : ℝ} {s0 e0 : Nat} {innerDev f v : List ℝ} {C : ℂ}
    (hp : p.numerics = .exactReals) (hlvl : lvl = level (s.map Sample.toComplex))
    (hs0 : s0 = cropStart .exactReals (s.map Sample.toComplex)) (he0 : e0 = cropEnd .exactReals (s.map Sample.toComplex))
    (hinner : innerDev = interiorOf s0 e0 (deviations (s.map Sample.toComplex)))
    (hf : f = discriminate p.fsRx (interiorOf s0 e0 (s.map Sample.toComplex))) (hC : C = clockCorrelation p.fsRx f)
    (hv : v = symbolValues .exactReals p.fsRx f) :
    demodulate p s =
      if e0 < s0 + 7 then .fail .powerProfileInvalid (roundB32 lvl)
      else if ¬((∀ x ∈ innerDev, |x| < 3) ∧ pstd innerDev < 0.75) then .fail .powerProfileInvalid (roundB32 lvl)
      else if ¬(30000 < ‖C‖ ∧ ‖C‖ < 50000) then .fail .clockLockFailed (roundB32 lvl)
      else if ¬(v ≠ [] ∧ 120000 < mean (v.map abs) ∧ mean (v.map abs) < 180000 ∧ pstd (v.map abs) < 75000) then
        .fail .modulationDepthInvalid (roundB32 lvl)
      else .ok (roundB32 lvl) (compensate (sliceBits .exactReals v)).1 (compensate (sliceBits .exactReals v)).2 := by
  subst hv hC hf hinner hs0 he0 hlvl
  simp only [demodulate_eq, sliceBurst, hp, interiorTooShort_iff, flat_exactReals_iff, locked_exactReals_iff,
    depthValid_exactReals_iff]
  split_ifs <;> rfl

end Demodulator

/-- Settles O60: each step of the list is the model's, and each check its bounds. -/
theorem demodulatorChecksInOrder : Obligations.DemodulatorChecksInOrder := by
  intro p s hp avg std z P sorted lvl dev crop s0 e0 inner innerDev f C period v a
  have hP : P = powers z := List.map_congr_left fun w _ => (dB_eq_re_im w).symm
  have hlvl : lvl = level z := congrArg median hP
  have hdev : dev = deviations z := by rw [deviations, ← hP, ← hlvl]
  have hcrop : crop = croppedIndices .exactReals z := by rw [croppedIndices_exactReals, ← hdev]
  have hs0 : s0 = cropStart .exactReals z := congrArg (·.headD 0) hcrop
  have he0 : e0 = cropEnd .exactReals z := congrArg (·.getLastD 0) hcrop
  have hinner : innerDev = interiorOf s0 e0 (deviations z) := congrArg (interiorOf s0 e0) hdev
  have hf : f = discriminate p.fsRx (interiorOf s0 e0 z) := rfl
  have hC : C = clockCorrelation p.fsRx f := (clockCorrelation_eq p.fsRx f).symm
  have hv : v = symbolValues .exactReals p.fsRx f := by rw [symbolValues, symbolPeriod_eq, ← hC]; rfl
  have hbits : sliceBits .exactReals v = v.map fun x => decide (x < 0) :=
    List.map_congr_left fun _ _ => decide_eq_decide.mpr Iff.rfl
  rw [demodulate_exactReals hp hlvl hs0 he0 hinner hf hC hv, hbits]
  rfl

end Sys2Proof.Machine

/-! SUPPORT. The discriminator (family 42_discriminator.md): the range of one deviation (R170), and what a common factor
and a phase step do to it (R172). -/

namespace Sys2Proof.Machine

section Discriminator

theorem length_discriminate (fs : ℝ) (x : List ℂ) : (discriminate fs x).length = x.length - 1 := by
  simp [discriminate]

/-- The value at `i` is the deviation between the samples `i` and `i + 1` (R170). -/
theorem getD_discriminate (fs : ℝ) {x : List ℂ} {i : Nat} (hi : i + 1 < x.length) :
    (discriminate fs x).getD i 0 = instFreq fs x[i] x[i + 1] := by
  rw [List.getD_eq_getElem _ _ (by rw [length_discriminate]; omega)]
  simp [discriminate]

/-- Every value of the discriminator is the deviation between two samples (R170). -/
theorem exists_of_mem_discriminate {fs f : ℝ} {x : List ℂ} (hf : f ∈ discriminate fs x) :
    ∃ a b, f = instFreq fs a b := by
  obtain ⟨i, hi, rfl⟩ := List.getElem_of_mem hf
  exact ⟨_, _, List.getElem_zipWith⟩

/-- A deviation is the phase step in turns, times the sampling rate: half a turn is `FS/2`. -/
theorem instFreq_eq (fs : ℝ) (a b : ℂ) :
    instFreq fs a b = Complex.arg (b * starRingEnd ℂ a) / Real.pi * (fs / 2) := by
  rw [instFreq]
  ring

/-- The range of `arg` is `(−π, π]`, so the range of a deviation is `(−FS/2, FS/2]` (R170). -/
theorem instFreq_mem_Ioc {fs : ℝ} (hfs : 0 < fs) (a b : ℂ) : instFreq fs a b ∈ Set.Ioc (-(fs / 2)) (fs / 2) := by
  obtain ⟨hlow, hhigh⟩ := Complex.arg_mem_Ioc (b * starRingEnd ℂ a)
  have hturnLow : -1 < Complex.arg (b * starRingEnd ℂ a) / Real.pi := by
    rwa [lt_div_iff₀ Real.pi_pos, neg_one_mul]
  have hturnHigh : Complex.arg (b * starRingEnd ℂ a) / Real.pi ≤ 1 := div_le_one_of_le₀ hhigh Real.pi_pos.le
  have hhalf : 0 < fs / 2 := half_pos hfs
  rw [instFreq_eq, ← neg_one_mul]
  exact ⟨mul_lt_mul_of_pos_right hturnLow hhalf, mul_le_of_le_one_left hhalf.le hturnHigh⟩

/-- On the negative real axis `arg` is `π` and never `−π` (R170). -/
theorem instFreq_of_neg {r : ℝ} (fs : ℝ) {a b : ℂ} (hr : r < 0) (hab : b * starRingEnd ℂ a = r) :
    instFreq fs a b = fs / 2 := by
  rw [instFreq_eq, hab, Complex.arg_ofReal_of_neg hr, div_self Real.pi_ne_zero, one_mul]

/-- A common factor enters the product as its squared magnitude, a positive real (R172). -/
theorem instFreq_mul_left (fs : ℝ) {c : ℂ} (hc : c ≠ 0) (a b : ℂ) :
    instFreq fs (c * a) (c * b) = instFreq fs a b := by
  have hproduct : c * b * starRingEnd ℂ (c * a) = (Complex.normSq c : ℝ) * (b * starRingEnd ℂ a) := by
    rw [← Complex.mul_conj, map_mul]
    ring
  rw [instFreq, hproduct, Complex.arg_real_mul _ (Complex.normSq_pos.mpr hc), instFreq]

/-- Turning the two samples by the phases `α` and `β` turns their product by `β − α`. -/
theorem mul_conj_rotate (a b : ℂ) (α β : ℝ) :
    b * Complex.exp (Complex.I * β) * starRingEnd ℂ (a * Complex.exp (Complex.I * α)) =
      b * starRingEnd ℂ a * Complex.exp ((β - α : ℝ) * Complex.I) := by
  have hphase : ((β - α : ℝ) : ℂ) * Complex.I = Complex.I * β + -Complex.I * α := by
    push_cast
    ring
  rw [map_mul, ← Complex.exp_conj, map_mul, Complex.conj_I, Complex.conj_ofReal, hphase, Complex.exp_add]
  ring

/-- A rotation by `θ` adds `θ` to the argument, modulo whole turns. -/
theorem arg_mul_exp_eq_add {z : ℂ} (hz : z ≠ 0) (θ : ℝ) :
    ∃ k : ℤ, Complex.arg (z * Complex.exp (θ * Complex.I)) = Complex.arg z + θ + 2 * Real.pi * k := by
  have hangle : (Complex.arg (z * Complex.exp (θ * Complex.I)) : Real.Angle) = (Complex.arg z + θ : ℝ) := by
    rw [Complex.arg_mul_coe_angle hz (Complex.exp_ne_zero _), Complex.arg_exp_mul_I, Real.Angle.coe_toIocMod,
      Real.Angle.coe_add]
  obtain ⟨k, hk⟩ := Real.Angle.angle_eq_iff_two_pi_dvd_sub.mp hangle
  exact ⟨k, by linarith⟩

/-- A phase step of `2πΔ/FS` between two samples adds `Δ`, and a whole turn of the argument is one `FS` (R172). -/
theorem instFreq_rotate {fs Δ α β : ℝ} {a b : ℂ} (hfs : 0 < fs) (ha : a ≠ 0) (hb : b ≠ 0)
    (hstep : β - α = 2 * Real.pi * Δ / fs) :
    ∃ k : ℤ, instFreq fs (a * Complex.exp (Complex.I * α)) (b * Complex.exp (Complex.I * β)) =
      instFreq fs a b + Δ + k * fs := by
  obtain ⟨k, hk⟩ := arg_mul_exp_eq_add (mul_ne_zero hb ((map_ne_zero (starRingEnd ℂ)).mpr ha)) (β - α)
  refine ⟨k, ?_⟩
  rw [instFreq, mul_conj_rotate, hk, hstep, instFreq]
  have hpi := Real.pi_ne_zero
  field_simp

end Discriminator

/-- Settles O45: the range is that of `arg`, half-open at `−π`. -/
theorem discriminatorRange : Obligations.DiscriminatorRange := by
  intro fs x hfs
  refine ⟨length_discriminate fs x, fun f hf => ?_, fun a b ⟨r, hr, hab⟩ => instFreq_of_neg fs hr hab⟩
  obtain ⟨a, b, rfl⟩ := exists_of_mem_discriminate hf
  exact instFreq_mem_Ioc hfs a b

/-- Settles O46: pair by pair, a common factor cancels and an offset is one phase step. -/
theorem discriminatorIgnoresAmplitude : Obligations.DiscriminatorIgnoresAmplitude := by
  constructor
  · intro fs c x hc
    rw [discriminate, ← List.map_tail, List.zipWith_map]
    simp only [instFreq_mul_left fs hc, discriminate]
  · intro fs Δ x hfs hx i hi
    rw [getD_discriminate fs (by rwa [List.length_mapIdx]), getD_discriminate fs hi, List.getElem_mapIdx,
      List.getElem_mapIdx]
    refine instFreq_rotate hfs (hx _ (List.getElem_mem _)) (hx _ (List.getElem_mem _)) ?_
    push_cast
    ring

end Sys2Proof.Machine

/-! SUPPORT. Timing recovery (family 43_timing_recovery.md): the reduction of the symbol offset (R183), the discrete
Fourier transform, its inverse and the images of the padded spectrum (R184, R185), and the indices of the sampling
grid (R186). -/

namespace Sys2Proof.Machine

/-! ### The symbol offset (R183) -/

section Offset

variable {m : ℝ}

theorem rmod_nonneg (hm : 0 < m) (x : ℝ) : 0 ≤ rmod x m := by
  rw [rmod, mul_comm]
  exact Int.sub_floor_div_mul_nonneg x hm

theorem rmod_lt (hm : 0 < m) (x : ℝ) : rmod x m < m := by
  rw [rmod, mul_comm]
  exact Int.sub_floor_div_mul_lt x hm

theorem rmod_eq_add_int_mul (x m : ℝ) : ∃ k : ℤ, rmod x m = x + k * m := by
  refine ⟨-⌊x / m⌋, ?_⟩
  rw [rmod]
  push_cast
  ring

end Offset

/-- Settles O49: the offset is a remainder modulo one period. -/
theorem symbolOffsetIsInOnePeriod : Obligations.SymbolOffsetIsInOnePeriod := fun _ _ ht =>
  ⟨rmod_nonneg ht _, rmod_lt ht _, rmod_eq_add_int_mul _ _⟩

/-! ### The interpolator (R184, R185) -/

section Transform

/-- The primitive `m`-th root of unity `exp(2πj/m)`, whose powers are the tones of R184. -/
noncomputable def unitRoot (m : Nat) : ℂ := Complex.exp (2 * Real.pi * Complex.I / m)

theorem unitRoot_isPrimitiveRoot {m : Nat} (hm : m ≠ 0) : IsPrimitiveRoot (unitRoot m) m :=
  Complex.isPrimitiveRoot_exp m hm

theorem unitRoot_pow (m n : Nat) : unitRoot m ^ n = Complex.exp (n * (2 * Real.pi * Complex.I / m)) :=
  (Complex.exp_nat_mul _ n).symm

/-- At the sample positions `8·i` a tone of the padded spectrum is a tone of the transform of `f`. -/
theorem exp_interp_eq (m k i : Nat) :
    Complex.exp (Complex.I * 2 * Real.pi * k * (8 * i : Nat) / ((Config.interp * m : Nat) : ℂ)) =
      unitRoot m ^ (k * i) := by
  rw [unitRoot_pow]
  refine congrArg Complex.exp ?_
  rw [Config.interp]
  push_cast
  rw [show Complex.I * 2 * Real.pi * k * (8 * i) = 8 * (Complex.I * 2 * Real.pi * k * i) by ring,
    mul_div_mul_left _ _ (by norm_num)]
  ring

theorem dft_eq_sum_unitRoot (f : List ℝ) (k : Nat) :
    dft f k = ∑ n ∈ Finset.range f.length, (f.getD n 0 : ℂ) * (unitRoot f.length ^ (k * n))⁻¹ := by
  refine Finset.sum_congr rfl fun n _ => ?_
  rw [unitRoot_pow, ← Complex.exp_neg]
  push_cast
  ring_nf

/-- Orthogonality of the tones: the powers of a root of unity other than 1 sum to 0. -/
theorem sum_unitRoot_eq_ite {m n i : Nat} (hn : n < m) (hi : i < m) :
    ∑ k ∈ Finset.range m, (unitRoot m ^ (k * n))⁻¹ * unitRoot m ^ (k * i) = if n = i then (m : ℂ) else 0 := by
  have hroot := unitRoot_isPrimitiveRoot (Nat.ne_zero_of_lt hn)
  have hne : unitRoot m ≠ 0 := Complex.exp_ne_zero _
  have hratio : ∀ k, (unitRoot m ^ (k * n))⁻¹ * unitRoot m ^ (k * i) = (unitRoot m ^ i / unitRoot m ^ n) ^ k :=
    fun k => by rw [div_pow, ← pow_mul, ← pow_mul, mul_comm i, mul_comm n, div_eq_inv_mul]
  simp only [hratio]
  split
  next heq => simp [heq, hne]
  next hdiff =>
    have hone : unitRoot m ^ i / unitRoot m ^ n ≠ 1 := fun h =>
      hdiff (hroot.pow_inj hn hi (div_eq_one_iff_eq (pow_ne_zero _ hne) |>.mp h).symm)
    have hpow : (unitRoot m ^ i / unitRoot m ^ n) ^ m = 1 := by
      rw [div_pow, pow_right_comm, pow_right_comm _ n, hroot.pow_eq_one, one_pow, one_pow, div_one]
    rw [geom_sum_eq hone, hpow, sub_self, zero_div]

/-- The inverse transform. -/
theorem sum_dft_mul_unitRoot {f : List ℝ} {i : Nat} (hi : i < f.length) :
    ∑ k ∈ Finset.range f.length, dft f k * unitRoot f.length ^ (k * i) = f.length * (f.getD i 0 : ℂ) := by
  calc ∑ k ∈ Finset.range f.length, dft f k * unitRoot f.length ^ (k * i)
    _ = ∑ n ∈ Finset.range f.length, (f.getD n 0 : ℂ) *
          ∑ k ∈ Finset.range f.length, (unitRoot f.length ^ (k * n))⁻¹ * unitRoot f.length ^ (k * i) := by
        simp only [dft_eq_sum_unitRoot, Finset.sum_mul, Finset.mul_sum, mul_assoc]
        exact Finset.sum_comm
    _ = ∑ n ∈ Finset.range f.length, (f.getD n 0 : ℂ) * if n = i then (f.length : ℂ) else 0 :=
        Finset.sum_congr rfl fun n hn => by rw [sum_unitRoot_eq_ite (Finset.mem_range.mp hn) hi]
    _ = f.length * (f.getD i 0 : ℂ) := by
        simp only [mul_ite, mul_zero, Finset.sum_ite_eq', Finset.mem_range, hi, if_true]
        exact mul_comm _ _

/-- The constant bin; the next four lemmas are the other kinds of bin of R184. -/
theorem paddedSpectrum_zero (f : List ℝ) : paddedSpectrum f 0 = dft f 0 := by
  rw [paddedSpectrum, if_pos rfl]

theorem paddedSpectrum_low {f : List ℝ} {k : Nat} (hpos : 0 < k) (hlow : k ≤ (f.length - 1) / 2) :
    paddedSpectrum f k = dft f k := by
  rw [paddedSpectrum, if_neg hpos.ne', if_pos hlow]

theorem paddedSpectrum_high {f : List ℝ} {r : Nat} (hr : r < f.length) (hhigh : f.length - r ≤ (f.length - 1) / 2) :
    paddedSpectrum f (7 * f.length + r) = dft f r := by
  have hbins : Config.interp * f.length = 8 * f.length := rfl
  rw [paddedSpectrum, if_neg (by omega), if_neg (by omega), if_pos (by omega)]
  congr 1
  omega

theorem paddedSpectrum_nyquist {f : List ℝ} {k : Nat} (hpos : 0 < f.length) (heven : f.length % 2 = 0)
    (hk : k = f.length / 2 ∨ k = 8 * f.length - f.length / 2) : paddedSpectrum f k = dft f (f.length / 2) / 2 := by
  have hbins : Config.interp * f.length = 8 * f.length := rfl
  rw [paddedSpectrum, if_neg (by omega), if_neg (by omega), if_neg (by omega), if_pos (by omega)]

theorem paddedSpectrum_padding {f : List ℝ} {k : Nat} (hlow : f.length < 2 * k) (hhigh : 2 * k < 15 * f.length) :
    paddedSpectrum f k = 0 := by
  have hbins : Config.interp * f.length = 8 * f.length := rfl
  rw [paddedSpectrum, if_neg (by omega), if_neg (by omega), if_neg (by omega), if_neg (by omega)]

/-- The first and the last `M` bins together hold the spectrum of `f`; an even length's middle bin is in both, by
halves. -/
theorem paddedSpectrum_low_add_high {f : List ℝ} {r : Nat} (hr : r < f.length) :
    paddedSpectrum f r + paddedSpectrum f (7 * f.length + r) = dft f r := by
  obtain rfl | ⟨hpos, hlow⟩ | ⟨heven, rfl⟩ | hhigh :
      r = 0 ∨ (0 < r ∧ r ≤ (f.length - 1) / 2) ∨ (f.length % 2 = 0 ∧ r = f.length / 2) ∨
        f.length - r ≤ (f.length - 1) / 2 := by omega
  · rw [paddedSpectrum_zero, paddedSpectrum_padding (by omega) (by omega), add_zero]
  · rw [paddedSpectrum_low hpos hlow, paddedSpectrum_padding (by omega) (by omega), add_zero]
  · rw [paddedSpectrum_nyquist (by omega) heven (.inl rfl), paddedSpectrum_nyquist (by omega) heven (.inr (by omega)),
      add_halves]
  · rw [paddedSpectrum_padding (by omega) (by omega), paddedSpectrum_high hr hhigh, zero_add]

/-- At the sample positions the tones of the last `M` bins are those of the first `M`, so the sum folds onto the
spectrum of `f`. -/
theorem sum_paddedSpectrum_mul_unitRoot (f : List ℝ) (i : Nat) :
    ∑ k ∈ Finset.range (Config.interp * f.length), paddedSpectrum f k * unitRoot f.length ^ (k * i) =
      ∑ r ∈ Finset.range f.length, dft f r * unitRoot f.length ^ (r * i) := by
  rcases Nat.eq_zero_or_pos f.length with hzero | hpos
  · simp [hzero]
  have hturn : ∀ r, unitRoot f.length ^ ((7 * f.length + r) * i) = unitRoot f.length ^ (r * i) := fun r => by
    rw [add_mul, pow_add, mul_comm 7, mul_assoc, pow_mul, (unitRoot_isPrimitiveRoot hpos.ne').pow_eq_one, one_pow,
      one_mul]
  have hmiddle : ∑ x ∈ Finset.range (6 * f.length),
      paddedSpectrum f (f.length + x) * unitRoot f.length ^ ((f.length + x) * i) = 0 :=
    Finset.sum_eq_zero fun x hx => by
      have hx := Finset.mem_range.mp hx
      rw [paddedSpectrum_padding (by omega) (by omega), zero_mul]
  have hsplit : Config.interp * f.length = f.length + 6 * f.length + f.length := by rw [Config.interp]; ring
  have hlast : f.length + 6 * f.length = 7 * f.length := by ring
  rw [hsplit, Finset.sum_range_add, Finset.sum_range_add, hmiddle, add_zero, hlast, ← Finset.sum_add_distrib]
  refine Finset.sum_congr rfl fun r hr => ?_
  rw [hturn, ← add_mul, paddedSpectrum_low_add_high (Finset.mem_range.mp hr)]

end Transform

/-- Settles O50: the padded spectrum folds onto the spectrum of `f`, whose inverse transform is `f`. -/
theorem interpolatorPassesThroughTheSamples : Obligations.InterpolatorPassesThroughTheSamples := by
  intro f i hi
  have hlength : (f.length : ℂ) ≠ 0 := Nat.cast_ne_zero.mpr (Nat.ne_zero_of_lt hi)
  simp only [interpolated, exp_interp_eq]
  rw [sum_paddedSpectrum_mul_unitRoot, sum_dft_mul_unitRoot hi, ← mul_assoc, one_div_mul_cancel hlength, one_mul,
    Complex.ofReal_re]

/-! ### The sampling grid (R186) -/

section Grid

variable {n0 t : ℝ}

theorem gridIndex_exactReals (n0 t : ℝ) (k : Nat) : gridIndex .exactReals n0 t k = ⌊8 * (n0 + k * t) + 1 / 2⌋ := rfl

/-- A symbol lasts two samples or more, so the index moves by at least sixteen. -/
theorem gridIndex_add_sixteen_le (ht : 2 ≤ t) (k : Nat) :
    gridIndex .exactReals n0 t k + 16 ≤ gridIndex .exactReals n0 t (k + 1) := by
  rw [gridIndex_exactReals, gridIndex_exactReals, ← Int.floor_add_ofNat]
  refine Int.floor_le_floor ?_
  push_cast
  linarith

theorem gridIndex_strictMono (ht : 2 ≤ t) : StrictMono (gridIndex .exactReals n0 t) :=
  strictMono_nat_of_lt_succ fun k => by
    have := gridIndex_add_sixteen_le (n0 := n0) ht k
    omega

theorem le_gridIndex (h0 : 0 ≤ n0) (ht : 2 ≤ t) (k : Nat) : (k : ℤ) ≤ gridIndex .exactReals n0 t k := by
  induction k with
  | zero =>
    rw [gridIndex_exactReals, Nat.cast_zero, Nat.cast_zero, zero_mul, add_zero]
    exact Int.floor_nonneg.mpr (by linarith)
  | succ k ih =>
    have := gridIndex_add_sixteen_le (n0 := n0) ht k
    push_cast
    omega

/-- The numbers below `K` are the ones a rising condition selects from any range that reaches `K`. -/
theorem filter_range_eq_range {q : Nat → Bool} {K l : Nat} (hK : K ≤ l) (hq : ∀ k, q k = true ↔ k < K) :
    (List.range l).filter q = List.range K := by
  obtain ⟨d, rfl⟩ := Nat.exists_eq_add_of_le hK
  have hbelow : (List.range K).filter q = List.range K :=
    List.filter_eq_self.mpr fun k hk => (hq k).mpr (List.mem_range.mp hk)
  have habove : ((List.range d).map (K + ·)).filter q = [] := by
    refine List.filter_eq_nil_iff.mpr fun k hk => ?_
    obtain ⟨x, -, rfl⟩ := List.mem_map.mp hk
    rw [hq]
    omega
  rw [List.range_add, List.filter_append, hbelow, habove, List.append_nil]

/-- The grid has a first index outside `y`. -/
theorem exists_grid_end (h0 : 0 ≤ n0) (ht : 2 ≤ t) (l : Nat) :
    ∃ K ≤ l, ∀ k, gridIndex .exactReals n0 t k < l ↔ k < K := by
  have hout : ∃ k, (l : ℤ) ≤ gridIndex .exactReals n0 t k := ⟨l, le_gridIndex h0 ht l⟩
  refine ⟨Nat.find hout, Nat.find_min' hout (le_gridIndex h0 ht l), fun k => ⟨fun hin => ?_, fun hlt => ?_⟩⟩
  · by_contra hge
    have hmono := (gridIndex_strictMono (n0 := n0) ht).monotone (not_lt.mp hge)
    exact absurd hin (not_lt.mpr ((Nat.find_spec hout).trans hmono))
  · exact not_le.mp (Nat.find_min hout hlt)

theorem gridIndices_eq_map_range {l K : Nat} (hK : K ≤ l) (hend : ∀ k, gridIndex .exactReals n0 t k < l ↔ k < K) :
    gridIndices .exactReals n0 t l = (List.range K).map fun k => (gridIndex .exactReals n0 t k).toNat := by
  have hfilter := filter_range_eq_range (q := (fun q : ℤ => decide (q < l)) ∘ gridIndex .exactReals n0 t) hK
    fun k => by rw [Function.comp_apply, decide_eq_true_iff, hend]
  rw [gridIndices, List.filter_map, List.map_map]
  exact congrArg _ hfilter

end Grid

/-- Settles O51: the indices rise with `k`, so those inside `y` are the ones below the first outside. -/
theorem samplingGrid : Obligations.SamplingGrid := by
  intro n0 t l h0 ht
  obtain ⟨K, hK, hend⟩ := exists_grid_end h0 ht l
  have hnat : ∀ k, ((gridIndex .exactReals n0 t k).toNat : ℤ) = gridIndex .exactReals n0 t k := fun k =>
    Int.toNat_of_nonneg (k.cast_nonneg.trans (le_gridIndex h0 ht k))
  rw [gridIndices_eq_map_range hK hend]
  refine ⟨List.pairwise_map.mpr (List.pairwise_lt_range.imp fun {a b} hab => ?_), K, by simp, fun k hk => ?_, ?_⟩
  · have := gridIndex_strictMono (n0 := n0) ht hab
    have := hnat a
    have := hnat b
    omega
  · rw [List.getD_eq_getElem _ _ (by simpa using hk), List.getElem_map, List.getElem_range, hnat,
      ← gridIndex_exactReals]
    exact ⟨rfl, Int.le_sub_one_of_lt ((hend k).mpr hk)⟩
  · rw [← gridIndex_exactReals]
    have := mt (hend K).mp (lt_irrefl K)
    omega

/-! ### Leading-bit compensation (R189) -/

/-- Settles O53: a list starts with a string of eight bits when its first eight are that string. -/
theorem leadingBitCompensation : Obligations.LeadingBitCompensation := by
  intro b
  constructor
  · rintro c rfl
    rfl
  · intro hb
    rw [compensate, if_neg]
    intro htake
    exact hb (b.drop 8) (by rw [← htake, List.take_append_drop])

end Sys2Proof.Machine

/-! SUPPORT. The frame decoder (family 44_frame_decoder.md): the network-code map and its inversion, the checks of a
frame by their offsets, the value decoders, and the records of the two frame instructions. -/

namespace Sys2Proof

/-! ### The network-code map (R213, R214) -/

/-- Settles O16: a quotient shrinks as its divisor grows, and of two IDs the smaller has the larger code. -/
theorem networkCodeIsInjective : Obligations.NetworkCodeIsInjective := by
  refine ⟨fun w => rfl, fun w hw => ⟨?_, Nat.div_le_self _ _⟩, fun w v hw hv h => ?_⟩
  · have hlast : networkCode 99 = 500 := rfl
    exact hlast ▸ Nat.div_le_div_left (Nat.succ_le_of_lt hw) w.succ_pos
  · rcases lt_trichotomy w v with hlt | heq | hgt
    · exact absurd h (networkCode_lt hlt hv).ne'
    · exact heq
    · exact absurd h (networkCode_lt hgt hw).ne

/-- Settles O17: what the search finds is in the ID space and has the code, and every ID is found from its code. -/
theorem idInversionIsExact : Obligations.IdInversionIsExact := by
  refine fun a w => ⟨fun h => ?_, fun ⟨hw, hcode⟩ => hcode ▸ invertCode_networkCode hw⟩
  obtain ⟨hcode, hmem, -⟩ := List.find?_range_eq_some.mp h
  exact ⟨List.mem_range.mp hmem, eq_of_beq hcode⟩

/-! ### Bits behind a frame (R223) -/

/-- The frame of an instruction decodes to it with one bit behind it at most (R223). -/
theorem decodeFrame_encode_append {i : Instr} {b : Bits} (hi : i.wellFormed = true) (hb : encode i = .frame b)
    (e : Bits) : decodeFrame (b ++ e) = if e.length > 1 then .error .trailingGarbage else .ok i := by
  cases i with
  | nop _ | txs _ | txp _ _ _ => cases hb
  | frameShort wid cmd =>
    obtain rfl : frameShortBits wid.toNat cmd = b := Encoded.frame.inj hb
    rw [decodeFrame_frameShortBits ((validWid_iff wid).mp hi), BitVec.ofNat_toNat, BitVec.setWidth_eq]
  | frameProp wid tg pid x =>
    obtain rfl : framePropBits wid.toNat tg pid x = b := Encoded.frame.inj hb
    rw [decodeFrame_framePropBits ((validWid_iff wid).mp hi), BitVec.ofNat_toNat, BitVec.setWidth_eq]

/-- Settles O13: one bit is not more than one. -/
theorem oneExtraBitIsIgnored : Obligations.OneExtraBitIsIgnored := fun _ _ hi hb =>
  ⟨fun e => (decodeFrame_encode_append hi hb [e]).trans (if_neg (lt_irrefl 1)),
    fun e he => (decodeFrame_encode_append hi hb e).trans (if_pos he)⟩

/-! ### The checks of a frame, by their offsets (R210 to R223, R319) -/

/-- The field of `n` bits at offset `a` of a frame (R210). -/
def fieldAt (b : Bits) (a n : Nat) : Bits := (b.drop a).take n

/-- A check before a computation is a check before all that follows it. -/
theorem ite_error_bind {α β : Type} {c : Prop} [Decidable c] (code : BurstFail) (x : Except BurstFail α)
    (f : α → Except BurstFail β) :
    (if c then .error code else x).bind f = if c then .error code else x.bind f := by
  split <;> rfl

/-- Of two lengths asked for in turn with one answer, the longer decides. -/
theorem ite_lt_ite_lt {β : Type} {l m n : Nat} (hmn : m ≤ n) (e x : β) :
    (if l < m then e else if l < n then e else x) = if l < n then e else x := by
  by_cases h : l < m
  · rw [if_pos h, if_pos (h.trans_le hmn)]
  · rw [if_neg h]

section Fields

variable {b : Bits} {a n : Nat}

/-- A field is taken where the frame reaches its end (R210). -/
theorem takeField_drop_bind {α : Type} [NeZero n] (f : Bits × Bits → Except BurstFail α) :
    (takeField n (b.drop a)).bind f =
      if b.length < a + n then .error .frameTruncated else f (fieldAt b a n, b.drop (a + n)) := by
  rw [fieldAt, ← List.drop_drop]
  have hpos : 0 < n := NeZero.pos n
  by_cases h : b.length < a + n
  · have hshort : (b.drop a).length < n := by rw [List.length_drop]; omega
    rw [takeField_short hshort, if_pos h, bind_error]
  · have hlong : n ≤ (b.drop a).length := by rw [List.length_drop]; omega
    rw [takeField_ok hlong, if_neg h, bind_ok]

/-- The field of one bit. -/
theorem fieldAt_one (h : a < b.length) : fieldAt b a 1 = [b.getD a false] := by
  rw [fieldAt, List.drop_eq_getElem_cons h, List.getD_eq_getElem b false h]
  rfl

/-- The last bit of a field. -/
theorem getLastD_fieldAt (h : a + (n + 1) ≤ b.length) :
    (fieldAt b a (n + 1)).getLastD false = b.getD (a + n) false := by
  have hlen : (fieldAt b a (n + 1)).length = n + 1 := by
    rw [fieldAt, List.length_take, List.length_drop]
    omega
  rw [List.getLastD_eq_getLast?, List.getLast?_eq_getElem?, hlen, List.getD_eq_getElem?_getD, fieldAt,
    Nat.add_sub_cancel, List.getElem?_take_of_lt n.lt_succ_self, List.getElem?_drop]

/-- The last byte of a payload, at offset `a`, and the end of the frame behind it (R319, steps 12 to 15). -/
theorem lastByte_bind (b : Bits) (a : Nat) (g : Bits → Instr) :
    ((takeField 8 (b.drop a)).bind fun (c, e) => (checkEnd (c.getLastD false) e).bind fun _ => .ok (g c)) =
      if b.length < a + 9 then .error .frameTruncated
      else if b.getD (a + 8) false ≠ b.getD (a + 7) false then .error .trailingBitMismatch
      else if a + 10 < b.length then .error .trailingGarbage
      else .ok (g (fieldAt b a 8)) := by
  simp only [takeField_drop_bind, checkEnd, ite_error_bind]
  rw [ite_lt_ite_lt (Nat.le_succ (a + 8))]
  by_cases htrunc : b.length < a + 9
  · rw [if_pos htrunc, if_pos htrunc]
  have hextra : (b.drop (a + 8 + 1)).length > 1 ↔ a + 10 < b.length := by rw [List.length_drop]; omega
  rw [if_neg htrunc, if_neg htrunc, fieldAt_one (by omega), getLastD_fieldAt (by omega)]
  simp only [ne_eq, List.cons.injEq, and_true, hextra, bind_ok]

end Fields

/-- The checks of the header (R319, steps 5 to 9). -/
theorem takeHeader_bind {α : Type} (b : Bits) (f : Nat × Bits → Except BurstFail α) :
    (takeHeader b).bind f =
      if b.length < 32 then .error .frameTruncated
      else if fieldAt b 0 32 ≠ preamble then .error .frameSyncMismatch
      else if b.length < 64 then .error .frameTruncated
      else if val (fieldAt b 32 16) ≠ val (fieldAt b 48 16) then .error .wirelessIdMismatch
      else (invertCode (val (fieldAt b 32 16))).elim (.error .unknownWirelessId) fun wid => f (wid, b.drop 64) := by
  have hstart : takeField 32 b = takeField 32 (b.drop 0) := rfl
  simp only [takeHeader, hstart, takeField_drop_bind, Nat.reduceAdd, ite_error_bind]
  rw [ite_lt_ite_lt (by decide : 48 ≤ 64)]
  cases invertCode (val (fieldAt b 32 16)) <;> rfl

/-- The checks of a short command's payload, behind the type byte (R319, steps 12 to 15). -/
theorem takeShort_drop (wid : Nat) (b : Bits) :
    takeShort wid (b.drop 72) =
      if b.length < 81 then .error .frameTruncated
      else if b.getD 80 false ≠ b.getD 79 false then .error .trailingBitMismatch
      else if 82 < b.length then .error .trailingGarbage
      else .ok (.frameShort (BitVec.ofNat 8 wid) (byteOf (fieldAt b 72 8))) := by
  exact lastByte_bind b 72 fun c => .frameShort (BitVec.ofNat 8 wid) (byteOf c)

/-- The checks of a property command's payload, behind the type byte (R319, steps 12 to 15). -/
theorem takeProp_drop (wid : Nat) (b : Bits) :
    takeProp wid (b.drop 72) =
      if b.length < 97 then .error .frameTruncated
      else if b.getD 96 false ≠ b.getD 95 false then .error .trailingBitMismatch
      else if 98 < b.length then .error .trailingGarbage
      else .ok (.frameProp (BitVec.ofNat 8 wid) (byteOf (fieldAt b 72 8)) (byteOf (fieldAt b 80 8))
        (byteOf (fieldAt b 88 8))) := by
  have hlast := lastByte_bind b 88 fun x =>
    .frameProp (BitVec.ofNat 8 wid) (byteOf (fieldAt b 72 8)) (byteOf (fieldAt b 80 8)) (byteOf x)
  rw [takeProp, takeField_drop_bind]
  dsimp only
  rw [takeField_drop_bind]
  dsimp only
  rw [hlast, ite_lt_ite_lt (by decide), ite_lt_ite_lt (by decide)]

/-- Settles O15: the header's checks, the type byte, and the checks of the payload the type byte selects. -/
theorem frameChecksInOrder : Obligations.FrameChecksInOrder := by
  intro b fld bit wid byte
  have hwid : invertCode (val (fieldAt b 32 16)) = wid := rfl
  rw [decodeFrame, takeHeader_bind, hwid]
  cases wid with
  | none => rfl
  | some w =>
    simp only [Option.elim_some, takeField_drop_bind, Nat.reduceAdd, takeShort_drop, takeProp_drop, reduceCtorEq,
      if_false]
    rfl

end Sys2Proof

namespace Sys2Proof.Machine

/-! ### The value decoders (R221, R224 to R233) -/

/-- Two integers side by side, as one integer. -/
theorem ofInt_append_ofInt (m n : Nat) (x y : ℤ) :
    BitVec.ofInt m x ++ BitVec.ofInt n y = BitVec.ofInt (m + n) (x * 2 ^ n + y % 2 ^ n) := by
  refine BitVec.eq_of_toNat_eq (Int.ofNat_inj.mp ?_)
  have hm : (0 : ℤ) < 2 ^ m := by positivity
  have hn : (0 : ℤ) < 2 ^ n := by positivity
  have hsplit : x * 2 ^ n + y % 2 ^ n = x % 2 ^ m * 2 ^ n + y % 2 ^ n + 2 ^ (m + n) * (x / 2 ^ m) := by
    rw [pow_add]
    linear_combination (-2 ^ n) * Int.emod_add_mul_ediv x (2 ^ m)
  have hy : 0 ≤ y % 2 ^ n := Int.emod_nonneg y hn.ne'
  have hylt : y % 2 ^ n < 2 ^ n := Int.emod_lt_of_pos y hn
  have hx : 0 ≤ x % 2 ^ m := Int.emod_nonneg x hm.ne'
  have hxlt : x % 2 ^ m + 1 ≤ 2 ^ m := Int.emod_lt_of_pos x hm
  have hnonneg : 0 ≤ x % 2 ^ m * 2 ^ n + y % 2 ^ n := by positivity
  have hlt : x % 2 ^ m * 2 ^ n + y % 2 ^ n < 2 ^ (m + n) :=
    calc x % 2 ^ m * 2 ^ n + y % 2 ^ n
      _ < (x % 2 ^ m + 1) * 2 ^ n := by linarith
      _ ≤ 2 ^ (m + n) := pow_add (2 : ℤ) m n ▸ Int.mul_le_mul_of_nonneg_right hxlt hn.le
  rw [BitVec.toNat_append, ← Nat.shiftLeft_add_eq_or_of_lt (BitVec.isLt _), Nat.shiftLeft_eq]
  simp only [BitVec.toNat_ofInt]
  push_cast
  rw [hsplit, Int.add_mul_emod_self_left, Int.emod_eq_of_lt hnonneg hlt, Int.toNat_of_nonneg hnonneg,
    Int.toNat_of_nonneg hx, Int.toNat_of_nonneg hy]

/-- The word of a stops value as a number: its four bytes, the third of them modulo 256 (R231, R233). -/
theorem stopsWord_eq (x : Byte) :
    stopsWord x = BitVec.ofInt 32 (x.toNat * 2 ^ 24 + stopsFrac x * 2 ^ 16 + stopsBase x % 256 * 2 ^ 8) := by
  have hx : BitVec.ofInt 8 x.toNat = x := by rw [BitVec.ofInt_natCast, BitVec.ofNat_toNat, BitVec.setWidth_eq]
  have hfrac : stopsFrac x % 2 ^ 8 = stopsFrac x := by rw [stopsFrac]; omega
  calc stopsWord x
    _ = BitVec.ofInt 8 x.toNat ++ BitVec.ofInt 8 (stopsFrac x) ++ BitVec.ofInt 8 (stopsBase x) ++ BitVec.ofInt 8 0 := by
        rw [hx]; rfl
    _ = BitVec.ofInt 32
          (((x.toNat * 2 ^ 8 + stopsFrac x % 2 ^ 8) * 2 ^ 8 + stopsBase x % 2 ^ 8) * 2 ^ 8 + 0 % 2 ^ 8) := by
        simp only [ofInt_append_ofInt]
    _ = BitVec.ofInt 32 (x.toNat * 2 ^ 24 + stopsFrac x * 2 ^ 16 + stopsBase x % 256 * 2 ^ 8) := by
        rw [hfrac]
        congr 1
        omega

/-- A Boolean is 0 or 1 (R228). -/
theorem decodeValue_boolean (x : Byte) :
    decodeValue (some .boolean) x = if x.toNat < 2 then some (x.zeroExtend 32) else none := by
  rw [decodeValue]
  by_cases h0 : x = 0
  · subst h0; rfl
  by_cases h1 : x = 1
  · subst h1; rfl
  have hlarge : ¬ x.toNat < 2 := by bv_omega
  rw [if_neg h0, if_neg h1, if_neg hlarge]

/-- A stops value is the OFF value 255 or a number of tenths below 100 (R231). -/
theorem decodeValue_stops (x : Byte) :
    decodeValue (some .stops) x =
      if x.toNat = 255 then some 1 else if 100 ≤ x.toNat then none
      else some (BitVec.ofInt 32 (x.toNat * 2 ^ 24 + stopsFrac x * 2 ^ 16 + stopsBase x % 256 * 2 ^ 8)) := by
  have hoff : x = 0xFF ↔ x.toNat = 255 := BitVec.toNat_inj.symm
  simp only [decodeValue, hoff, stopsWord_eq, ge_iff_le]

/-- Settles O44: the decoders that accept every byte and the codes by definition, the others by their lemmas. -/
theorem valueDecoders : Obligations.ValueDecoders := fun x _ _ =>
  ⟨rfl, rfl, rfl, rfl, rfl, rfl, rfl, rfl, rfl, rfl, rfl, decodeValue_boolean x, rfl, decodeValue_stops x⟩

/-! ### The records of the frame instructions (R216 to R221, R234) -/

/-- `PRIMARY`, bit by bit (R217). -/
theorem isPrimary_eq (cmd : Byte) : isPrimary cmd = (!cmd.getLsbD 7 && !cmd.getLsbD 6) := by
  revert cmd; decide

/-- The known targets: all units, and the groups A to E in a row (R219). -/
theorem unknownTarget_eq (tg : Byte) :
    unknownTarget tg = decide (tg ≠ 0x50 ∧ ¬(0x0A ≤ tg.toNat ∧ tg.toNat ≤ 0x0E)) := by
  revert tg; decide

/-- The message of the frame in the decoder becomes a success record, which has status 0 (R234). -/
theorem deliverMessage_of_inflight {s : State} {r : Reception} (h : s.inflight = some r) (m : Message) :
    deliverMessage m s = .next (s.deliver (recordOf 0 m r)) := by
  simp only [deliverMessage, h, messageRecord]

/-- Settles O8: the record is the one delivered, and `PRIMARY` is the only field spelled in another way. -/
theorem shortFrameBecomesARecord : Obligations.ShortFrameBecomesARecord := by
  intro s r wid cmd hdecoder
  rw [← isPrimary_eq]
  exact deliverMessage_of_inflight hdecoder _

/-- Settles O9: the record is the one delivered, and the class of the target is spelled by its bytes. -/
theorem propertyFrameBecomesARecord : Obligations.PropertyFrameBecomesARecord := by
  intro s r wid tg pid x hdecoder
  rw [← unknownTarget_eq]
  exact deliverMessage_of_inflight hdecoder _

end Sys2Proof.Machine

/-! SUPPORT. The frame encoder (family 45_frame_encoder.md): the transmit chain sample by sample (R255 to R259), the
peak check (R260), the quantiser under exact reals (R261), the transmit commands (R250), and the taking of a
frame (R262). -/

namespace Sys2Proof.Machine

/-! ### Symbols and upsampling (R255) -/

section Upsample

variable {α : Type}

theorem upsample_cons (x : α) (a : List α) : upsample (x :: a) = List.replicate 8 x ++ upsample a := rfl

theorem length_upsample (a : List α) : (upsample a).length = 8 * a.length := by
  induction a with
  | nil => rfl
  | cons x a ih =>
    rw [upsample_cons, List.length_append, List.length_replicate, ih, List.length_cons]
    omega

/-- Each value is held for 8 samples. -/
theorem getElem?_upsample (a : List α) (n : Nat) : (upsample a)[n]? = a[n / 8]? := by
  induction a generalizing n with
  | nil => rfl
  | cons x a ih =>
    rw [upsample_cons, List.getElem?_append, List.length_replicate]
    split
    next hn =>
      rw [List.getElem?_replicate_of_lt hn, Nat.div_eq_of_lt hn, List.getElem?_cons_zero]
    next hn =>
      obtain ⟨m, rfl⟩ : ∃ m, n = m + 8 := ⟨n - 8, by omega⟩
      rw [Nat.add_sub_cancel, ih, Nat.add_div_right m (by decide), List.getElem?_cons_succ]

theorem length_upsample_symbols (fr : Bits) : (upsample (symbols fr)).length = 8 * fr.length := by
  rw [length_upsample, symbols, List.length_map]

theorem getD_upsample_symbols {fr : Bits} {n : Nat} (hn : n < 8 * fr.length) :
    (upsample (symbols fr)).getD n 0 = if fr.getD (n / 8) false then -1 else 1 := by
  have hbit : n / 8 < fr.length := by omega
  simp [List.getD_eq_getElem?_getD, getElem?_upsample, symbols, hbit]

end Upsample

/-! ### Pulse shaping, phase and channel filter (R256 to R259) -/

section Chain

variable {α : Type} [AddCommMonoid α] [Module ℝ α] {k n : Nat}

/-- A convolution with `k` taps, sample by sample. -/
theorem getD_conv_ofFn (x : List α) (h : Fin k → ℝ) (hn : n < x.length + k - 1) :
    (conv x (List.ofFn h)).getD n 0 = ∑ t, h t • if (t : ℕ) ≤ n then x.getD (n - t) 0 else 0 := by
  have hlen : n < (conv x (List.ofFn h)).length := by rwa [length_conv, List.length_ofFn]
  rw [List.getD_eq_getElem _ _ hlen]
  simp [conv, Finset.sum_range]

variable {p : Params} {fr : Bits}

theorem length_shaped (p : Params) (fr : Bits) : (shaped p fr).length = 8 * fr.length + 16 := by
  rw [shaped, length_conv, length_upsample_symbols, List.length_ofFn]
  omega

theorem getD_shaped (hn : n < 8 * fr.length + 16) : (shaped p fr).getD n 0 =
    ∑ t, p.gaussTaps t * if (t : ℕ) ≤ n then (upsample (symbols fr)).getD (n - t) 0 else 0 := by
  refine getD_conv_ofFn _ p.gaussTaps ?_
  rw [length_upsample_symbols]
  omega

theorem length_phases (p : Params) (g : List ℝ) : (phases p g).length = g.length := by
  rw [phases, List.length_map, List.length_range]

/-- The first values of a list, summed by their indices. -/
theorem sum_take_eq_sum_range_getD (g : List ℝ) : ∀ {m : Nat}, m ≤ g.length →
    (g.take m).sum = ∑ i ∈ Finset.range m, g.getD i 0
  | 0, _ => rfl
  | m + 1, hm => by
    rw [List.sum_take_succ g m hm, Finset.sum_range_succ, sum_take_eq_sum_range_getD g (by omega),
      List.getD_eq_getElem _ _ hm]

theorem getD_phases {g : List ℝ} (hn : n < g.length) : (phases p g).getD n 0 =
    2 * Real.pi * (p.fDevTx / 2000000) * ∑ m ∈ Finset.range (n + 1), g.getD m 0 := by
  have hrate : ((Config.fsTx : ℕ) : ℝ) = 2000000 := by norm_num [Config.fsTx, Config.txUp, Config.symbolRate]
  rw [List.getD_eq_getElem _ _ (by rwa [length_phases]), ← sum_take_eq_sum_range_getD g hn]
  simp only [phases, List.getElem_map, List.getElem_range, hrate]

theorem length_envelope (ph : List ℝ) : (envelope ph).length = ph.length := by
  rw [envelope, List.length_map]

/-- The unit phasor of a phase, and zero outside the signal. -/
theorem getD_envelope (ph : List ℝ) (n : Nat) :
    (envelope ph).getD n 0 = if n < ph.length then Complex.exp (Complex.I * (ph.getD n 0 : ℝ)) else 0 := by
  split
  next hn => simp [envelope, List.getD_eq_getElem?_getD, hn]
  next hn => exact List.getD_eq_default _ _ (by rw [length_envelope]; omega)

theorem length_filtered (p : Params) (fr : Bits) : (filtered p fr).length = 8 * fr.length + 30 := by
  rw [filtered, length_conv, length_envelope, length_phases, length_shaped, List.length_ofFn]
  omega

theorem getD_filtered (hn : n < 8 * fr.length + 30) : (filtered p fr).getD n 0 =
    ∑ t, (p.lpfTaps t : ℂ) * if (t : ℕ) ≤ n ∧ n - t < 8 * fr.length + 16 then
      Complex.exp (Complex.I * ((phases p (shaped p fr)).getD (n - t) 0 : ℝ)) else 0 := by
  have hphases : (phases p (shaped p fr)).length = 8 * fr.length + 16 := by rw [length_phases, length_shaped]
  have hlen : n < (envelope (phases p (shaped p fr))).length + 15 - 1 := by
    rw [length_envelope, hphases]
    omega
  rw [filtered, getD_conv_ofFn _ p.lpfTaps hlen]
  simp only [getD_envelope, hphases, Complex.real_smul, ite_and]

end Chain

/-! ### The peak check (R260) -/

section Peak

variable {p : Params} {fr : Bits}

theorem peakOk_exactReals_iff (c : List ℂ) : peakOk .exactReals c ↔ ∀ w ∈ c, |w.re| ≤ 1 ∧ |w.im| ≤ 1 := by
  simp only [peakOk, Numerics.lt, not_lt]

/-- A summand of the channel filter is no longer than its tap, the envelope being constant (R258). -/
theorem norm_filtered_summand_le (l φ : ℝ) (c : Prop) [Decidable c] :
    ‖(l : ℂ) * if c then Complex.exp (Complex.I * φ) else 0‖ ≤ |l| := by
  rw [norm_mul, Complex.norm_real, Real.norm_eq_abs]
  refine mul_le_of_le_one_right (abs_nonneg l) ?_
  split
  · rw [mul_comm, Complex.norm_exp_ofReal_mul_I]
  · rw [norm_zero]; exact zero_le_one

theorem norm_le_of_mem_filtered {w : ℂ} (hw : w ∈ filtered p fr) : ‖w‖ ≤ ∑ t, |p.lpfTaps t| := by
  obtain ⟨n, hn, rfl⟩ := List.getElem_of_mem hw
  rw [← List.getD_eq_getElem _ 0 hn, getD_filtered (by rwa [← length_filtered p fr])]
  exact norm_sum_le_of_le _ fun t _ => norm_filtered_summand_le (p.lpfTaps t) _ _

end Peak

/-- Settles O55: a component is at most its sample's magnitude, and that at most the sum of the taps' magnitudes. -/
theorem peakCheckPassesWhenTapsSumToOne : Obligations.PeakCheckPassesWhenTapsSumToOne := by
  intro p fr hp htaps
  rw [hp, peakOk_exactReals_iff]
  intro w hw
  have hnorm : ‖w‖ ≤ 1 := (norm_le_of_mem_filtered hw).trans htaps
  exact ⟨(Complex.abs_re_le_norm w).trans hnorm, (Complex.abs_im_le_norm w).trans hnorm⟩

/-! ### The quantiser under exact reals (R261) -/

section Quantiser

/-- A sign-symmetric rounding has the magnitude of the rounded magnitude, and its operand's sign. -/
theorem abs_and_sign_of_symmetric_floor (x : ℝ) {half : ℝ} (hhalf : 0 ≤ half) {q : ℤ}
    (hq : q = if 0 ≤ x then ⌊x + half⌋ else -⌊-x + half⌋) :
    |(q : ℝ)| = ⌊|x| + half⌋ ∧ 0 ≤ (q : ℝ) * x := by
  have hfloor : (0 : ℝ) ≤ ⌊|x| + half⌋ := by
    exact_mod_cast Int.floor_nonneg.mpr (by positivity : 0 ≤ |x| + half)
  obtain hx | hx := le_or_gt 0 x
  · rw [if_pos hx, ← abs_of_nonneg hx] at hq
    exact ⟨by rw [hq, abs_of_nonneg hfloor], by rw [hq]; exact mul_nonneg hfloor hx⟩
  · rw [if_neg hx.not_ge, ← abs_of_neg hx] at hq
    refine ⟨by rw [hq, Int.cast_neg, abs_neg, abs_of_nonneg hfloor], ?_⟩
    rw [hq, Int.cast_neg]
    exact mul_nonneg_of_nonpos_of_nonpos (neg_nonpos.mpr hfloor) hx.le

/-- What a mode adds to the magnitude before its floor (R261). -/
noncomputable def roundingOffset : QuantMode → ℝ
  | .trunc => 0
  | .nearest => 1 / 2

theorem roundingOffset_nonneg : ∀ mode, 0 ≤ roundingOffset mode
  | .trunc => le_rfl
  | .nearest => one_half_pos.le

variable {p : Params} (v : ℝ)

theorem quantise_exactReals (hp : p.numerics = .exactReals) :
    quantise p v = if 0 ≤ 127 * v then ⌊127 * v + roundingOffset p.quantMode⌋
      else -⌊-(127 * v) + roundingOffset p.quantMode⌋ := by
  have hscale : ((Config.qScale : ℕ) : ℝ) = 127 := by norm_num [Config.qScale]
  cases hm : p.quantMode <;> simp only [quantise, roundingOffset, hp, hm, hscale, Numerics.quantFloor_exactReals]

/-- The quantised magnitude is the integer at or below the scaled magnitude and the mode's offset; the sign stays. -/
theorem quantise_bounds (hp : p.numerics = .exactReals) :
    |(quantise p v : ℝ)| ≤ |127 * v| + roundingOffset p.quantMode ∧
      |127 * v| + roundingOffset p.quantMode < |(quantise p v : ℝ)| + 1 ∧ 0 ≤ (quantise p v : ℝ) * v := by
  obtain ⟨habs, hsign⟩ :=
    abs_and_sign_of_symmetric_floor (127 * v) (roundingOffset_nonneg p.quantMode) (quantise_exactReals v hp)
  rw [habs]
  exact ⟨Int.floor_le _, Int.lt_floor_add_one _, by linarith⟩

end Quantiser

/-- Settles O56: the bounds of the rounding, at each mode's offset. -/
theorem quantiserRounds : Obligations.QuantiserRounds := by
  intro p v hp
  obtain ⟨hle, hlt, hsign⟩ := quantise_bounds v hp
  constructor
  · intro hm
    rw [hm, roundingOffset, add_zero] at hle hlt
    exact ⟨hle, hlt, hsign⟩
  · intro hm
    rw [hm, roundingOffset] at hle hlt
    exact ⟨hle, by linarith, hsign⟩

/-! ### A frame's components and its beats (R250, R260 to R263) -/

section Modulation

variable {p : Params} {fr : Bits} {v : List (ℤ × ℤ)}

/-- A frame is modulated when its peaks pass, to its quantised samples. -/
theorem modulation_eq_some_iff : modulation p fr = some v ↔
    peakOk p.numerics (filtered p fr) ∧ v = (filtered p fr).map fun w => (quantise p w.re, quantise p w.im) := by
  rw [modulation, Option.ite_none_right_eq_some, Option.some.injEq, eq_comm (a := v)]

theorem getElem?_beatsOf {n : Nat} {w : ℤ × ℤ} (h : v[n]? = some w) :
    (beatsOf v)[n]? = some ⟨BitVec.ofInt 8 w.1, BitVec.ofInt 8 w.2, decide (n + 1 = v.length)⟩ := by
  rw [beatsOf, List.getElem?_mapIdx, h]
  rfl

theorem length_beatsOf (v : List (ℤ × ℤ)) : (beatsOf v).length = v.length := by
  rw [beatsOf, List.length_mapIdx]

/-- A beat is two bytes (R66). -/
theorem length_flatMap_bytes (bs : List TxBeat) : (bs.flatMap TxBeat.bytes).length = 2 * bs.length := by
  induction bs with
  | nil => rfl
  | cons b bs ih =>
    rw [List.flatMap_cons, List.length_append, ih, List.length_cons, mul_add_one, add_comm, TxBeat.bytes]
    rfl

/-- A modulated frame gives a beat per filtered sample (R263). -/
theorem length_beatsOf_modulation (h : modulation p fr = some v) :
    (beatsOf v).length = 8 * fr.length + 30 ∧
      ((beatsOf v).flatMap TxBeat.bytes).length = 2 * (8 * fr.length + 30) := by
  obtain ⟨-, rfl⟩ := modulation_eq_some_iff.mp h
  rw [length_flatMap_bytes, length_beatsOf, List.length_map, length_filtered]
  exact ⟨rfl, rfl⟩

end Modulation

/-- Settles O54: each stage of the chain by its own lemma, the commands' counts from the lengths of their frames. -/
theorem beatCounts : Obligations.BeatCounts := by
  obtain ⟨hshort, hprop, -, -⟩ := frameLengths
  intro p
  refine ⟨fun _ _ => getD_upsample_symbols, fun _ _ => getD_shaped, fun _ _ => getD_phases, fun _ _ => getD_filtered,
    fun fr v hp => ?_, fun _ _ _ => getElem?_beatsOf,
    fun fr => ⟨length_upsample_symbols fr, length_shaped p fr, length_filtered p fr⟩, fun w c v h => ?_,
    fun w a b c v h => ?_⟩
  · rw [modulation_eq_some_iff, hp, peakOk_exactReals_iff]
  · simpa only [hshort] using length_beatsOf_modulation h
  · simpa only [hprop] using length_beatsOf_modulation h

/-! ### Taking beats (R262) -/

section Taking

variable {s : State} {b : TxBeat}

theorem takeBeat_of_nil (h : s.txOut = []) : s.takeBeat = s := by
  rw [State.takeBeat, h]

theorem takeBeat_of_cons {rest : List TxBeat} (h : s.txOut = b :: rest) :
    s.takeBeat =
      if b.last then { s with txOut := rest, sinkOut := s.sinkOut ++ [b], txPhase := .idle, txDone := true }
      else { s with txOut := rest, sinkOut := s.sinkOut ++ [b] } := by
  rw [State.takeBeat, h]
  rfl

/-- Beats of which only the final one is a frame's last leave in order, and that one ends the stream. -/
theorem takeMany_of_last {pre : List TxBeat} (h : s.txOut = pre ++ [b]) (hpre : ∀ c ∈ pre, c.last = false)
    (hb : b.last = true) :
    State.takeMany (pre.length + 1) s =
      { s with txOut := [], sinkOut := s.sinkOut ++ (pre ++ [b]), txPhase := .idle, txDone := true } := by
  induction pre generalizing s with
  | nil =>
    have htake := takeBeat_of_cons h
    rwa [if_pos hb] at htake
  | cons c pre ih =>
    have htake := takeBeat_of_cons h
    rw [hpre c List.mem_cons_self] at htake
    rw [List.length_cons, State.takeMany, htake, ih rfl fun d hd => hpre d (List.mem_cons_of_mem c hd)]
    simp

/-- A frame's beats are some that are not `LAST`, and a final one that is (R82). -/
theorem exists_beatsOf_eq_append {v : List (ℤ × ℤ)} (hv : v ≠ []) :
    ∃ pre b, beatsOf v = pre ++ [b] ∧ (∀ c ∈ pre, c.last = false) ∧ b.last = true := by
  have hne : beatsOf v ≠ [] := by rwa [← List.length_pos_iff, length_beatsOf, List.length_pos_iff]
  have hsplit := (List.dropLast_append_getLast hne).symm
  refine ⟨_, _, hsplit, fun c hc => ?_, (beatsOf_last hsplit).mpr rfl⟩
  obtain ⟨u, w, huw⟩ := List.append_of_mem hc
  rw [huw, List.append_assoc, List.cons_append] at hsplit
  exact Bool.eq_false_iff.mpr fun hlast => by simpa using (beatsOf_last hsplit).mp hlast

end Taking

/-- Settles O59: the frame splits into beats that are not `LAST` and a final one that ends the stream. -/
theorem frameIsTakenBeatByBeat : Obligations.FrameIsTakenBeatByBeat := by
  intro s v hout hv
  obtain ⟨pre, b, hbeats, hpre, hb⟩ := exists_beatsOf_eq_append hv
  have hlen : v.length = pre.length + 1 := by
    rw [← length_beatsOf, hbeats, List.length_append, List.length_singleton]
  rw [hlen, hbeats]
  exact takeMany_of_last (hout.trans hbeats) hpre hb

/-- Settles O58: the sink's turn is one take. -/
theorem sinkTakesTheHeadBeat : Obligations.SinkTakesTheHeadBeat := by
  intro p run s ts hdecoder hturns
  rw [stepWith_sink hdecoder hturns]
  cases hout : s.txOut with
  | nil => exact congrArg Host.Outcome.next (takeBeat_of_nil rfl)
  | cons b rest => exact congrArg Host.Outcome.next (takeBeat_of_cons rfl)

/-! ### The transmit commands (R250, R289, R291, R292) -/

section Commands

theorem exec_txs (c : Byte) (s : State) : exec (.txs c) s = .next (s.transmitChecked Config.params (.short c)) := rfl

theorem exec_txp (a b c : Byte) (s : State) :
    exec (.txp a b c) s = .next (s.transmitChecked Config.params (.property a b c)) := rfl

variable {p : Params} {s : State} {cmd : TxCommand}

/-- A command that `TxCheck` passes queues its frame, or raises the transmit fault. -/
theorem transmitChecked_of_ready (hidle : s.txPhase = .idle) (hch : s.txChannel.toNat ≤ 99) :
    s.transmitChecked p cmd =
      (modulation p (cmd.frame s.txChannel.toNat)).elim (s.raise .txFatal) fun v =>
        { s with txOut := beatsOf v, txPhase := .stream } := by
  have hready : s.txReady = true := (txReady_iff s).mpr ⟨hidle, by omega⟩
  obtain ⟨hn, -⟩ | ⟨-, v, hv, he⟩ | ⟨-, hv, he⟩ := transmitChecked_cases p cmd s
  · cases hn.symm.trans hready
  · rw [he, hv, Option.elim_some]
  · rw [he, hv, Option.elim_none]

end Commands

/-- Settles O5: both commands pass `TxCheck`, and the modulation decides between the queue and the fault. -/
theorem transmitCommandsQueueTheFrame : Obligations.TransmitCommandsQueueTheFrame := by
  constructor
  · intro c s hidle hch
    rw [exec_txs, transmitChecked_of_ready hidle hch, TxCommand.frame]
    cases modulation Config.params (frameShortBits s.txChannel.toNat c) <;> rfl
  · intro a b c s hidle hch
    rw [exec_txp, transmitChecked_of_ready hidle hch, TxCommand.frame]
    cases modulation Config.params (framePropBits s.txChannel.toNat a b c) <;> rfl

end Sys2Proof.Machine

/-! SUPPORT. The control interface (family 46_control.md): `NOP` and the dropped transmit commands (R289, R290), the bits
of `STATUS` (R284), the accesses of the bus offset by offset (R280, R281, R294), the latch of `SAMPLE_COUNT_HI` (R287),
and the reading of a record word by word (R288). -/

namespace Sys2Proof.Machine

/-! ### NOP and dropped commands (R289, R290, R344) -/

/-- Settles O4: `NOP` returns the state it is given, and its `OP` is the only field its decoding looks at. -/
theorem nopChangesNothing : Obligations.NopChangesNothing :=
  ⟨fun _ _ => rfl, fun _ hop => decodeCommand_nop hop⟩

/-- A command that `TxCheck` does not pass only raises the event. -/
theorem transmitChecked_of_not_ready {s : State} (h : s.txPhase ≠ .idle ∨ 99 < s.txChannel.toNat) (p : Params)
    (cmd : TxCommand) : s.transmitChecked p cmd = { s with cmdErr := true } := by
  have hbusy : ¬s.txReady = true := fun hready => by
    obtain ⟨hidle, hch⟩ := (txReady_iff s).mp hready
    exact h.elim (fun hphase => hphase hidle) (fun habove => by omega)
  obtain ⟨-, he⟩ | ⟨hready, -⟩ | ⟨hready, -⟩ := transmitChecked_cases p cmd s
  · exact he
  · exact absurd hready hbusy
  · exact absurd hready hbusy

/-- Settles O6: both commands stand behind the same check. -/
theorem transmitCommandsAreDropped : Obligations.TransmitCommandsAreDropped := fun s h =>
  ⟨fun c => by rw [exec_txs, transmitChecked_of_not_ready h],
    fun a b c => by rw [exec_txp, transmitChecked_of_not_ready h]⟩

/-! ### The bits of STATUS (R284) -/

section Status

variable (p : Params) (s : State)

theorem getLsbD_bitIf (b : Bool) {n : Nat} (hn : n < 32) (k : Nat) : (bitIf b n).getLsbD k = (b && decide (k = n)) := by
  cases b with
  | false => exact BitVec.getLsbD_zero
  | true => exact (BitVec.getLsbD_twoPow n k).trans (by simp only [hn, decide_true, Bool.true_and, eq_comm])

/-- Bit `k` of the value read from `STATUS`. -/
def State.statusBit : Nat → Bool
  | 0 => s.resAvail
  | 1 => s.resFull p
  | 2 => s.txBusy
  | 3 => s.txDone
  | 4 => s.cmdErr
  | 5 => s.ovf
  | 6 => s.eosFatal
  | 7 => s.txFatal
  | _ => false

theorem getLsbD_statusValue (k : Nat) : (s.statusValue p).getLsbD k = s.statusBit p k := by
  simp only [State.statusValue, BitVec.getLsbD_or, getLsbD_bitIf, Nat.reduceLT]
  match k with
  | 0 | 1 | 2 | 3 | 4 | 5 | 6 | 7 => simp [State.statusBit]
  | k + 8 => simp [State.statusBit]

/-- The bits a write of `STATUS` can clear. -/
theorem getLsbD_ackMask : ∀ k < 32, (0x38 : Word).getLsbD k = decide (k ∈ [3, 4, 5]) := by decide

/-- A write clears the stored bits 3, 4 and 5 that are 1 in its value. -/
theorem statusBit_acknowledge (v : Word) (k : Nat) :
    (s.acknowledge v).statusBit p k = (s.statusBit p k && !(v.getLsbD k && decide (k ∈ [3, 4, 5]))) := by
  match k with
  | 0 | 1 | 2 | 3 | 4 | 5 | 6 | 7 => simp [State.statusBit, State.resAvail, State.resFull, State.txBusy]
  | k + 8 => rfl

theorem statusValue_acknowledge (v : Word) :
    (s.acknowledge v).statusValue p = s.statusValue p &&& ~~~(v &&& 0x38) := by
  refine BitVec.eq_of_getLsbD_eq fun k hk => ?_
  rw [BitVec.getLsbD_and, BitVec.getLsbD_not, BitVec.getLsbD_and, getLsbD_ackMask k hk, getLsbD_statusValue,
    getLsbD_statusValue, statusBit_acknowledge, decide_eq_true hk, Bool.true_and]

end Status

/-- Settles O21: bit by bit, and the write bit by bit again. -/
theorem statusIsAssembledAndCleared : Obligations.StatusIsAssembledAndCleared := by
  refine fun p s v => ⟨fun k => ?_, rfl, statusValue_acknowledge p s v⟩
  rw [getLsbD_statusValue]
  match k with
  | 0 | 3 | 4 | 5 | 6 | 7 => rfl
  | 1 | 2 => exact beq_eq_decide _ _
  | k + 8 => rfl

/-! ### Accesses of the bus (R280, R281, R294) -/

section Bus

variable {p : Params} {run : Instr → State → Result} {s : State}

theorem legalAccess_eq_false {a : Byte} {n : Nat} (h : n ≠ 4 ∨ a.toNat % 4 ≠ 0) : legalAccess a n = false :=
  Bool.eq_false_iff.mpr fun hlegal => by
    obtain ⟨hsize, halign⟩ := (legalAccess_iff a n).mp hlegal
    exact h.elim (fun hne => hne hsize) (fun hne => hne halign)

theorem busAccess_read_illegal {a : Byte} {n : Nat} (h : n ≠ 4 ∨ a.toNat % 4 ≠ 0) :
    busAccess p run (.read a n) s = .next (s.reply .busError) := by
  rw [busAccess, legalAccess_eq_false h]
  rfl

theorem busAccess_write_illegal {a : Byte} {n : Nat} {v : Word} (h : n ≠ 4 ∨ a.toNat % 4 ≠ 0) :
    busAccess p run (.write a n v) s = .next (s.reply .busError) := by
  rw [busAccess, legalAccess_eq_false h]
  rfl

theorem busAccess_read_reserved {a : Byte} (hl : legalAccess a 4 = true) (ha : csrAt a = none) :
    busAccess p run (.read a 4) s = .next (s.reply ⟨false, 0⟩) := by
  simp only [busAccess, hl, ha, if_true]

theorem busAccess_write_reserved {a : Byte} {v : Word} (hl : legalAccess a 4 = true) (ha : csrAt a = none) :
    busAccess p run (.write a 4 v) s = .next (s.reply .ack) := by
  simp only [busAccess, hl, ha, if_true]

/-- An access is illegal, at a register, or at a reserved offset (R42, R61, R67). -/
theorem access_cases (a : Byte) (n : Nat) :
    (n ≠ 4 ∨ a.toNat % 4 ≠ 0) ∨
    (¬(n ≠ 4 ∨ a.toNat % 4 ≠ 0) ∧ n = 4 ∧
      ((∃ r : Csr, a = r.offset) ∨ (legalAccess a 4 = true ∧ csrAt a = none))) := by
  refine or_iff_not_imp_left.mpr fun hlegal => ?_
  obtain ⟨rfl, halign⟩ : n = 4 ∧ a.toNat % 4 = 0 := by simpa only [ne_eq, not_or, not_not] using hlegal
  refine ⟨hlegal, rfl, ?_⟩
  cases ha : csrAt a with
  | none => exact .inr ⟨(legalAccess_iff a 4).mpr ⟨rfl, halign⟩, rfl⟩
  | some r => exact .inl ⟨r, (beq_iff_eq.mp (List.find?_some (p := fun r : Csr => r.offset == a) ha)).symm⟩

theorem ne_offset_of_reserved {a : Byte} (h : csrAt a = none) :
    a ≠ 0x00 ∧ a ≠ 0x04 ∧ a ≠ 0x08 ∧ a ≠ 0x0C ∧ a ≠ 0x10 ∧ a ≠ 0x14 ∧ a ≠ 0x18 ∧ a ≠ 0x1C ∧ a ≠ 0x20 ∧ a ≠ 0x24 := by
  have hne (r : Csr) : a ≠ r.offset := by
    rintro rfl
    cases (csrAt_offset r).symm.trans h
  exact ⟨hne .id, hne .ctrl, hne .status, hne .irqEn, hne .cmd, hne .txChannel, hne .sampleCountLo, hne .sampleCountHi,
    hne .result, hne .resultLen⟩

theorem busAccess_read_offset (r : Csr) :
    busAccess p run (.read r.offset 4) s = .next ((csrRead p r s).2.reply ⟨false, (csrRead p r s).1⟩) :=
  busAccess_read (csrAt_offset r) (legalAccess_offset r)

theorem busAccess_write_offset (r : Csr) (v : Word) :
    busAccess p run (.write r.offset 4 v) s = csrWrite run r v (s.reply .ack) :=
  busAccess_write (csrAt_offset r) (legalAccess_offset r)

/-- The host's turn takes its next access (R72). -/
theorem stepWith_access {ts : List Turn} {op : BusOp} {rest : List BusOp} (hdecoder : s.inflight = none)
    (hturns : s.turns = .bus :: ts) (hbus : s.busIn = op :: rest) :
    stepWith p run s = busAccess p run op { s with turns := ts, busIn := rest } := by
  rw [stepWith_bus hdecoder hturns, busTurn_cons (s := { s with turns := ts }) hbus]

theorem csrRead_ctrl : csrRead p .ctrl s = (if s.rxEn then 1 else 0, s) := by
  cases h : s.rxEn <;> simp [csrRead, bitIf, h]

/-- A `RESULT` read with its answer (R288): 0 from an empty FIFO, else the next word of the head record. -/
theorem reply_resultPop (s : State) : s.resultPop.2.reply ⟨false, s.resultPop.1⟩ =
    match s.rfifo with
    | [] => s.reply ⟨false, 0⟩
    | r :: rest =>
      if s.rdIdx + 1 < r.length then { s.reply ⟨false, r.getD s.rdIdx 0⟩ with rdIdx := s.rdIdx + 1 }
      else { s.reply ⟨false, r.getD s.rdIdx 0⟩ with
        rfifo := rest, rdIdx := 0, recordsOut := s.recordsOut ++ [r] } := by
  cases hfifo : s.rfifo with
  | nil => rw [resultPop_of_empty hfifo]
  | cons r rest =>
    by_cases hmore : s.rdIdx + 1 < r.length
    · rw [resultPop_of_more hfifo hmore]
      exact (if_pos hmore).symm
    · rw [resultPop_of_last hfifo (Nat.not_lt.mp hmore)]
      exact (if_neg hmore).symm

theorem ofNat_resultLen (s : State) : BitVec.ofNat 32 s.resultLen =
    match s.rfifo with
    | [] => 0
    | r :: _ => BitVec.ofNat 32 (r.length - s.rdIdx) := by
  rw [State.resultLen]
  cases s.rfifo <;> rfl

end Bus

/-- Settles O19: an illegal access, each register, and the reserved offsets. -/
theorem busReadEffect : Obligations.BusReadEffect := by
  intro p run s ts rest a n hdecoder hturns hbus t answer
  rw [stepWith_access hdecoder hturns hbus]
  obtain hillegal | ⟨hlegal, rfl, ⟨r, rfl⟩ | ⟨halign, hreserved⟩⟩ := access_cases a n
  · rw [if_pos hillegal, busAccess_read_illegal hillegal]
    rfl
  · rw [if_neg hlegal, busAccess_read_offset]
    cases r with
    | id | status | irqEn | cmd | txChannel | sampleCountLo | sampleCountHi => rfl
    | ctrl =>
      rw [csrRead_ctrl]
      rfl
    | result => exact congrArg Host.Outcome.next (reply_resultPop _)
    | resultLen => exact congrArg (fun v => Host.Outcome.next (answer v)) (ofNat_resultLen s)
  · rw [if_neg hlegal, busAccess_read_reserved halign hreserved]
    simp only [ne_offset_of_reserved hreserved, if_false]
    rfl

/-- Settles O20: an illegal access, each register, and the reserved offsets. -/
theorem busWriteEffect : Obligations.BusWriteEffect := by
  intro p run s ts rest a n v hdecoder hturns hbus t
  rw [stepWith_access hdecoder hturns hbus]
  obtain hillegal | ⟨hlegal, rfl, ⟨r, rfl⟩ | ⟨halign, hreserved⟩⟩ := access_cases a n
  · rw [if_pos hillegal, busAccess_write_illegal hillegal]
    rfl
  · rw [if_neg hlegal, busAccess_write_offset]
    cases r <;> rfl
  · rw [if_neg hlegal, busAccess_write_reserved halign hreserved]
    simp only [ne_offset_of_reserved hreserved, if_false]
    rfl

/-! ### The latch of the high half of `count` (R287, R347) -/

section Latch

variable {p : Params} {s t : State}

theorem resultPop_scShadow (s : State) : s.resultPop.2.scShadow = s.scShadow := by
  obtain he | ⟨_, _, -, -, he⟩ | ⟨_, _, -, -, he⟩ := resultPop_cases s <;> rw [he]

theorem takeBeat_scShadow (s : State) : s.takeBeat.scShadow = s.scShadow := by
  obtain ⟨-, he⟩ | ⟨_, _, -, -, he⟩ | ⟨_, _, -, -, he⟩ := takeBeat_cases s <;> rw [he]

theorem transmitChecked_scShadow (q : Params) (cmd : TxCommand) (s : State) :
    (s.transmitChecked q cmd).scShadow = s.scShadow := by
  obtain ⟨-, he⟩ | ⟨-, _, -, he⟩ | ⟨-, -, he⟩ := transmitChecked_cases q cmd s <;> rw [he] <;> rfl

theorem scan_scShadow (p : Params) (s : State) : (s.scan p).scShadow = s.scShadow := by
  obtain ⟨-, he⟩ | ⟨_, -, -, he⟩ := scan_cases p s <;> rw [he]

theorem beat_scShadow (p : Params) (z : Sample) (last : Bool) (s : State) :
    (s.beat p z last).scShadow = s.scShadow := by
  obtain ⟨-, -, he⟩ | ⟨-, -, -, he⟩ | ⟨-, -, he⟩ := beat_cases p z last s <;> rw [he]
  exact scan_scShadow p _

/-- Of the accesses only the `LO` read and a soft reset touch the latch. -/
theorem BusMove.scShadow {op : BusOp} (hm : BusMove p s op t) (hlatch : op ≠ .read 0x18 4)
    (hreset : op.isSoftReset = false) : t.scShadow = s.scShadow := by
  cases hm with
  | latch => exact absurd rfl hlatch
  | softReset _ h => cases hreset.symm.trans h
  | pop => exact resultPop_scShadow s
  | transmit _ cmd => exact transmitChecked_scShadow _ cmd (s.reply .ack)
  | answer | rxEn | acknowledge | irqEn | txChannel | cmdErr => rfl

theorem Move.scShadow {x : Turn} (hm : Move p s x t) (hx : x ≠ .reset)
    (hbus : ∀ op rest, x = .bus → s.busIn = op :: rest → op ≠ .read 0x18 4 ∧ op.isSoftReset = false) :
    t.scShadow = s.scShadow := by
  cases hm with
  | beat b rest => exact beat_scShadow p b.sample b.last { s with portIn := rest }
  | take => exact takeBeat_scShadow s
  | reset => exact absurd rfl hx
  | bus op rest _ hb hm =>
    obtain ⟨hlatch, hreset⟩ := hbus op rest rfl hb
    exact hm.scShadow hlatch hreset
  | none | process | eosFatal | eosIgnored => rfl

/-- A step that does not latch takes no read of `SAMPLE_COUNT_LO` from the bus. -/
theorem ne_read_of_latchesNext {op : BusOp} {rest : List BusOp} (hdecoder : s.inflight = none)
    (h : s.latchesNext p = false) (hx : s.nextTurn p = .bus) (hb : s.busIn = op :: rest) : op ≠ .read 0x18 4 := by
  rintro rfl
  simp [State.latchesNext, hdecoder, hx, hb] at h

end Latch

/-- Settles O25: the two halves of `count` side by side are `count`, and every other move keeps the latch. -/
theorem countHighHalfIsLatched : Obligations.CountHighHalfIsLatched := by
  refine ⟨fun p s => BitVec.extractLsb'_append_extractLsb' (w := 32) (len := 32), fun p s t hlatch hreset hs => ?_⟩
  obtain ⟨_, _, -, -, rfl⟩ | ⟨-, -, hm⟩ | ⟨hdecoder, hm⟩ := stepWith_move hs
  · rfl
  · exact hm.scShadow (by decide) (by simp)
  · obtain ⟨hx, hbus⟩ := nextTurn_of_resetsNext hdecoder hreset
    exact hm.scShadow hx fun op rest hturn hb => ⟨ne_read_of_latchesNext hdecoder hlatch hturn hb, hbus op rest hturn hb⟩

/-! ### A record, word by word (R288) -/

/-- As many reads as words are left of the head record give those words, and pop the record. -/
theorem popMany_of_rest {r : Record} {rest : List Record} (n : Nat) {s : State} (hfifo : s.rfifo = r :: rest)
    (hlen : s.rdIdx + (n + 1) = r.length) : State.popMany (n + 1) s =
      (r.drop s.rdIdx, { s with rfifo := rest, rdIdx := 0, recordsOut := s.recordsOut ++ [r] }) := by
  have hdrop : r.drop s.rdIdx = r.getD s.rdIdx 0 :: r.drop (s.rdIdx + 1) := by
    rw [List.getD_eq_getElem _ _ (by omega), ← List.drop_eq_getElem_cons]
  rw [hdrop, State.popMany]
  cases n with
  | zero => rw [resultPop_of_last hfifo hlen.ge, List.drop_eq_nil_of_le hlen.ge, State.popMany]
  | succ n =>
    rw [resultPop_of_more hfifo (by omega),
      popMany_of_rest n (s := { s with rdIdx := s.rdIdx + 1 }) hfifo ((Nat.add_right_comm ..).trans hlen)]

/-- Settles O26: from the first word on all words are left. -/
theorem recordIsReadWordByWord : Obligations.RecordIsReadWordByWord := by
  intro s r rest hfifo hidx hne
  obtain ⟨n, hn⟩ := Nat.exists_eq_add_one.mpr (List.length_pos_iff.mpr hne)
  rw [hn, popMany_of_rest n hfifo (by omega), hidx, List.drop_zero]

end Sys2Proof.Machine

/-! SUPPORT. The two paths after a fatal event (family 60_exceptions.md): a halted receive path (R314, R352) and a halted
transmit path (R315) stay as they are until a reset. -/

namespace Sys2Proof.Machine

section Halted

variable {p : Params} {s t : State}

/-- A step that is no reset delivers the record of the burst in the decoder, or is a move that is neither the reset turn
nor a soft reset (R340, R341). -/
theorem stepWith_move_of_no_reset (hreset : s.resetsNext p = false) (h : stepWith p exec s = .next t) :
    (∃ r rec, s.inflight = some r ∧ t = s.deliver rec) ∨
    ∃ x turns, Move p { s with turns := turns } x t ∧ x ≠ .reset ∧
      ∀ op rest, x = .bus → s.busIn = op :: rest → op.isSoftReset = false := by
  obtain ⟨r, rec, hdecoder, -, ht⟩ | ⟨-, -, hm⟩ | ⟨hdecoder, hm⟩ := stepWith_move h
  · exact .inl ⟨r, rec, hdecoder, ht⟩
  · exact .inr ⟨.drain, s.turns, hm, by decide, by simp⟩
  · exact .inr ⟨_, _, hm, nextTurn_of_resetsNext hdecoder hreset⟩

/-! ### The receive path (R314, R352) -/

/-- `t` has the receive path of `s`, the beats offered to it included, but for records popped off the head of the
FIFO. -/
structure State.ReceiveKept (s t : State) : Prop where
  rxPhase : t.rxPhase = s.rxPhase
  win : t.win = s.win
  count : t.count = s.count
  pending : t.pending = s.pending
  prevEnd : t.prevEnd = s.prevEnd
  discard : t.discard = s.discard
  eosFatal : t.eosFatal = s.eosFatal
  portIn : t.portIn = s.portIn
  rfifo : t.rfifo <:+ s.rfifo

/-- Also where every update starts from: each field that the update leaves alone is kept by the same equation. -/
theorem State.ReceiveKept.refl (s : State) : s.ReceiveKept s := ⟨rfl, rfl, rfl, rfl, rfl, rfl, rfl, rfl, List.suffix_rfl⟩

theorem receiveKept_resultPop (s : State) : s.ReceiveKept s.resultPop.2 := by
  obtain he | ⟨_, _, -, -, he⟩ | ⟨r, rest, hfifo, -, he⟩ := resultPop_cases s <;> rw [he]
  · exact .refl s
  · exact { State.ReceiveKept.refl s with }
  · exact { State.ReceiveKept.refl s with rfifo := hfifo ▸ List.suffix_cons r rest }

theorem receiveKept_takeBeat (s : State) : s.ReceiveKept s.takeBeat := by
  obtain ⟨-, he⟩ | ⟨_, _, -, -, he⟩ | ⟨_, _, -, -, he⟩ := takeBeat_cases s <;> rw [he] <;>
    exact { State.ReceiveKept.refl s with }

theorem receiveKept_transmitChecked (q : Params) (cmd : TxCommand) (s : State) :
    s.ReceiveKept (s.transmitChecked q cmd) := by
  obtain ⟨-, he⟩ | ⟨-, _, -, he⟩ | ⟨-, -, he⟩ := transmitChecked_cases q cmd s <;> rw [he] <;>
    exact { State.ReceiveKept.refl s with }

/-- Of the accesses on the bus only a soft reset reaches the receive path further than the head of the FIFO. -/
theorem BusMove.receiveKept {op : BusOp} (hm : BusMove p s op t) (hop : op.isSoftReset = false) : s.ReceiveKept t := by
  cases hm with
  | pop => exact { receiveKept_resultPop s with }
  | softReset _ h => cases hop.symm.trans h
  | transmit _ cmd => exact { receiveKept_transmitChecked Config.params cmd (s.reply .ack) with }
  | answer | latch | rxEn | acknowledge | irqEn | txChannel | cmdErr => exact { State.ReceiveKept.refl s with }

/-- A halted receiver has no PROCESS step, its port is not ready, and it ignores an end of stream. -/
theorem Move.receiveKept {x : Turn} (hm : Move p s x t) (hhalted : s.rxPhase = .halted) (hx : x ≠ .reset)
    (hbus : ∀ op rest, x = .bus → s.busIn = op :: rest → op.isSoftReset = false) : s.ReceiveKept t := by
  cases hm with
  | none => exact .refl s
  | process _ _ _ _ _ _ _ he =>
    obtain ⟨hprocess, -, -⟩ := rxEnabled_iff.mp he
    cases hhalted.symm.trans hprocess
  | beat _ _ _ hready =>
    obtain ⟨haccept, -, -⟩ := portReady_iff.mp hready
    cases hhalted.symm.trans haccept
  | eosFatal haccept => cases hhalted.symm.trans haccept
  | eosIgnored => exact { State.ReceiveKept.refl s with }
  | take => exact receiveKept_takeBeat s
  | reset => exact absurd rfl hx
  | bus op rest _ hb hm => exact { hm.receiveKept (hbus op rest rfl hb) with }

/-! ### The transmit path (R315) -/

theorem txPart_of_transmitFields (h : t.transmitFields = s.transmitFields) : t.txPart = s.txPart := by
  simp only [State.transmitFields, Prod.mk.injEq] at h
  obtain ⟨hout, hphase, -, -, hfatal, -, -⟩ := h
  rw [State.txPart, hphase, hout, hfatal, State.txPart]

/-- A halted transmitter drops every command (R289, R315). -/
theorem BusMove.txPart_of_halted {op : BusOp} (hm : BusMove p s op t) (hhalted : s.txPhase = .halted)
    (hop : op.isSoftReset = false) : t.txPart = s.txPart := by
  cases hm with
  | pop => exact txPart_of_transmitFields (resultPop_transmitFields s)
  | softReset _ h => cases hop.symm.trans h
  | transmit _ cmd =>
    have hbusy : (s.reply .ack).txPhase ≠ .idle := fun hidle => by cases hhalted.symm.trans hidle
    rw [transmitChecked_of_not_ready (.inl hbusy)]
    rfl
  | answer | latch | rxEn | acknowledge | irqEn | txChannel | cmdErr => rfl

/-- With the transmitter halted and nothing queued the sink has no beat to take. -/
theorem Move.txPart_of_halted {x : Turn} (hm : Move p s x t) (hhalted : s.txPhase = .halted) (hout : s.txOut = [])
    (hx : x ≠ .reset) (hbus : ∀ op rest, x = .bus → s.busIn = op :: rest → op.isSoftReset = false) :
    t.txPart = s.txPart := by
  cases hm with
  | beat b rest => exact txPart_of_transmitFields (beat_transmitFields p b.sample b.last { s with portIn := rest })
  | take => rw [takeBeat_of_nil hout]
  | reset => exact absurd rfl hx
  | bus op rest _ hb hm => exact hm.txPart_of_halted hhalted (hbus op rest rfl hb)
  | none | process | eosFatal | eosIgnored => rfl

end Halted

/-- Settles O37: a step from an empty decoder is a move, and no move but a reset reaches a halted receiver. -/
theorem haltedReceiverStaysHalted : Obligations.HaltedReceiverStaysHalted := by
  intro p s t hhalted hdecoder hreset hs
  obtain ⟨_, _, hburst, -⟩ | ⟨x, turns, hm, hx, hbus⟩ := stepWith_move_of_no_reset hreset hs
  · cases hdecoder.symm.trans hburst
  · obtain ⟨hphase, hwin, hcount, hpending, hprev, hdiscard, heos, hport, hfifo⟩ := hm.receiveKept hhalted hx hbus
    exact ⟨hphase.trans hhalted, hwin, hcount, hpending, hprev, hdiscard, heos, hport, hfifo⟩

/-- Settles O38: a record delivered is no matter of the transmit path, and no move but a reset reaches it halted. -/
theorem haltedTransmitterStaysHalted : Obligations.HaltedTransmitterStaysHalted := by
  intro p s t hhalted hout hreset hs
  have hkept : t.txPart = s.txPart := by
    obtain ⟨_, _, -, rfl⟩ | ⟨x, turns, hm, hx, hbus⟩ := stepWith_move_of_no_reset hreset hs
    · rfl
    · exact hm.txPart_of_halted hhalted hout hx hbus
  simp only [State.txPart, Prod.mk.injEq] at hkept
  obtain ⟨hphase, hqueue, hfatal⟩ := hkept
  exact ⟨hphase.trans hhalted, hqueue.trans hout, hfatal⟩

end Sys2Proof.Machine

/-! SUPPORT. Reset (family 70_reset_and_hazards.md): the reset input (R340) and the soft reset (R341) put the whole block at
its reset value. -/

namespace Sys2Proof.Machine

section Reset

variable {p : Params} {run : Instr → State → Result} {s : State}

theorem idleTurn_ne_reset (p : Params) (s : State) : s.idleTurn p ≠ .reset := by
  obtain ⟨-, h⟩ | ⟨-, -, h⟩ | ⟨-, -, -, -, h⟩ | ⟨-, -, -, h⟩ := idleTurn_cases p s <;> simp [h]

/-- The reset input never moves of itself: its turn is one that waits (R340, log entry 1). -/
theorem nextTurn_eq_reset_iff : s.nextTurn p = .reset ↔ s.turns.head? = some .reset := by
  cases ht : s.turns with
  | nil => simp [nextTurn_nil ht, idleTurn_ne_reset p s]
  | cons u ts => simp [nextTurn_cons ht]

/-- The two ways to reset: the turn of the reset input, and a soft reset that is the host's next access. -/
theorem resetsNext_cases (h : s.resetsNext p = true) :
    s.inflight = none ∧ (s.nextTurn p = .reset ∨
      ∃ op rest, s.nextTurn p = .bus ∧ s.busIn = op :: rest ∧ op.isSoftReset = true) := by
  rw [State.resetsNext, Bool.and_eq_true, Option.isNone_iff_eq_none] at h
  obtain ⟨hdecoder, hturn⟩ := h
  refine ⟨hdecoder, ?_⟩
  cases hx : s.nextTurn p with
  | reset => exact .inl rfl
  | bus =>
    cases hb : s.busIn with
    | nil => simp [hx, hb] at hturn
    | cons op rest => exact .inr ⟨op, rest, rfl, rfl, by simpa [hx, hb] using hturn⟩
  | port | eos | rx | drain | sink => simp [hx] at hturn

/-- A soft reset is answered, and then resets the block (R283, R341). -/
theorem busAccess_softReset {op : BusOp} (h : op.isSoftReset = true) :
    busAccess p run op s = .next (s.reply .ack).blockReset := by
  cases op with
  | read a n => cases h
  | write a n v =>
    simp only [BusOp.isSoftReset, Bool.and_eq_true, beq_iff_eq] at h
    obtain ⟨⟨hlegal, hctrl⟩, hv⟩ := h
    obtain ⟨rfl, -⟩ := (legalAccess_iff a n).mp hlegal
    rw [busAccess_write hctrl hlegal, csrWrite, State.ctrlWrite, if_pos hv]

end Reset

/-- Settles O24: the reset input's turn takes nothing but itself, and a soft reset takes the access that asks for it. -/
theorem resetsRestoreEverything : Obligations.ResetsRestoreEverything := by
  intro p run s hreset
  obtain ⟨hdecoder, hx | ⟨op, rest, hx, hbus, hop⟩⟩ := resetsNext_cases hreset
  · have hhead : s.turns.head? = some .reset := nextTurn_eq_reset_iff.mp hx
    rw [stepWith_turn hdecoder (by simp [hx]), hx, takeTurn, if_pos hhead, if_pos hhead]
    rfl
  · have hhead : s.turns.head? ≠ some .reset := fun ht => by cases hx.symm.trans (nextTurn_eq_reset_iff.mpr ht)
    rw [stepWith_turn hdecoder (by simp [hx]), hx, takeTurn, busTurn_cons (s := { s with turns := s.turns.tail }) hbus,
      busAccess_softReset hop, if_neg hhead, if_neg hhead, hbus]
    rfl

end Sys2Proof.Machine
